-- ==== Sys2Proof/Word.lean ====
section
/-! DEFINITION. The word types of the engine (spec/00_scope.md R9, R10, R11). -/

namespace Sys2Proof

/-- A byte: one element of the chunk RAM (R44). -/
abbrev Byte := BitVec 8

/-- A 32-bit word: a command, a register, a buffer word, a bus address (R100, R32, R45, R70). -/
abbrev Word := BitVec 32

/-- A DAC code, `CODE_BITS` = 10 wide (R9). -/
abbrev Code := BitVec 10

/-- A buffer index, 0 or 1 (`NUM_BUFFERS` = 2, R9, R102). -/
abbrev BufId := BitVec 1

end Sys2Proof
end

