-- ==== Sys2Proof/Syntax.lean ====
section
/-! DEFINITION. The thirteen commands of SE-CMD version 1 (spec/30_encoding.md R103) and the lines of its assembler (R108, R109). -/

namespace Sys2Proof

/-- A legal command with its operands (R102, R103). Each operand has exactly the width of its field, so every term
is a command: the range checks of the assembler stand on `AsmLine`. -/
inductive Instr where
  /-- `NOP` (R218). -/
  | nop
  /-- `CODEC`: `IMM[15:8]` and `IMM[7:0]` (R136). -/
  | codec (hi lo : Byte)
  /-- `FILL b` (R183). -/
  | fill (b : BufId)
  /-- `START b, n` (R214). -/
  | start (b : BufId) (n : BitVec 16)
  /-- `BUSY` (R215). -/
  | busy
  /-- `WAIT` (R216). -/
  | wait
  /-- `PUSH c` (R217). -/
  | push (c : Code)
  /-- `TICK` (R157). -/
  | tick
  /-- `SETINC v, inc` (R159). -/
  | setinc (v : BitVec 3) (inc : BitVec 16)
  /-- `SETPH v, ph` (R160). -/
  | setph (v : BitVec 3) (ph : BitVec 16)
  /-- `SETNV nv` (R158). -/
  | setnv (nv : BitVec 4)
  /-- `SBEGIN` (R185). -/
  | sbegin
  /-- `SSTEP` (R186). -/
  | sstep
deriving DecidableEq, Repr

/-- How many phases a command has at most (R110). -/
def Instr.phases : Instr → Nat
  | .nop | .codec _ _ | .busy | .setinc _ _ | .setph _ _ | .setnv _ | .sbegin => 1
  | .fill _ | .start _ _ | .wait | .push _ | .tick => 2
  | .sstep => 4

/-- One line of the assembler: a command of R108 or a pseudo-instruction of R109, its operands as written. -/
inductive AsmLine where
  | nop
  | codec (imm : Nat)
  | fill (b : Nat)
  | start (b n : Nat)
  | busy
  | wait
  | push (c : Nat)
  | tick
  | setinc (v inc : Nat)
  | setph (v ph : Nat)
  | setnv (nv : Nat)
  | sbegin
  | sstep
  /-- `IDLE`: `PUSH 512` (R109). -/
  | idle
  /-- `CODECB lo, hi` (R109). -/
  | codecb (lo hi : Nat)
  /-- `VOICE v, inc`: `SETINC v, inc` then `SETPH v, 0` (R109). -/
  | voice (v inc : Nat)
  /-- `DRAIN`: `WAIT` then `PUSH 512` (R109). -/
  | drain
deriving DecidableEq, Repr

end Sys2Proof
end

