-- ==== Sys2Proof/WellFormed.lean ====
section
/-! DEFINITION. The operand ranges of assembler lines (spec/30_encoding.md R108): a line outside them is an assembly error.
A term of `Instr` needs no check: its operands have exactly their fields' widths. -/

namespace Sys2Proof

/-- Whether a line's operands lie in the assembler's ranges (R108). R109 gives the pseudo-instructions by their
expansions; each byte of `CODECB` is taken to lie in 0..255 (DEDUCED, log entry 12). -/
def AsmLine.wellFormed : AsmLine → Bool
  | .codec imm => imm < 65536
  | .fill b => b < 2
  | .start b n => b < 2 && n < 65536
  | .push c => c < 1024
  | .setinc v x | .setph v x | .voice v x => v < 8 && x < 65536
  | .setnv nv => nv < 16
  | .codecb lo hi => lo < 256 && hi < 256
  | .nop | .busy | .wait | .tick | .sbegin | .sstep | .idle | .drain => true

end Sys2Proof
end

