-- ==== Sys2Proof/Decode.lean ====
section
/-! DEFINITION. The decoder (spec/30_encoding.md R101 to R107), the encoder (R101, R104) and the assembler's
words (R108, R109). -/

namespace Sys2Proof

/-- Why a command word, or a list of bytes, is no command (R104, R105). -/
inductive Illegal where
  /-- `OP` is 0xD, 0xE or 0xF (R105). -/
  | reservedOp
  /-- `OP` is 0x0 to 0xC and a fixed bit differs from the row's MATCH (R105). -/
  | fixedBits
  /-- Fewer than the four bytes of a command word (R100). -/
  | truncated
deriving DecidableEq, Repr

/-- The legality test of R104 for one row of the table: `(w & MASK) == MATCH`. -/
def checkRow (w mask pattern : Word) (i : Instr) : Except Illegal Instr :=
  if w &&& mask = pattern then .ok i else .error .fixedBits

/-- The command a word stands for, by R107: the row of `OP = w[3:0]` is tested, and the operands are the fields of
R102. Total on all words. -/
def decodeWord (w : Word) : Except Illegal Instr :=
  match (w.extractLsb' 0 4).toNat with
  | 0x0 => checkRow w 0xFFFFFFFF 0x00000000 .nop
  | 0x1 => checkRow w 0x0000FFFF 0x00000001 (.codec (w.extractLsb' 24 8) (w.extractLsb' 16 8))
  | 0x2 => checkRow w 0xFFFFFFEF 0x00000002 (.fill (w.extractLsb' 4 1))
  | 0x3 => checkRow w 0x0000FFEF 0x00000003 (.start (w.extractLsb' 4 1) (w.extractLsb' 16 16))
  | 0x4 => checkRow w 0xFFFFFFFF 0x00000004 .busy
  | 0x5 => checkRow w 0xFFFFFFFF 0x00000005 .wait
  | 0x6 => checkRow w 0xFC00FFFF 0x00000006 (.push (w.extractLsb' 16 10))
  | 0x7 => checkRow w 0xFFFFFFFF 0x00000007 .tick
  | 0x8 => checkRow w 0x0000FF8F 0x00000008 (.setinc (w.extractLsb' 4 3) (w.extractLsb' 16 16))
  | 0x9 => checkRow w 0x0000FF8F 0x00000009 (.setph (w.extractLsb' 4 3) (w.extractLsb' 16 16))
  | 0xA => checkRow w 0xFFF0FFFF 0x0000000A (.setnv (w.extractLsb' 16 4))
  | 0xB => checkRow w 0xFFFFFFFF 0x0000000B .sbegin
  | 0xC => checkRow w 0xFFFFFFFF 0x0000000C .sstep
  | _ => .error .reservedOp

/-- Byte `i` of a word, byte 0 the least significant (R74). -/
def wordByte (w : Word) (i : Nat) : Byte := w.extractLsb' (8 * i) 8

/-- The word of four bytes, the first the least significant (R74). -/
def wordOfBytes (b0 b1 b2 b3 : Byte) : Word := b3 ++ b2 ++ b1 ++ b0

/-- The bytes of a word in address order (R74). -/
def wordBytes (w : Word) : List Byte := [wordByte w 0, wordByte w 1, wordByte w 2, wordByte w 3]

/-- The command at the head of a list of bytes, and the bytes after it. Every command is four bytes (R100). -/
def decodeBytes : List Byte → Except Illegal (Instr × List Byte)
  | b0 :: b1 :: b2 :: b3 :: rest =>
    match decodeWord (wordOfBytes b0 b1 b2 b3) with
    | .ok i => .ok (i, rest)
    | .error e => .error e
  | _ => .error .truncated

/-- The word `{IMM, RSV, SEL, OP}` with `RSV` = 0 (R101). -/
def packWord (imm : BitVec 16) (sel op : BitVec 4) : Word := imm ++ (0 : BitVec 8) ++ sel ++ op

/-- The `OP` field of a command (R103). -/
def Instr.op : Instr → BitVec 4
  | .nop => 0x0
  | .codec _ _ => 0x1
  | .fill _ => 0x2
  | .start _ _ => 0x3
  | .busy => 0x4
  | .wait => 0x5
  | .push _ => 0x6
  | .tick => 0x7
  | .setinc _ _ => 0x8
  | .setph _ _ => 0x9
  | .setnv _ => 0xA
  | .sbegin => 0xB
  | .sstep => 0xC

/-- The `SEL` field of a command (R101, R102). -/
def Instr.sel : Instr → BitVec 4
  | .fill b | .start b _ => b.setWidth 4
  | .setinc v _ | .setph v _ => v.setWidth 4
  | _ => 0

/-- The `IMM` field of a command (R102). -/
def Instr.imm : Instr → BitVec 16
  | .codec hi lo => hi ++ lo
  | .start _ n => n
  | .push c => c.setWidth 16
  | .setinc _ x | .setph _ x => x
  | .setnv nv => nv.setWidth 16
  | _ => 0

/-- The word of a command (R101). -/
def encode (i : Instr) : Word := packWord i.imm i.sel i.op

/-- The commands a line stands for: itself, or the expansion of a pseudo-instruction (R108, R109). Operands outside
their ranges are cut to their fields here, and refused by `assemble`. -/
def AsmLine.commands : AsmLine → List Instr
  | .nop => [.nop]
  | .codec imm => [.codec (BitVec.ofNat 8 (imm / 256)) (BitVec.ofNat 8 imm)]
  | .fill b => [.fill (BitVec.ofNat 1 b)]
  | .start b n => [.start (BitVec.ofNat 1 b) (BitVec.ofNat 16 n)]
  | .busy => [.busy]
  | .wait => [.wait]
  | .push c => [.push (BitVec.ofNat 10 c)]
  | .tick => [.tick]
  | .setinc v inc => [.setinc (BitVec.ofNat 3 v) (BitVec.ofNat 16 inc)]
  | .setph v ph => [.setph (BitVec.ofNat 3 v) (BitVec.ofNat 16 ph)]
  | .setnv nv => [.setnv (BitVec.ofNat 4 nv)]
  | .sbegin => [.sbegin]
  | .sstep => [.sstep]
  | .idle => [.push 512]
  | .codecb lo hi => [.codec (BitVec.ofNat 8 hi) (BitVec.ofNat 8 lo)]
  | .voice v inc => [.setinc (BitVec.ofNat 3 v) (BitVec.ofNat 16 inc), .setph (BitVec.ofNat 3 v) 0]
  | .drain => [.wait, .push 512]

/-- The words a line assembles to; none where an operand is outside its range, an assembly error (R108). -/
def AsmLine.assemble (l : AsmLine) : Option (List Word) :=
  if l.wellFormed then some (l.commands.map encode) else none

/-- The decoder's answer for the opcode table's numbering: the word is laid out as bytes, little-endian (R74), and
the byte decoder reads it. -/
def decodeTableWord (nbits w : Nat) : Option Instr :=
  match decodeBytes (wordBytes (BitVec.ofNat 32 (w % 2 ^ nbits))) with
  | .ok (i, _) => some i
  | .error _ => none

end Sys2Proof
end

