-- ==== Sys2Proof/Config.lean ====
section
/-! DEFINITION. What a launch fixes for the machine (spec/00_scope.md R9) and the free values the spec leaves open. -/

namespace Sys2Proof

/-- Who takes a step (R7). KEYS has no step of its own: its levels are a draw of TICK (R8). -/
inductive Agent where
  /-- The processor, making the next access of its script. -/
  | host
  /-- The engine's command sequencer. -/
  | seq
  /-- The external transfer channel. -/
  | dma
  /-- The external output channel. -/
  | out
  /-- The platform, asserting the engine's reset input (R260). -/
  | platform
deriving DecidableEq, Repr, Inhabited

/-- A waveform table: 512 entries of ten bits, entry 0 first (R43, R154). -/
structure WaveRom where
  entries : List Code
  size : entries.length = 512
deriving DecidableEq, Repr

/-- The implementation parameters of R9 that are OPEN: a model takes them as an argument. They are part of the state,
and no step changes them (log entry 4). -/
structure Params where
  /-- `BUF_WORDS`, the capacity of each buffer in samples (R9). -/
  bufWords : Nat
  /-- `WAVE_ROM`, the waveform table (R43, R154). -/
  waveRom : WaveRom
  /-- `BLOCK_BASE`, the base of the engine's aperture (R70). -/
  blockBase : Word
  /-- `DMA_CH_BASE` (R79, R210). -/
  dmaChBase : Word
  /-- `OUT_TXF_ADDR` (R79, R222). -/
  outTxfAddr : Word
  /-- `DMA_CTRL_WORD` (R211). -/
  dmaCtrlWord : Word
  /-- `OUT_FIFO_DEPTH` (R51). -/
  outFifoDepth : Nat
  /-- The DMA channel's own number, which `CHAIN_TO` must name (R211, log entry 5). -/
  dmaChannel : BitVec 4
  /-- The output channel's data-request number, which `TREQ_SEL` must name (R211, log entry 5). -/
  outDreq : BitVec 6
deriving DecidableEq, Repr

/-- FREE VALUE. The key levels a TICK samples, one draw per value of the clock (R8, R151, log entry 8). -/
opaque Config.keyLevels : Nat → BitVec 8

/-- FREE VALUE. The agent that moves next where no turn is fixed, per value of the clock (R22, U13, log entry 6). -/
opaque Config.freeTurn : Nat → Agent

/-- FREE VALUE. What a RAM byte nothing has written holds, per number of resets and bus address (R44, R45, R53, U2, U3,
log entry 1). -/
opaque Config.ramAtReset : Nat → Nat → Byte

/-- FREE VALUE. Whether a read of RESULT, made while a command runs, returns the value from before the command, per value of
the clock (R275, U15, log entry 11). -/
opaque Config.readsOldResult : Nat → Bool

/-- FREE VALUE. What a read returns that the spec says returns any value, per value of the clock (R89, R262, log entries 9
and 10). -/
opaque Config.anyWord : Nat → Word

end Sys2Proof
end

