-- ==== Sys2Proof/Machine/Launch.lean ====
section
/-! DEFINITION. The constants of spec/00_scope.md R9, the default waveform ROM (spec/41_oscillator.md R155), which launches
the model admits (R9, R211), and the parameters of the reference launch. -/

namespace Sys2Proof

/-- `CODEC_LSHIFT` (R9). -/
def codecLshift : Nat := 2

/-- `CODEC_BIAS` (R9). -/
def codecBias : Nat := 32

/-- `CODEC_RSHIFT` (R9). -/
def codecRshift : Nat := 6

/-- `CODEC_MID` (R9). -/
def codecMid : Nat := 512

/-- `IDLE_CODE`, mid-scale (R9). -/
def idleCode : Code := 512

/-- `ROM_INDEX_SHIFT`: 7, as 90_conflicts.md C1 resolves it (R9, R153). -/
def romIndexShift : Nat := 7

/-- `MIX_SHIFT` (R9). -/
def mixShift : Nat := 3

/-- `MAX_VOICES` (R9). -/
def maxVoices : Nat := 8

/-- Entries 0 to 127 of the default table (R155). -/
def romQuarter0 : List Code :=
  [512, 518, 525, 531, 537, 543, 550, 556, 562, 568, 575, 581, 587, 593, 599, 606] ++
  [612, 618, 624, 630, 636, 642, 648, 654, 660, 666, 672, 678, 684, 690, 696, 702] ++
  [708, 713, 719, 725, 730, 736, 742, 747, 753, 758, 764, 769, 775, 780, 785, 791] ++
  [796, 801, 806, 811, 816, 821, 826, 831, 836, 841, 846, 850, 855, 860, 864, 869] ++
  [873, 878, 882, 886, 891, 895, 899, 903, 907, 911, 915, 919, 922, 926, 930, 933] ++
  [937, 940, 944, 947, 950, 953, 957, 960, 963, 966, 968, 971, 974, 977, 979, 982] ++
  [984, 986, 989, 991, 993, 995, 997, 999, 1001, 1003, 1004, 1006, 1008, 1009, 1011, 1012] ++
  [1013, 1014, 1015, 1017, 1017, 1018, 1019, 1020, 1021, 1021, 1022, 1022, 1022, 1023, 1023, 1023]

/-- Entries 128 to 255 of the default table (R155). -/
def romQuarter1 : List Code :=
  [1023, 1023, 1023, 1023, 1022, 1022, 1022, 1021, 1021, 1020, 1019, 1018, 1017, 1017, 1015, 1014] ++
  [1013, 1012, 1011, 1009, 1008, 1006, 1004, 1003, 1001, 999, 997, 995, 993, 991, 989, 986] ++
  [984, 982, 979, 977, 974, 971, 968, 966, 963, 960, 957, 953, 950, 947, 944, 940] ++
  [937, 933, 930, 926, 922, 919, 915, 911, 907, 903, 899, 895, 891, 886, 882, 878] ++
  [873, 869, 864, 860, 855, 850, 846, 841, 836, 831, 826, 821, 816, 811, 806, 801] ++
  [796, 791, 785, 780, 775, 769, 764, 758, 753, 747, 742, 736, 730, 725, 719, 713] ++
  [708, 702, 696, 690, 684, 678, 672, 666, 660, 654, 648, 642, 636, 630, 624, 618] ++
  [612, 606, 599, 593, 587, 581, 575, 568, 562, 556, 550, 543, 537, 531, 525, 518]

/-- Entries 256 to 383 of the default table (R155). -/
def romQuarter2 : List Code :=
  [512, 506, 499, 493, 487, 481, 474, 468, 462, 456, 449, 443, 437, 431, 425, 418] ++
  [412, 406, 400, 394, 388, 382, 376, 370, 364, 358, 352, 346, 340, 334, 328, 322] ++
  [316, 311, 305, 299, 294, 288, 282, 277, 271, 266, 260, 255, 249, 244, 239, 233] ++
  [228, 223, 218, 213, 208, 203, 198, 193, 188, 183, 178, 174, 169, 164, 160, 155] ++
  [151, 146, 142, 138, 133, 129, 125, 121, 117, 113, 109, 105, 102, 98, 94, 91] ++
  [87, 84, 80, 77, 74, 71, 67, 64, 61, 58, 56, 53, 50, 47, 45, 42] ++
  [40, 38, 35, 33, 31, 29, 27, 25, 23, 21, 20, 18, 16, 15, 13, 12] ++
  [11, 10, 9, 7, 7, 6, 5, 4, 3, 3, 2, 2, 2, 1, 1, 1]

/-- Entries 384 to 511 of the default table (R155). -/
def romQuarter3 : List Code :=
  [1, 1, 1, 1, 2, 2, 2, 3, 3, 4, 5, 6, 7, 7, 9, 10] ++
  [11, 12, 13, 15, 16, 18, 20, 21, 23, 25, 27, 29, 31, 33, 35, 38] ++
  [40, 42, 45, 47, 50, 53, 56, 58, 61, 64, 67, 71, 74, 77, 80, 84] ++
  [87, 91, 94, 98, 102, 105, 109, 113, 117, 121, 125, 129, 133, 138, 142, 146] ++
  [151, 155, 160, 164, 169, 174, 178, 183, 188, 193, 198, 203, 208, 213, 218, 223] ++
  [228, 233, 239, 244, 249, 255, 260, 266, 271, 277, 282, 288, 294, 299, 305, 311] ++
  [316, 322, 328, 334, 340, 346, 352, 358, 364, 370, 376, 382, 388, 394, 400, 406] ++
  [412, 418, 425, 431, 437, 443, 449, 456, 462, 468, 474, 481, 487, 493, 499, 506]

/-- The default `WAVE_ROM`, as R155 lists it. -/
def defaultWaveRom : WaveRom where
  entries := romQuarter0 ++ romQuarter1 ++ romQuarter2 ++ romQuarter3
  size := by decide +kernel

/-- Whether a control word has the flags of R211, in the layout R211 gives. R211 admits a word with the effect of the flags
and ties none to RING_SEL, SNIFF_EN, BUSY, the reserved bits and the error flags, for which it gives a default of 0: that each
of them must be 0 is the model's reading (DESIGN CHOICE, log entry 21). That CHAIN_TO and TREQ_SEL name two parameters is log
entry 5. -/
def Params.ctrlAdmitted (p : Params) : Bool :=
  let c := p.dmaCtrlWord
  c.extractLsb' 0 1 == 1 &&            -- EN
  c.extractLsb' 1 1 == 1 &&            -- HIGH_PRIORITY
  c.extractLsb' 2 2 == 2 &&            -- DATA_SIZE: 32-bit words
  c.extractLsb' 4 1 == 1 &&            -- INCR_READ
  c.extractLsb' 5 1 == 0 &&            -- INCR_WRITE
  c.extractLsb' 6 4 == 0 &&            -- RING_SIZE
  c.extractLsb' 10 1 == 0 &&           -- RING_SEL
  c.extractLsb' 11 4 == p.dmaChannel && -- CHAIN_TO: the channel itself
  c.extractLsb' 15 6 == p.outDreq &&   -- TREQ_SEL
  c.extractLsb' 21 1 == 1 &&           -- IRQ_QUIET
  c.extractLsb' 22 10 == 0             -- BSWAP, SNIFF_EN, BUSY, reserved, error flags

/-- Whether the model has a meaning for a launch with these parameters: the ranges of R9 and the control word of R211.
Any other launch is refused (R255, U7, U8). R9 asks only that `DMA_CH_BASE` and `OUT_TXF_ADDR` be word-aligned, so these
launches are admitted too, each a DESIGN CHOICE: a register of the channel, or the queue's port, inside the engine's aperture,
and kept apart from it (log entry 22); a `DMA_CH_BASE` so high that the channel's registers run past the bus space (log entry
24); and an `OUT_TXF_ADDR` that is the address of a register of the channel (log entry 25). -/
def Params.admitted (p : Params) : Bool :=
  decide (1 ≤ p.bufWords) && decide (p.bufWords ≤ 1024) &&
  decide (1 ≤ p.outFifoDepth) &&
  p.blockBase.extractLsb' 0 14 == 0 &&
  p.dmaChBase.extractLsb' 0 2 == 0 &&
  p.outTxfAddr.extractLsb' 0 2 == 0 &&
  Params.ctrlAdmitted p

/-- The parameters of the reference launch: those of spec/95_test_vectors.md, with the defaults of R9 (log entry 4). -/
def referenceParams : Params where
  bufWords := 4
  waveRom := defaultWaveRom
  blockBase := 0x40000000
  dmaChBase := 0x50000000
  outTxfAddr := 0x50200010
  dmaCtrlWord := 0x0020001B
  outFifoDepth := 4
  dmaChannel := 0
  outDreq := 0

end Sys2Proof
end

