-- ==== Sys2Proof/Machine/State.lean ====
section
/-! DEFINITION. The state of the engine and of the external agents the model holds (spec/10_state.md), the reasons a
step can stop, and the machine right after reset (R53, R264). -/

namespace Sys2Proof.Machine

/-- The states of the streaming sequence (R34, R47, R184). The fourth value of the field never occurs. -/
inductive StreamState where
  | idle
  | active
  | done
deriving DecidableEq, Repr

/-- The error bits of STATUS (R240). -/
inductive ErrorBit where
  /-- Bit 8: the command word was illegal. -/
  | illegal
  /-- Bit 9: an operand was out of range. -/
  | arg
  /-- Bit 10: SSTEP while no stream was active. -/
  | seq
  /-- Bit 11: the host wrote CMD, CHUNK_LEN or chunk RAM while CMD_BUSY = 1. -/
  | overrun
deriving DecidableEq, Repr

/-- The fields of STATUS (R34). The reserved bits read 0 and are not stored; `Status.toWord` is the host's view. -/
structure Status where
  cmdBusy : Bool
  streamState : StreamState
  curBuf : BufId
  drainValid : Bool
  drainBuf : BufId
  errIllegal : Bool
  errArg : Bool
  errSeq : Bool
  errOverrun : Bool
deriving DecidableEq, Repr

/-- STATUS after reset: 0x00000000 (R53, R260). -/
def Status.reset : Status where
  cmdBusy := false
  streamState := .idle
  curBuf := 0
  drainValid := false
  drainBuf := 0
  errIllegal := false
  errArg := false
  errSeq := false
  errOverrun := false

/-- `SEQ_PHASE`, the next phase to run: `idle` is 0, no command running (R46). -/
inductive SeqPhase where
  | idle
  | one
  | two
  | three
  | four
deriving DecidableEq, Repr

/-- The number of a phase (R46). -/
def SeqPhase.num : SeqPhase → Nat
  | .idle => 0
  | .one => 1
  | .two => 2
  | .three => 3
  | .four => 4

/-- The external transfer channel's registers (R50, R210). -/
structure Dma where
  /-- `D_READ_ADDR`. -/
  readAddr : Word
  /-- `D_WRITE_ADDR`. -/
  writeAddr : Word
  /-- `D_COUNT`, the remaining count. -/
  count : Word
  /-- `D_CTRL`. -/
  ctrl : Word
deriving DecidableEq, Repr

/-- The four registers of the channel, named (R210). `DmaReg.atAddress` says where each stands. -/
inductive DmaReg where
  | readAddr
  | writeAddr
  | transCount
  | ctrlTrig
deriving DecidableEq, Repr

/-- The size of a bus access (R76). -/
inductive Width where
  | byte
  | half
  | word
deriving DecidableEq, Repr

/-- Who reads the aperture: R89 distinguishes the host from the transfer channel. -/
inductive Master where
  | host
  | dma
deriving DecidableEq, Repr

/-- One access of HOST's program (R7). An access names an offset in the 16 KiB aperture, so HOST has no move that
programs the transfer channel or writes `OUT_TXF_ADDR` (R273, U20). -/
inductive HostAct where
  | read (off : BitVec 14) (w : Width)
  | write (off : BitVec 14) (w : Width) (v : Word)
  /-- `host: poll CMD_BUSY = 0` (R269). -/
  | poll
deriving DecidableEq, Repr

/-- The bytes of the engine's RAMs that have been written, by bus address: addresses strictly rising. A byte that is
not listed holds an unspecified value, `Config.ramAtReset` (R44, R45, R53, log entry 1). -/
abbrev Memory := List Host.Cell

/-- The whole machine: the engine (R32 to R48), the external agents' state the model holds (R50 to R52), the
parameters (R9), and the model's own bookkeeping of inputs and draws. -/
structure State where
  /-- The launch's parameters (R9, log entry 4). -/
  params : Params
  /-- `STATUS` (R34, R47, R48). -/
  status : Status
  /-- `RESULT` (R35). -/
  result : Word
  /-- `CHUNK_LEN` (R36). -/
  chunkLen : BitVec 16
  /-- `NVOICES` (R37). -/
  nvoices : BitVec 4
  /-- `KEYS_LAST` (R38). -/
  keysLast : BitVec 8
  /-- `MIX_LAST` (R39). -/
  mixLast : Code
  /-- `INC[0..7]` (R41). -/
  inc : Vector (BitVec 16) 8
  /-- `PHASE[0..7]` (R42). -/
  phase : Vector (BitVec 16) 8
  /-- The chunk RAM and the buffer RAM (R44, R45). -/
  mem : Memory
  /-- `SEQ_CMD` (R46). -/
  seqCmd : Word
  /-- `SEQ_PHASE` (R46). -/
  seqPhase : SeqPhase
  /-- `SEQ_COUNT` (R46). -/
  seqCount : BitVec 11
  /-- `D_READ_ADDR`, `D_WRITE_ADDR`, `D_COUNT`, `D_CTRL` (R50). -/
  dma : Dma
  /-- `OUTQ`, head first (R51). -/
  outq : List Word
  /-- `DACOUT`, oldest first (R52). -/
  dacOut : List Code
  /-- Whether the output channel is active (R223, R268). -/
  outActive : Bool
  /-- MODEL'S OWN. A fill wrote the buffer that a transfer from before a reset is still reading (R262, log entry 9). -/
  fillRaced : Bool
  /-- MODEL'S OWN. RESULT as it was when the running command started (log entry 11). -/
  resultBefore : Word
  /-- MODEL'S OWN. The number of engine resets (log entry 1). -/
  resets : Nat
  /-- MODEL'S OWN. The number of steps, the argument of the draws (log entry 6). -/
  clock : Nat
  /-- MODEL'S OWN. The agents already chosen to move next (log entry 6). -/
  turns : List Agent
  /-- MODEL'S OWN. The accesses HOST will make, in program order (log entry 7). -/
  hostScript : List HostAct
  /-- MODEL'S OWN. What HOST's reads returned, oldest first (log entry 7). -/
  hostSeen : List Word
  /-- MODEL'S OWN. Key levels already fixed for the coming ticks (log entry 8). -/
  keysNext : List (BitVec 8)
deriving DecidableEq, Repr

/-- Why the machine stops with a fault. -/
inductive Fault where
  /-- Raised by a meaning, and by the sequencer for an illegal word, when `SEQ_PHASE` is a phase the running command does
  not have (R46, R110). No run reaches it: the invariant of Safety.lean rules it out. Safe: the model stops where the spec
  says nothing. -/
  | noSuchPhase
deriving DecidableEq, Repr

/-- Why the model has no meaning for a step. -/
inductive Refusal where
  /-- An instruction with no meaning yet, by its mnemonic. Raised by no arm of this model. Safe. -/
  | notModelled (mnemonic : String)
  /-- Raised by `step` when the launch's parameters are outside R9's ranges or the control word lacks the flags of R211:
  the model has no meaning for the launch (R255, U7, U8). Safe. -/
  | launchNotAdmitted
deriving DecidableEq, Repr

/-- The machine right after reset, launched with parameters `p`: the reset values of R53, and the launch premises of R264
for the external agents. The values the spec does not give are named in log entries 2 and 3. -/
def State.launch (p : Params) : State where
  params := p
  status := Status.reset
  result := 0
  chunkLen := 0
  nvoices := 0
  keysLast := 0
  mixLast := 0
  inc := Vector.replicate 8 0
  phase := Vector.replicate 8 0
  mem := []
  seqCmd := 0
  seqPhase := .idle
  seqCount := 0
  dma := ⟨0, 0, 0, 0⟩
  outq := []
  dacOut := []
  outActive := true
  fillRaced := false
  resultBefore := 0
  resets := 0
  clock := 0
  turns := []
  hostScript := []
  hostSeen := []
  keysNext := []

/-- The machine right after reset, with the parameters of the reference launch (log entry 4). -/
def State.reset : State := State.launch referenceParams

end Sys2Proof.Machine
end

