-- ==== Sys2Proof/Machine/Ops.lean ====
section
/-! DEFINITION. The named operations over memory, registers, the sequencer and the output queue; raising an error, the
engine's one exception mechanism, as one shared operation (spec/60_exceptions.md R241); the engine's reset
(spec/70_reset_and_hazards.md R260). -/

namespace Sys2Proof.Machine

/-! ### Memory -/

/-- The byte listed at an address; none where nothing has been written. -/
def Memory.lookup : Memory → Nat → Option Byte
  | [], _ => none
  | (k, v) :: m, a => if k = a then some v else Memory.lookup m a

/-- Writes one byte, keeping the addresses strictly rising. -/
def Memory.write : Memory → Nat → Byte → Memory
  | [], a, v => [(a, v)]
  | (k, w) :: m, a, v =>
    if a < k then (a, v) :: (k, w) :: m
    else if a = k then (a, v) :: m
    else (k, w) :: Memory.write m a v

/-- Writes a 32-bit word, least significant byte first (R12, R74). -/
def Memory.writeWord (m : Memory) (a : Nat) (w : Word) : Memory :=
  Memory.write (Memory.write (Memory.write (Memory.write m a (wordByte w 0)) (a + 1) (wordByte w 1))
    (a + 2) (wordByte w 2)) (a + 3) (wordByte w 3)

/-- The canonical form: addresses strictly rising. An entry is a known byte and an unlisted address an unspecified one, so
no entry repeats what an unlisted address reads as (log entry 1). -/
abbrev Memory.wf (m : Memory) : Prop := m.Pairwise (fun c d => c.1 < d.1)

/-- The byte the RAM holds at a bus address: the byte listed, or the unspecified reset contents (R44, R45, R53). -/
def State.ramByte (s : State) (a : Nat) : Byte :=
  (Memory.lookup s.mem a).getD (Config.ramAtReset s.resets a)

/-- The 32-bit word the RAM holds at a bus address, little-endian (R74). -/
def State.ramWord (s : State) (a : Nat) : Word :=
  wordOfBytes (s.ramByte a) (s.ramByte (a + 1)) (s.ramByte (a + 2)) (s.ramByte (a + 3))

/-! ### The sequencer -/

/-- Sets one error bit (R240). -/
def Status.setError (st : Status) : ErrorBit → Status
  | .illegal => { st with errIllegal := true }
  | .arg => { st with errArg := true }
  | .seq => { st with errSeq := true }
  | .overrun => { st with errOverrun := true }

/-- `raise Error(E)`: sets the bit and ends the command; nothing else changes (R241). The engine has no other
exception entry, and no return from one (R247). -/
def State.raise (s : State) (e : ErrorBit) : State :=
  { s with status := { s.status.setError e with cmdBusy := false }, seqPhase := .idle }

/-- `end command`: CMD_BUSY and SEQ_PHASE fall to 0 in the step of the last phase (R21, R110). -/
def State.endCommand (s : State) : State :=
  { s with status := { s.status with cmdBusy := false }, seqPhase := .idle }

/-- Leaves phase `p` to run next (R21, R46). -/
def State.toPhase (s : State) (p : SeqPhase) : State := { s with seqPhase := p }

/-- The host's CMD write of `w` while no command runs: the word is taken whole (R33, R87), and RESULT is kept as the old
value a read may still return (log entry 11). -/
def State.startCommand (s : State) (w : Word) : State :=
  { s with seqCmd := w, seqPhase := .one, status := { s.status with cmdBusy := true }, resultBefore := s.result }

/-- A host write made while CMD_BUSY = 1: dropped, and ERR_OVERRUN is set (R243). -/
def State.overrun (s : State) : State := { s with status := s.status.setError .overrun }

/-- Writes RESULT (R35, R111). -/
def State.setResult (s : State) (w : Word) : State := { s with result := w }

/-! ### The output queue and the transfer channel's registers -/

/-- `OutPush(c)`: appends the code, zero-extended, to OUTQ (R224), and writes no register of the channel, also where
`OUT_TXF_ADDR` is the address of one (DESIGN CHOICE, log entry 25). -/
def State.outPush (s : State) (c : Code) : State := { s with outq := s.outq ++ [c.setWidth 32] }

/-- The offset of a register from `DMA_CH_BASE` (R50, R210). -/
def DmaReg.offset : DmaReg → Word
  | .readAddr => 0x0
  | .writeAddr => 0x4
  | .transCount => 0x8
  | .ctrlTrig => 0xC

/-- The register of the channel at bus address `a`, the channel's base being `base`; none where none stands (R50, R210). With a
base above 0xFFFFFFF0 an exact address would lie past the bus space: the model takes it modulo 2^32 (DESIGN CHOICE, log entry
24). -/
def DmaReg.atAddress (base a : Word) : Option DmaReg :=
  [DmaReg.readAddr, .writeAddr, .transCount, .ctrlTrig].find? fun r => a == base + r.offset

/-- A register of the channel, read (R210). -/
def Dma.read (d : Dma) : DmaReg → Word
  | .readAddr => d.readAddr
  | .writeAddr => d.writeAddr
  | .transCount => d.count
  | .ctrlTrig => d.ctrl

/-- A register of the channel, written. The write to CTRL_TRIG arms and starts the transfer the other three describe, which is
then busy while D_COUNT > 0 (R210, R219). -/
def Dma.write (d : Dma) (r : DmaReg) (v : Word) : Dma :=
  match r with
  | .readAddr => { d with readAddr := v }
  | .writeAddr => { d with writeAddr := v }
  | .transCount => { d with count := v }
  | .ctrlTrig => { d with ctrl := v }

/-- `DmaWrite(off, v)`: a 32-bit write at `DMA_CH_BASE + off`, which reaches the register that stands there (R12), and nothing
else, also where `OUT_TXF_ADDR` is that address (DESIGN CHOICE, log entry 25). -/
def Dma.portWrite (d : Dma) (base off v : Word) : Dma :=
  match DmaReg.atAddress base (base + off) with
  | some r => d.write r v
  | none => d

/-- `DmaRead(off)`: a 32-bit read at `DMA_CH_BASE + off`; none where no register stands (R12). -/
def Dma.portRead (d : Dma) (base off : Word) : Option Word := (DmaReg.atAddress base (base + off)).map d.read

/-! ### Reset -/

/-- The engine's reset: every piece of engine state takes its value of R53, a running command is abandoned, the RAMs hold
unspecified bytes, and the external agents' state is untouched (R260, R261). -/
def State.engineReset (s : State) : State :=
  { s with
    status := Status.reset
    result := 0
    chunkLen := 0
    nvoices := 0
    keysLast := 0
    mixLast := 0
    inc := Vector.replicate 8 0
    phase := Vector.replicate 8 0
    mem := []
    seqCmd := 0
    seqPhase := .idle
    seqCount := 0
    resultBefore := 0
    resets := s.resets + 1 }

/-! ### Whose turn it is -/

/-- The agent that moves next: the first turn fixed, or a free value (R22, log entry 6). -/
def State.nextAgent (s : State) : Agent :=
  match s.turns with
  | a :: _ => a
  | [] => Config.freeTurn s.clock

/-- Takes the turn: the clock advances and a fixed turn is used up. -/
def State.takeTurn (s : State) : State := { s with turns := s.turns.tail, clock := s.clock + 1 }

end Sys2Proof.Machine
end

