-- ==== Sys2Proof/Machine/Flags.lean ====
section
/-! DEFINITION. STATUS as the host sees it (spec/10_state.md R34): the word it reads and the bits a write clears (R244). -/

namespace Sys2Proof.Machine

/-- The STREAM_STATE field (R34). -/
def StreamState.bits : StreamState → BitVec 2
  | .idle => 0
  | .active => 1
  | .done => 2

/-- The 32-bit STATUS word (R34). Bits 1, 7 and 31:12 read 0. -/
def Status.toWord (st : Status) : Word :=
  (0 : BitVec 20) ++ BitVec.ofBool st.errOverrun ++ BitVec.ofBool st.errSeq ++ BitVec.ofBool st.errArg ++
    BitVec.ofBool st.errIllegal ++ (0 : BitVec 1) ++ st.drainBuf ++ BitVec.ofBool st.drainValid ++ st.curBuf ++
    st.streamState.bits ++ (0 : BitVec 1) ++ BitVec.ofBool st.cmdBusy

/-- The bit number of an error in STATUS, its code (R240). -/
def ErrorBit.code : ErrorBit → Nat
  | .illegal => 8
  | .arg => 9
  | .seq => 10
  | .overrun => 11

/-- A host write of `w` to STATUS clears each error bit i for which w[i] = 1, and nothing else (R34, R244). -/
def Status.clearErrors (st : Status) (w : Word) : Status :=
  { st with
    errIllegal := st.errIllegal && !w.getLsbD ErrorBit.illegal.code
    errArg := st.errArg && !w.getLsbD ErrorBit.arg.code
    errSeq := st.errSeq && !w.getLsbD ErrorBit.seq.code
    errOverrun := st.errOverrun && !w.getLsbD ErrorBit.overrun.code }

/-- Whether any error bit is set (R264 clause 5). -/
def Status.anyError (st : Status) : Bool := st.errIllegal || st.errArg || st.errSeq || st.errOverrun

end Sys2Proof.Machine
end

