-- ==== Sys2Proof/Machine/Operands.lean ====
section
/-! DEFINITION. What the commands read beside their operands: the addresses of the RAMs (spec/20_memory.md R72, R73), the
chunk, the conditions the phases hold on (spec/30_encoding.md R110) and the key draw (R151). -/

namespace Sys2Proof

/-- The bus address of `CHUNK[i]` (R72). -/
def Params.chunkAddr (p : Params) (i : Nat) : Nat := p.blockBase.toNat + 0x1000 + i

/-- The bus address of `BUF[b][k]` (R73). -/
def Params.bufWordAddr (p : Params) (b : BufId) (k : Nat) : Nat :=
  p.blockBase.toNat + 0x2000 + 4 * p.bufWords * b.toNat + 4 * k

/-- `BUF_ADDR(b)`, the address a submit programs (R73, R213). -/
def Params.bufAddr (p : Params) (b : BufId) : Word :=
  p.blockBase + BitVec.ofNat 32 (0x2000 + 4 * p.bufWords * b.toNat)

/-- Whether a bus address is a byte of the chunk RAM or of the buffer RAM (R72, R73). -/
def Params.inRam (p : Params) (a : Nat) : Prop :=
  (p.chunkAddr 0 ≤ a ∧ a < p.chunkAddr (2 * p.bufWords)) ∨
    (p.bufWordAddr 0 0 ≤ a ∧ a < p.bufWordAddr 0 (2 * p.bufWords))

end Sys2Proof

namespace Sys2Proof.Machine

/-- `CHUNK[i]` (R44). -/
def State.chunkByte (s : State) (i : Nat) : Byte := s.ramByte (s.params.chunkAddr i)

/-- `BUF[b][k]` (R45). -/
def State.bufWord (s : State) (b : BufId) (k : Nat) : Word := s.ramWord (s.params.bufWordAddr b k)

/-- The argument check of FILL and SSTEP fails: `CHUNK_LEN > 2 × BUF_WORDS` (R183, R240). -/
abbrev State.ChunkTooLong (s : State) : Prop := s.chunkLen.toNat > 2 * s.params.bufWords

/-- The channel is idle: `D_COUNT` = 0 (R15, R84). -/
abbrev State.ChannelIdle (s : State) : Prop := s.dma.count = 0

/-- OUTQ is not full (R51, R110). -/
abbrev State.OutqRoom (s : State) : Prop := s.outq.length < s.params.outFifoDepth

/-- The hold of PUSH, TICK and SSTEP's last phase ends: the channel is idle and OUTQ has room (R110). -/
abbrev State.CanPush (s : State) : Prop := s.ChannelIdle ∧ s.OutqRoom

/-- The engine's record says that the most recent submit was of buffer `b` (R48). -/
abbrev State.Tracks (s : State) (b : BufId) : Prop := s.status.drainValid = true ∧ s.status.drainBuf = b

/-- Buffer `b` is being drained (R181): the hold of FILL and of SSTEP's fill (R183, R186). -/
abbrev State.Draining (s : State) (b : BufId) : Prop := s.Tracks b ∧ s.dma.count ≠ 0

/-- The key levels a TICK samples: the levels already fixed, or a free value (R8, R151, log entry 8). -/
def State.keyDraw (s : State) : BitVec 8 :=
  match s.keysNext with
  | k :: _ => k
  | [] => Config.keyLevels s.clock

/-- The channel's next read is in buffer `b`. -/
abbrev State.DmaReads (s : State) (b : BufId) : Prop :=
  (s.dma.readAddr - s.params.bufAddr b).toNat < 4 * s.params.bufWords

/-- The buffer that the running FILL or SSTEP fills, if a command is running that has a fill phase (R89). A command that
phase 1 will end with an error has none. -/
def State.fillTarget (s : State) : Option BufId :=
  match s.seqPhase, decodeWord s.seqCmd with
  | .one, .ok (.fill b) => if s.ChunkTooLong then none else some b
  | .two, .ok (.fill b) => some b
  | .one, .ok .sstep =>
    if s.status.streamState = .active ∧ ¬ s.ChunkTooLong then some s.status.curBuf else none
  | .two, .ok .sstep => some s.status.curBuf
  | .three, .ok .sstep => some s.status.curBuf
  | .four, .ok .sstep => some (s.status.curBuf ^^^ 1)
  | _, _ => none

end Sys2Proof.Machine
end

