-- ==== Sys2Proof/Machine/Bus.lean ====
section
/-! DEFINITION. The aperture as a bus master sees it (spec/10_state.md R32 to R49, spec/20_memory.md R70 to R78, R89),
and the steps of HOST. -/

namespace Sys2Proof.Machine

/-- The number of bytes of an access (R76). -/
def Width.bytes : Width → Nat
  | .byte => 1
  | .half => 2
  | .word => 4

/-- An offset is a multiple of the access's size (R76). -/
abbrev aligned (off : Nat) (w : Width) : Prop := off % w.bytes = 0

/-- A read of RESULT: the register. While a command runs it is the old value or the new one: the value from before the
command, or the latest written, as a free value says (R35, R81, R275, U15, log entry 11). Until the command writes RESULT the
two are one value. -/
def State.resultRead (s : State) : Word :=
  if s.status.cmdBusy = true ∧ Config.readsOldResult s.clock = true then s.resultBefore else s.result

/-- A 32-bit read of the register aperture, 0x000 to 0xFFF (R32, R49, R71). -/
def State.regRead (s : State) (off : Nat) : Word :=
  if h : 0x040 ≤ off ∧ off < 0x060 then (s.inc[(off - 0x040) / 4]'(by omega)).setWidth 32
  else if h : 0x060 ≤ off ∧ off < 0x080 then (s.phase[(off - 0x060) / 4]'(by omega)).setWidth 32
  else
    match off with
    | 0x004 => s.status.toWord
    | 0x008 => s.resultRead
    | 0x00C => s.chunkLen.setWidth 32
    | 0x010 => s.nvoices.setWidth 32
    | 0x014 => s.keysLast.setWidth 32
    | 0x018 => s.mixLast.setWidth 32
    | 0x01C => BitVec.ofNat 32 s.params.bufWords
    | _ => 0

/-- A byte of the chunk window: 0 past the chunk RAM (R72). -/
def State.chunkWindow (s : State) (i : Nat) : Byte := if i < 2 * s.params.bufWords then s.chunkByte i else 0

/-- A read of the chunk window, zero-extended (R72, R75). -/
def State.chunkRead (s : State) (i : Nat) : Width → Word
  | .byte => wordOfBytes (s.chunkWindow i) 0 0 0
  | .half => wordOfBytes (s.chunkWindow i) (s.chunkWindow (i + 1)) 0 0
  | .word => wordOfBytes (s.chunkWindow i) (s.chunkWindow (i + 1)) (s.chunkWindow (i + 2)) (s.chunkWindow (i + 3))

/-- A read of buffer `b` returns any value: for the host, while a command whose fill phase writes `b` runs (R89); for the
channel, where no hold keeps its transfer and the fill apart, while such a command runs or after its fill (R89, R262, U5,
U17, log entry 9). -/
def State.bufOpen (s : State) (b : BufId) : Master → Bool
  | .host => decide (s.fillTarget = some b)
  | .dma => decide (¬ s.Tracks b ∧ (s.fillTarget = some b ∨ s.fillRaced = true))

/-- The buffer that word `j` of the buffer window lies in (R73). -/
def State.windowBuf (s : State) (j : Nat) : BufId := if j < s.params.bufWords then 0 else 1

/-- A read of word `j` of the buffer window: 0 past the two buffers (R73). -/
def State.windowRead (s : State) (m : Master) (j : Nat) : Word :=
  if j < 2 * s.params.bufWords then
    if s.bufOpen (s.windowBuf j) m then Config.anyWord s.clock else s.bufWord 0 j
  else 0

/-- A read of the aperture; none where R76 does not allow its width or alignment: the access has no step. -/
def State.apertureRead (s : State) (m : Master) (off : BitVec 14) (w : Width) : Option Word :=
  let o := off.toNat
  if aligned o w then
    if o < 0x1000 then if w = .word then some (s.regRead o) else none
    else if o < 0x2000 then some (s.chunkRead (o - 0x1000) w)
    else if w = .word then some (s.windowRead m ((o - 0x2000) / 4)) else none
  else none

/-- The RAM after the first `n` bytes of `v` are written at chunk offset `i`; bytes past the chunk RAM are ignored
(R72, R75, R90). -/
def State.chunkStore (s : State) (i : Nat) (v : Word) : Nat → Memory
  | 0 => s.mem
  | n + 1 =>
    if i + n < 2 * s.params.bufWords then
      Memory.write (s.chunkStore i v n) (s.params.chunkAddr (i + n)) (wordByte v n)
    else s.chunkStore i v n

/-- A host write of the register aperture. Only CMD, STATUS and CHUNK_LEN can be written (R32, R33, R34, R36, R49). -/
def State.regWrite (s : State) (off : Nat) (v : Word) : State :=
  match off with
  | 0x000 => if s.status.cmdBusy then s.overrun else s.startCommand v
  | 0x004 => { s with status := s.status.clearErrors v }
  | 0x00C => if s.status.cmdBusy then s.overrun else { s with chunkLen := v.setWidth 16 }
  | _ => s

/-- A host write of the chunk window: ignored past the chunk RAM, dropped with ERR_OVERRUN while a command runs
(R72, R243). -/
def State.chunkWrite (s : State) (i : Nat) (w : Width) (v : Word) : State :=
  if i < 2 * s.params.bufWords then
    if s.status.cmdBusy then s.overrun else { s with mem := s.chunkStore i v w.bytes }
  else s

/-- A host write of the aperture; none where R76 does not allow its width or alignment. An aligned 32-bit write to the
buffer window is ignored (R73, log entry 14). -/
def State.apertureWrite (s : State) (off : BitVec 14) (w : Width) (v : Word) : Option State :=
  let o := off.toNat
  if aligned o w then
    if o < 0x1000 then if w = .word then some (s.regWrite o v) else none
    else if o < 0x2000 then some (s.chunkWrite (o - 0x1000) w v)
    else if w = .word then some s else none
  else none

/-- One step of HOST: the next access of its script. A poll waits for CMD_BUSY = 0 (R269), and an access that R76 does not
allow has no step, so HOST stays at it (R76, R255). -/
def State.hostTurn (s : State) : State :=
  match s.hostScript with
  | [] => s
  | .read off w :: rest =>
    match s.apertureRead .host off w with
    | some d => { s with hostScript := rest, hostSeen := s.hostSeen ++ [d] }
    | none => s
  | .write off w v :: rest =>
    match s.apertureWrite off w v with
    | some t => { t with hostScript := rest }
    | none => s
  | .poll :: rest => if s.status.cmdBusy then s else { s with hostScript := rest }

end Sys2Proof.Machine
end

