-- ==== Sys2Proof/Machine/Channel.lean ====
section
/-! DEFINITION. The steps of the external agents DMA and OUT, by the contracts the engine relies on
(spec/43_transfer.md R220 to R223). -/

namespace Sys2Proof.Machine

/-- The word the channel reads at `D_READ_ADDR`: the aperture's word; none where R76 does not allow the access, so the
channel has no step; any value outside the aperture, of which the spec says nothing (R220, log entry 10). -/
def State.dmaFetch (s : State) : Option Word :=
  let rel := s.dma.readAddr - s.params.blockBase
  if rel.toNat < 0x4000 then s.apertureRead .dma (rel.setWidth 14) .word
  else some (Config.anyWord s.clock)

/-- One step of DMA, enabled while `D_COUNT` > 0 and OUTQ has room: one word to OUTQ, the source address advances and the
count falls, all at once (R220). Otherwise the channel takes no step (R221). R220 adds 4 exactly, and after the last word of the
bus space the sum is no value of the 32-bit register: the model takes it modulo 2^32 (DESIGN CHOICE, log entry 23). -/
def State.dmaTurn (s : State) : State :=
  if s.dma.count ≠ 0 ∧ s.OutqRoom then
    match s.dmaFetch with
    | some w =>
      { s with
        outq := s.outq ++ [w]
        dma := { s.dma with readAddr := s.dma.readAddr + 4, count := s.dma.count - 1 } }
    | none => s
  else s

/-- One step of OUT: while the channel is active and OUTQ is not empty, the head word's bits [9:0] go to the DAC
(R223). -/
def State.outTurn (s : State) : State :=
  match s.outActive, s.outq with
  | true, w :: rest => { s with outq := rest, dacOut := s.dacOut ++ [w.setWidth 10] }
  | _, _ => s

end Sys2Proof.Machine
end

