-- ==== Sys2Proof/Machine/Codec.lean ====
section
/-! DEFINITION. The Sample codec (spec/40_codec.md). -/

namespace Sys2Proof.Machine

/-- The codec's intermediate value, an exact natural number in 0..1024 (R130, R131). -/
def codecSum (lo hi : Byte) : Nat :=
  (lo.toNat <<< codecLshift) + ((hi.toNat + codecBias) >>> codecRshift)

/-- `codec(lo, hi)`: the formula of R130, reproduced exactly. -/
def codec (lo hi : Byte) : Code :=
  let v := codecSum lo hi
  if v < codecMid then BitVec.ofNat 10 (v + codecMid) else BitVec.ofNat 10 (v - codecMid)

/-- `CODEC` (R136): one phase, with no hold. -/
def execCodec (hi lo : Byte) (s : State) : Host.Outcome State Fault Refusal :=
  match s.seqPhase with
  | .one => .next (s.setResult ((codec lo hi).setWidth 32)).endCommand
  | _ => .fault .noSuchPhase

end Sys2Proof.Machine
end

