-- ==== Sys2Proof/Machine/Transfer.lean ====
section
/-! DEFINITION. The transfer sequencer and the output port (spec/43_transfer.md): the submit sequence and the commands
START, BUSY, WAIT, PUSH and NOP. -/

namespace Sys2Proof.Machine

/-- `submit(b, n)`: the four writes in order, CTRL_TRIG last, and the record of the drained buffer (R212). A new transfer
has raced no fill (log entry 9). -/
def State.submit (s : State) (b : BufId) (n : Word) : State :=
  { s with
    dma :=
      let base := s.params.dmaChBase
      let d := s.dma.portWrite base 0x0 (s.params.bufAddr b)
      let d := d.portWrite base 0x4 s.params.outTxfAddr
      let d := d.portWrite base 0x8 n
      d.portWrite base 0xC s.params.dmaCtrlWord
    fillRaced := false
    status := { s.status with drainValid := true, drainBuf := b } }

/-- `START b, n` (R214). -/
def execStart (b : BufId) (n : BitVec 16) (s : State) : Host.Outcome State Fault Refusal :=
  match s.seqPhase with
  | .one =>
    if n.toNat > s.params.bufWords then .next (s.raise .arg)
    else if n = 0 then .next s.endCommand
    else .next (s.toPhase .two)
  | .two => if s.ChannelIdle then .next (s.submit b (n.setWidth 32)).endCommand else .next s
  | _ => .fault .noSuchPhase

/-- `BUSY` (R215): a snapshot of `D_COUNT` > 0, read from the channel as `DmaRead(0x8)`. -/
def execBusy (s : State) : Host.Outcome State Fault Refusal :=
  match s.seqPhase with
  | .one => .next (s.setResult (if s.dma.portRead s.params.dmaChBase 0x8 = some 0 then 0 else 1)).endCommand
  | _ => .fault .noSuchPhase

/-- `WAIT` (R216). -/
def execWait (s : State) : Host.Outcome State Fault Refusal :=
  match s.seqPhase with
  | .one => .next (s.toPhase .two)
  | .two => if s.ChannelIdle then .next s.endCommand else .next s
  | _ => .fault .noSuchPhase

/-- `PUSH c` (R217). -/
def execPush (c : Code) (s : State) : Host.Outcome State Fault Refusal :=
  match s.seqPhase with
  | .one => .next (s.toPhase .two)
  | .two => if s.CanPush then .next (s.outPush c).endCommand else .next s
  | _ => .fault .noSuchPhase

/-- `NOP` (R218). -/
def execNop (s : State) : Host.Outcome State Fault Refusal :=
  match s.seqPhase with
  | .one => .next s.endCommand
  | _ => .fault .noSuchPhase

end Sys2Proof.Machine
end

