-- ==== Sys2Proof/Machine/Buffer.lean ====
section
/-! DEFINITION. The double-buffer controller (spec/42_buffer.md): the fill function, FILL, SBEGIN and SSTEP. -/

namespace Sys2Proof.Machine

/-- The code of sample `k` of the chunk (R182, R189). -/
def State.sampleCode (s : State) (k : Nat) : Code := codec (s.chunkByte (2 * k)) (s.chunkByte (2 * k + 1))

/-- The full samples of the chunk: `CHUNK_LEN >> 1` (R182). -/
def State.fillCount (s : State) : Nat := s.chunkLen.toNat >>> 1

/-- The RAM after the first `n` words of buffer `b` are filled, in increasing order (R182). -/
def State.fillWords (s : State) (b : BufId) : Nat → Memory
  | 0 => s.mem
  | k + 1 => Memory.writeWord (s.fillWords b k) (s.params.bufWordAddr b k) ((s.sampleCode k).setWidth 32)

/-- `fill(b)`, one atomic write (R182). Where the channel is reading `b` for a transfer the engine's record does not
name, the rest of that transfer's words are any value (R262, U17, log entry 9). -/
def State.fill (s : State) (b : BufId) : State :=
  { s with
    mem := s.fillWords b s.fillCount
    fillRaced := s.fillRaced || decide (s.dma.count ≠ 0 ∧ ¬ s.Tracks b ∧ s.DmaReads b) }

/-- `FILL b` (R183). -/
def execFill (b : BufId) (s : State) : Host.Outcome State Fault Refusal :=
  match s.seqPhase with
  | .one => if s.ChunkTooLong then .next (s.raise .arg) else .next (s.toPhase .two)
  | .two =>
    if s.Draining b then .next s
    else .next ((s.fill b).setResult (BitVec.ofNat 32 s.fillCount)).endCommand
  | _ => .fault .noSuchPhase

/-- `SBEGIN` (R185). -/
def execSbegin (s : State) : Host.Outcome State Fault Refusal :=
  match s.seqPhase with
  | .one => .next { s with status := { s.status with streamState := .active, curBuf := 0 } }.endCommand
  | _ => .fault .noSuchPhase

/-- SSTEP's third phase, its hold over: submit if there are samples, then swap and report the count (R186). -/
def State.submitAndSwap (s : State) : State :=
  let t := if s.seqCount = 0 then s else s.submit s.status.curBuf (s.seqCount.setWidth 32)
  { t with
    status := { t.status with curBuf := t.status.curBuf ^^^ 1 }
    result := s.seqCount.setWidth 32 }

/-- SSTEP's fourth phase, its hold over: restore the idle code and end the stream (R186, R187). -/
def State.endStream (s : State) : State :=
  let t := s.outPush idleCode
  { t with status := { t.status with streamState := .done } }.endCommand

/-- `SSTEP` (R186): checks; fill; submit and swap; on a short count, the terminal drain. -/
def execSstep (s : State) : Host.Outcome State Fault Refusal :=
  match s.seqPhase with
  | .one =>
    if s.status.streamState ≠ .active then .next (s.raise .seq)
    else if s.ChunkTooLong then .next (s.raise .arg)
    else .next (s.toPhase .two)
  | .two =>
    if s.Draining s.status.curBuf then .next s
    else .next ({ s.fill s.status.curBuf with seqCount := BitVec.ofNat 11 s.fillCount }.toPhase .three)
  | .three =>
    if s.seqCount = 0 ∨ s.ChannelIdle then
      if s.seqCount.toNat = s.params.bufWords then .next s.submitAndSwap.endCommand
      else .next (s.submitAndSwap.toPhase .four)
    else .next s
  | .four => if s.CanPush then .next s.endStream else .next s
  | .idle => .fault .noSuchPhase

end Sys2Proof.Machine
end

