-- ==== Sys2Proof/Machine/Oscillator.lean ====
section
/-! DEFINITION. The oscillator bank (spec/41_oscillator.md): voice activity, phase advance, lookup and mixer, and the
commands TICK, SETNV, SETINC and SETPH. -/

namespace Sys2Proof.Machine

/-- Voice `v` is active on a tick that sampled `keys` (R151). -/
abbrev State.VoiceActive (s : State) (keys : BitVec 8) (v : Fin 8) : Prop :=
  v.val < s.nvoices.toNat ∧ keys.getLsbD v.val = true

/-- Voice `v`'s phase after the tick: an active voice advances modulo 65536, an inactive one stays (R152). -/
def State.tickPhase (s : State) (keys : BitVec 8) (v : Fin 8) : BitVec 16 :=
  if s.VoiceActive keys v then s.phase[v] + s.inc[v] else s.phase[v]

/-- The table index of a phase: `phase >> 7`, nine bits (R153). -/
def romIndex (ph : BitVec 16) : BitVec 9 := (ph >>> romIndexShift).setWidth 9

/-- The table entry at an index (R43, R154). -/
def State.romEntry (s : State) (i : BitVec 9) : Code :=
  s.params.waveRom.entries[i.toNat]'(by rw [s.params.waveRom.size]; exact i.isLt)

/-- What voice `v` adds to the sum: its entry at the phase AFTER the advance, or 0 if it is inactive (R153, R156). -/
def State.voiceLevel (s : State) (keys : BitVec 8) (v : Fin 8) : Nat :=
  if s.VoiceActive keys v then (s.romEntry (romIndex (s.tickPhase keys v))).toNat else 0

/-- The mixer's sum, exact (R156). -/
def State.mixSum (s : State) (keys : BitVec 8) : Nat := ((List.finRange 8).map (s.voiceLevel keys)).sum

/-- The mixed code: the sum shifted right by 3 (R156). -/
def State.mixCode (s : State) (keys : BitVec 8) : Code := BitVec.ofNat 10 (s.mixSum keys >>> mixShift)

/-- TICK's second phase on sampled levels `keys`, its hold over (R157). -/
def State.tick (s : State) (keys : BitVec 8) : State :=
  let code := s.mixCode keys
  ({ s with
    phase := Vector.ofFn (s.tickPhase keys)
    keysLast := keys
    mixLast := code
    result := code.setWidth 32
    keysNext := s.keysNext.tail }.outPush code).endCommand

/-- `TICK` (R157): holds until the channel is idle and OUTQ has room, then samples, advances, mixes and pushes. -/
def execTick (s : State) : Host.Outcome State Fault Refusal :=
  match s.seqPhase with
  | .one => .next (s.toPhase .two)
  | .two => if s.CanPush then .next (s.tick s.keyDraw) else .next s
  | _ => .fault .noSuchPhase

/-- `SETNV nv` (R158). -/
def execSetnv (nv : BitVec 4) (s : State) : Host.Outcome State Fault Refusal :=
  match s.seqPhase with
  | .one => if nv.toNat > maxVoices then .next (s.raise .arg) else .next { s with nvoices := nv }.endCommand
  | _ => .fault .noSuchPhase

/-- `SETINC v, inc` (R159). -/
def execSetinc (v : BitVec 3) (inc : BitVec 16) (s : State) : Host.Outcome State Fault Refusal :=
  match s.seqPhase with
  | .one => .next { s with inc := s.inc.set v.toNat inc v.isLt }.endCommand
  | _ => .fault .noSuchPhase

/-- `SETPH v, ph` (R160). -/
def execSetph (v : BitVec 3) (ph : BitVec 16) (s : State) : Host.Outcome State Fault Refusal :=
  match s.seqPhase with
  | .one => .next { s with phase := s.phase.set v.toNat ph v.isLt }.endCommand
  | _ => .fault .noSuchPhase

end Sys2Proof.Machine
end

