-- ==== Sys2Proof/Machine/Dispatch.lean ====
section
/-! DEFINITION. One arm per command: the phase of the command that SEQ runs next, or its hold (spec/00_scope.md R6, R21). -/

namespace Sys2Proof.Machine

/-- One step of SEQ for command `i`: the phase `SEQ_PHASE` names, or the state unchanged while that phase holds. -/
def exec (i : Instr) (s : State) : Host.Outcome State Fault Refusal :=
  match i with
  | .nop => Sys2Proof.Machine.execNop s
  | .codec hi lo => Sys2Proof.Machine.execCodec hi lo s
  | .fill b => Sys2Proof.Machine.execFill b s
  | .start b n => Sys2Proof.Machine.execStart b n s
  | .busy => Sys2Proof.Machine.execBusy s
  | .wait => Sys2Proof.Machine.execWait s
  | .push c => Sys2Proof.Machine.execPush c s
  | .tick => Sys2Proof.Machine.execTick s
  | .setinc v inc => Sys2Proof.Machine.execSetinc v inc s
  | .setph v ph => Sys2Proof.Machine.execSetph v ph s
  | .setnv nv => Sys2Proof.Machine.execSetnv nv s
  | .sbegin => Sys2Proof.Machine.execSbegin s
  | .sstep => Sys2Proof.Machine.execSstep s

end Sys2Proof.Machine
end

