-- ==== Sys2Proof/Machine/Sequencer.lean ====
section
/-! DEFINITION. One step of SEQ: the legality check of every command's first phase, then the command's phase
(spec/30_encoding.md R104, R110). -/

namespace Sys2Proof.Machine

/-- One step of SEQ. With no command running it takes no step. An illegal word raises ERR_ILLEGAL in phase 1, its only
phase (R104, R240, R241). -/
def seqTurn (s : State) : Host.Outcome State Fault Refusal :=
  match s.seqPhase, decodeWord s.seqCmd with
  | .idle, _ => .next s
  | _, .ok i => exec i s
  | .one, .error _ => .next (s.raise .illegal)
  | _, .error _ => .fault .noSuchPhase

end Sys2Proof.Machine
end

