-- ==== Sys2Proof/Machine/Step.lean ====
section
/-! DEFINITION. One atomic step of the machine: one agent moves (spec/00_scope.md R7, R21, spec/20_memory.md R81). -/

namespace Sys2Proof.Machine

/-- One atomic step. The agent whose turn it is moves; every agent's step is total. A launch the model does not admit has
no meaning (R255). -/
def step (s : State) : Host.Outcome State Fault Refusal :=
  if s.params.admitted then
    match s.nextAgent with
    | .host => .next s.takeTurn.hostTurn
    | .seq => seqTurn s.takeTurn
    | .dma => .next s.takeTurn.dmaTurn
    | .out => .next s.takeTurn.outTurn
    | .platform => .next s.takeTurn.engineReset
  else .refused .launchNotAdmitted

/-- The state in which the host has just written the command word to CMD and SEQ moves next: how a program comes to run
(R33, log entry 13). -/
def State.withFetchWord (s : State) (nbits w : Nat) : State :=
  { s.startCommand (BitVec.ofNat 32 (w % 2 ^ nbits)) with turns := .seq :: s.turns }

end Sys2Proof.Machine
end

