-- ==== Sys2Proof/Machine/HostProc.lean ====
section
/-! DEFINITION. The host's procedures as scripts of accesses (spec/70_reset_and_hazards.md R265 to R267, R269;
spec/42_buffer.md R190), and the increments it computes (spec/41_oscillator.md R161). Reconfiguring the output
channel has no step in the model (R270, U21). -/

namespace Sys2Proof.Machine

/-- The integer nearest to `x`, a half to the even one (R161, D31). -/
def roundHalfEven (x : Rat) : Int :=
  let q := x.floor
  let rem := x - q
  if rem < 1 / 2 then q
  else if 1 / 2 < rem then q + 1
  else if q % 2 = 0 then q
  else q + 1

/-- The increment the host computes for a frequency `f` at sample rate `r`: `round(65536 × f / r)` (R161). R161 names no domain
for the two: the model takes the rational numbers, so a host that computes with any other real number has no value here, and
the quotient is 0 where `r` is 0 (DESIGN CHOICE, log entry 26). A value of 65536 or more cannot be encoded in SETINC (R108). -/
def hostIncrement (f r : Rat) : Int := roundHalfEven (65536 * f / r)

/-- The host issues a command and waits for it to end (R269). -/
def issue (i : Instr) : List HostAct := [.write 0x000 .word (encode i), .poll]

/-- The engine's part of the boot order: `IDLE` (R265 step 3). -/
def bootScript : List HostAct := issue (.push idleCode)

/-- The host writes bytes to the chunk RAM from offset `i` (R190). -/
def writeChunk : Nat → List Byte → List HostAct
  | _, [] => []
  | i, b :: bs => .write (BitVec.ofNat 14 (0x1000 + i)) .byte (b.setWidth 32) :: writeChunk (i + 1) bs

/-- One round of the player: the chunk, its length, SSTEP, and a look at STATUS (R190, R266). -/
def playerRound (chunk : List Byte) : List HostAct :=
  writeChunk 0 chunk ++ [.write 0x00C .word (BitVec.ofNat 32 chunk.length)] ++ issue .sstep ++ [.read 0x004 .word]

/-- The rounds of the player: full chunks, then one shorter chunk, possibly empty, which ends the stream (R190, R266).
`fuel` bounds the rounds. -/
def playerRounds (bufWords : Nat) : Nat → List Byte → List HostAct
  | 0, _ => []
  | fuel + 1, bytes =>
    playerRound (bytes.take (2 * bufWords)) ++
      if bytes.length < 2 * bufWords then [] else playerRounds bufWords fuel (bytes.drop (2 * bufWords))

/-- The player procedure on the data bytes of a file (R266). -/
def playerScript (bufWords : Nat) (bytes : List Byte) : List HostAct :=
  issue .sbegin ++ playerRounds bufWords (bytes.length + 1) bytes

/-- Sets the increment and the phase of the voices from `v` on (R267). -/
def synthVoices : Nat → List (BitVec 16) → List HostAct
  | _, [] => []
  | v, x :: xs => issue (.setinc (BitVec.ofNat 3 v) x) ++ issue (.setph (BitVec.ofNat 3 v) 0) ++ synthVoices (v + 1) xs

/-- The synth procedure for at most eight increments, with `ticks` rounds of its loop (R267). -/
def synthScript (incs : List (BitVec 16)) (ticks : Nat) : List HostAct :=
  issue (.setnv (BitVec.ofNat 4 incs.length)) ++ synthVoices 0 incs ++ (List.replicate ticks (issue .tick)).flatten

end Sys2Proof.Machine
end

