-- ==== Sys2Proof/Safety.lean ====
section
/-! DEFINITION. What counts as a clean launch, a finished run and what it shows, a fair run and a legal state, in
the terms the claims use (spec/70_reset_and_hazards.md R264, R278, R279; spec/42_buffer.md R181, R188). -/

namespace Sys2Proof.Machine

/-- The shared launch premise `CleanLaunch` (R264, clauses 1 to 6). Clause 7 holds of every state: HOST has no move that
programs the channel (R273). -/
structure State.CleanLaunch (s : State) : Prop where
  status : s.status = Status.reset
  result : s.result = 0
  chunkLen : s.chunkLen = 0
  nvoices : s.nvoices = 0
  keysLast : s.keysLast = 0
  mixLast : s.mixLast = 0
  inc : s.inc = Vector.replicate 8 0
  phase : s.phase = Vector.replicate 8 0
  seqPhase : s.seqPhase = .idle
  idle : s.dma.count = 0
  outq : s.outq = []
  dacOut : s.dacOut = []
  outActive : s.outActive = true
  params : s.params.admitted = true

/-- A host access that issues a command: a write of CMD (R33). -/
def HostAct.isCommand : HostAct → Bool
  | .write off _ _ => off == 0x000
  | .read _ _ | .poll => false

/-- What a state shows of the end of a run (R279): HOST has issued its last command, nothing runs, nothing is in flight and OUTQ
is empty. Other accesses may be left. -/
structure State.AtRest (s : State) : Prop where
  issued : ∀ a ∈ s.hostScript, a.isCommand = false
  notBusy : s.status.cmdBusy = false
  seqPhase : s.seqPhase = .idle
  idle : s.dma.count = 0
  outq : s.outq = []

/-- What phase 1 of the running command has checked still holds in its later phases (R183, R186, R214). -/
def State.ArgsChecked (s : State) : Prop :=
  match s.seqPhase, decodeWord s.seqCmd with
  | .two, .ok (.fill _) => ¬ s.ChunkTooLong
  | .two, .ok (.start _ n) => n ≠ 0 ∧ n.toNat ≤ s.params.bufWords
  | .two, .ok .sstep => s.status.streamState = .active ∧ ¬ s.ChunkTooLong
  | .three, .ok .sstep => s.status.streamState = .active ∧ s.seqCount.toNat ≤ s.params.bufWords
  | .four, .ok .sstep => s.status.streamState = .active ∧ s.seqCount.toNat < s.params.bufWords
  | _, _ => True

/-- The condition of the hold that a phase of a command has is true (R12, R110). A phase with no hold is never held. -/
def State.HoldOverOf (s : State) (i : Instr) : SeqPhase → Prop
  | .idle | .one => True
  | .two =>
    match i with
    | .wait | .start _ _ => s.ChannelIdle
    | .push _ | .tick => s.CanPush
    | .fill b => ¬ s.Draining b
    | .sstep => ¬ s.Draining s.status.curBuf
    | .nop | .codec _ _ | .busy | .setinc _ _ | .setph _ _ | .setnv _ | .sbegin => True
  | .three => i = .sstep → s.seqCount = 0 ∨ s.ChannelIdle
  | .four => i = .sstep → s.CanPush

/-- The condition of the hold of the phase that runs next is true. -/
def State.HoldOver (s : State) : Prop := ∀ i, decodeWord s.seqCmd = .ok i → s.HoldOverOf i s.seqPhase

/-- The state after `n` steps. A step that stops leaves the last state in place. -/
def State.nth (s : State) : Nat → State
  | 0 => s
  | n + 1 =>
    match step (s.nth n) with
    | .next t => t
    | .fault _ => s.nth n
    | .refused _ => s.nth n

/-- The run from `s` is weakly fair to an agent: one that stays enabled from some step on moves at or after that step. -/
def State.FairTo (s : State) (a : Agent) (enabled : State → Prop) : Prop :=
  ∀ n, (∀ m, n ≤ m → enabled (s.nth m)) → ∃ m, n ≤ m ∧ (s.nth m).nextAgent = a

/-- The weak fairness of R278, clauses (a) to (c), of the run from `s`. It is a premise: no run is fair by the model's
doing (log entry 6). -/
structure State.WeaklyFair (s : State) : Prop where
  /-- (a) OUT steps while its channel is active and OUTQ is not empty. -/
  out : s.FairTo .out fun t => t.outActive = true ∧ t.outq ≠ []
  /-- (b) DMA steps while its step is enabled (R220). -/
  dma : s.FairTo .dma fun t => t.dma.count ≠ 0 ∧ t.OutqRoom
  /-- (c) SEQ steps while a command runs whose next phase is not held. -/
  seq : s.FairTo .seq fun t => t.seqPhase ≠ .idle ∧ t.HoldOver

/-- In the next step HOST observes CMD_BUSY = 0: its poll ends, or it reads a STATUS whose bit 0 is 0 (R34, R269). -/
def State.SeesNotBusy (s : State) : Prop :=
  s.nextAgent = .host ∧ s.status.cmdBusy = false ∧
    ∃ rest, s.hostScript = .poll :: rest ∨ s.hostScript = .read 0x004 .word :: rest

/-- The run from the launch `s` is over after `n` steps (R279): its state then is at rest, and in an earlier step, when no
command was left to issue, HOST has observed CMD_BUSY = 0. The launch's `hostScript` is the finite list of what HOST does. -/
structure State.Over (s : State) (n : Nat) : Prop where
  launch : s.CleanLaunch
  rest : (s.nth n).AtRest
  seen : ∃ k, k < n ∧ (∀ a ∈ (s.nth k).hostScript, a.isCommand = false) ∧ (s.nth k).SeesNotBusy

/-- What a run shows at its end (R279), and nothing else of it. -/
structure Observation where
  dacOut : List Code
  status : Word
  result : Word
  inc : Vector (BitVec 16) 8
  phase : Vector (BitVec 16) 8
  nvoices : BitVec 4
  keysLast : BitVec 8
  mixLast : Code
  chunkLen : BitVec 16
  /-- The words of each buffer, in order. -/
  buffers : List Word × List Word
deriving DecidableEq, Repr

/-- The observation of a state, made at the end of a run (R279). -/
def State.observation (s : State) : Observation where
  dacOut := s.dacOut
  status := s.status.toWord
  result := s.result
  inc := s.inc
  phase := s.phase
  nvoices := s.nvoices
  keysLast := s.keysLast
  mixLast := s.mixLast
  chunkLen := s.chunkLen
  buffers := ((List.range s.params.bufWords).map (s.bufWord 0), (List.range s.params.bufWords).map (s.bufWord 1))

/-- A transfer in flight reads at a word-aligned address and, when the engine's record names its buffer, the words it has
still to read lie in that buffer (R181, R188, R212, R220). -/
def State.DrainInBuffer (s : State) : Prop :=
  s.dma.count ≠ 0 →
    s.dma.readAddr.toNat % 4 = 0 ∧
    (s.status.drainValid = true →
      (s.dma.readAddr - s.params.bufAddr s.status.drainBuf).toNat + 4 * s.dma.count.toNat ≤ 4 * s.params.bufWords)

/-- The model's invariant: what every step of an admitted launch keeps. -/
structure State.Inv (s : State) : Prop where
  /-- The RAM is in canonical form. -/
  memCanonical : Memory.wf s.mem
  /-- Only the chunk RAM and the buffer RAM hold bytes (R72, R73). -/
  memInRam : ∀ c ∈ s.mem, s.params.inRam c.1
  /-- CMD_BUSY = 1 exactly while a command runs (R21, R46). -/
  busy : s.status.cmdBusy = true ↔ s.seqPhase ≠ .idle
  /-- A later phase is a phase of the running command (R110). -/
  phaseLegal : s.seqPhase = .idle ∨ s.seqPhase = .one ∨
    ∃ i, decodeWord s.seqCmd = .ok i ∧ s.seqPhase.num ≤ i.phases
  /-- NVOICES is legal (R37). -/
  voices : s.nvoices.toNat ≤ maxVoices
  /-- OUTQ never overflows (R51). -/
  queueBound : s.outq.length ≤ s.params.outFifoDepth
  /-- Arguments stay checked. -/
  checked : s.ArgsChecked
  /-- A recorded transfer stays in its buffer. -/
  drain : s.DrainInBuffer
  /-- Until the running command writes RESULT, the value from before it is the register's: only SSTEP's last phase comes after
  its write of RESULT (R110, R111, log entry 11). -/
  resultKept : s.seqPhase = .idle ∨ s.seqPhase = .four ∨ s.resultBefore = s.result

/-- Every transfer in flight is one the engine's record names: true from a launch with nothing in flight until a reset
(the premise of R188). -/
def State.OwnTransfers (s : State) : Prop := s.dma.count ≠ 0 → s.status.drainValid = true

end Sys2Proof.Machine
end

