-- ==== Sys2Proof/Certificates/Slice0/Obligations.lean ====
section
/-! DEFINITION. The statements for the provers: what the commands, the agents and the whole machine do, from the numbered
rules of spec/. Each docstring names the rules it formalises. -/

open Sys2Proof Sys2Proof.Machine

/-! ### Encoding -/

/-- R101, R102, R104: the word of a command decodes to that command, with every operand at every value. -/
def Obligations.DecodeOfEncode : Prop := ∀ i : Instr, decodeWord (encode i) = .ok i

/-- R101, R104: a legal word is the word of the command it decodes to, so no bit of it is dropped. -/
def Obligations.EncodeOfDecode : Prop := ∀ (w : Word) (i : Instr), decodeWord w = .ok i → encode i = w

/-- R105: OP 0xD to 0xF is illegal, and a word of OP 0x0 to 0xC is legal exactly when its fixed bits are those of its row
in R104's table. -/
def Obligations.ReservedEncodingsAreIllegal : Prop :=
  (∀ w : Word, 0xD ≤ (w.extractLsb' 0 4).toNat → decodeWord w = .error .reservedOp) ∧
  ∀ r ∈ ([(0x0, 0xFFFFFFFF, 0x00000000), (0x1, 0x0000FFFF, 0x00000001), (0x2, 0xFFFFFFEF, 0x00000002),
      (0x3, 0x0000FFEF, 0x00000003), (0x4, 0xFFFFFFFF, 0x00000004), (0x5, 0xFFFFFFFF, 0x00000005),
      (0x6, 0xFC00FFFF, 0x00000006), (0x7, 0xFFFFFFFF, 0x00000007), (0x8, 0x0000FF8F, 0x00000008),
      (0x9, 0x0000FF8F, 0x00000009), (0xA, 0xFFF0FFFF, 0x0000000A), (0xB, 0xFFFFFFFF, 0x0000000B),
      (0xC, 0xFFFFFFFF, 0x0000000C)] : List (BitVec 4 × Word × Word)),
    ∀ w : Word, w.extractLsb' 0 4 = r.1 →
      ((w &&& r.2.1 = r.2.2 → ∃ i, decodeWord w = .ok i) ∧
        (w &&& r.2.1 ≠ r.2.2 → decodeWord w = .error .fixedBits))

/-- 95_test_vectors.md, table E: words written out from the encodings decode to the commands they stand for. -/
def Obligations.ListedWordsDecode : Prop :=
  decodeWord 0x12340001 = .ok (.codec 0x12 0x34) ∧ decodeWord 0x00000012 = .ok (.fill 1) ∧
  decodeWord 0x00040013 = .ok (.start 1 4) ∧ decodeWord 0x03FF0006 = .ok (.push 1023) ∧
  decodeWord 0x0A8F0018 = .ok (.setinc 1 2703) ∧ decodeWord 0x0002000A = .ok (.setnv 2) ∧
  decodeWord 0x0000000C = .ok .sstep ∧ decodeWord 0x04000006 = .error .fixedBits

/-- R108, R109: each line's operand range and the words it encodes, as the two tables write them; a line outside its range
produces no word. The words decode to the commands the line stands for. That each byte of CODECB lies in 0 to 255 is the
model's reading (log entry 12). -/
def Obligations.AssemblerProducesItsCommands : Prop :=
  (AsmLine.nop.assemble = some [0x00000000] ∧ AsmLine.busy.assemble = some [0x00000004] ∧
    AsmLine.wait.assemble = some [0x00000005] ∧ AsmLine.tick.assemble = some [0x00000007] ∧
    AsmLine.sbegin.assemble = some [0x0000000B] ∧ AsmLine.sstep.assemble = some [0x0000000C]) ∧
  (∀ imm, (AsmLine.codec imm).assemble = if imm ≤ 0xFFFF then some [BitVec.ofNat 32 (imm <<< 16 ||| 0x1)] else none) ∧
  (∀ b, (AsmLine.fill b).assemble = if b ≤ 1 then some [BitVec.ofNat 32 (b <<< 4 ||| 0x2)] else none) ∧
  (∀ b n, (AsmLine.start b n).assemble =
    if b ≤ 1 ∧ n ≤ 0xFFFF then some [BitVec.ofNat 32 (n <<< 16 ||| b <<< 4 ||| 0x3)] else none) ∧
  (∀ c, (AsmLine.push c).assemble = if c ≤ 1023 then some [BitVec.ofNat 32 (c <<< 16 ||| 0x6)] else none) ∧
  (∀ v inc, (AsmLine.setinc v inc).assemble =
    if v ≤ 7 ∧ inc ≤ 0xFFFF then some [BitVec.ofNat 32 (inc <<< 16 ||| v <<< 4 ||| 0x8)] else none) ∧
  (∀ v ph, (AsmLine.setph v ph).assemble =
    if v ≤ 7 ∧ ph ≤ 0xFFFF then some [BitVec.ofNat 32 (ph <<< 16 ||| v <<< 4 ||| 0x9)] else none) ∧
  (∀ nv, (AsmLine.setnv nv).assemble = if nv ≤ 15 then some [BitVec.ofNat 32 (nv <<< 16 ||| 0xA)] else none) ∧
  AsmLine.idle.assemble = some [0x02000006] ∧
  (∀ lo hi, (AsmLine.codecb lo hi).assemble =
    if lo ≤ 0xFF ∧ hi ≤ 0xFF then (AsmLine.codec (hi <<< 8 ||| lo)).assemble else none) ∧
  (∀ v inc, (AsmLine.voice v inc).assemble =
    if v ≤ 7 ∧ inc ≤ 0xFFFF then
      some [BitVec.ofNat 32 (inc <<< 16 ||| v <<< 4 ||| 0x8), BitVec.ofNat 32 (v <<< 4 ||| 0x9)]
    else none) ∧
  AsmLine.drain.assemble = some [0x00000005, 0x02000006] ∧
  ∀ (l : AsmLine) (ws : List Word), l.assemble = some ws → ws.map decodeWord = l.commands.map .ok

/-! ### The step -/

/-- R21, R104: when it is SEQ's turn and a command's word decodes to `i`, the step is `exec i`, after the turn is taken. -/
def Obligations.StepRunsTheDecodedCommand : Prop :=
  ∀ (s : State) (i : Instr), s.params.admitted = true → s.nextAgent = .seq → s.seqPhase ≠ .idle →
    decodeWord s.seqCmd = .ok i → step s = exec i s.takeTurn

/-- R33, R87: after a word is placed as by the host's CMD write, the next step runs exactly that word's command. That SEQ moves
next is the model's convention (log entry 13), and `resultBefore` its own record of RESULT (log entry 11). -/
def Obligations.PlacedWordIsTheNextToRun : Prop :=
  ∀ (s : State) (w : Word) (i : Instr), s.params.admitted = true → decodeWord w = .ok i →
    step (s.withFetchWord 32 w.toNat) =
      exec i { s with
        seqCmd := w, seqPhase := .one, status := { s.status with cmdBusy := true }, resultBefore := s.result
        clock := s.clock + 1 }

/-- R7, R81, R260: on the turn of any agent but SEQ the step is that agent's own step, and with no command running SEQ's turn
changes nothing but the turn. That the platform's reset is one more agent of the schedule is the model's choice (log entry
18). -/
def Obligations.StepOfEachOtherAgent : Prop :=
  ∀ s : State, s.params.admitted = true →
    (s.nextAgent = .host → step s = .next s.takeTurn.hostTurn) ∧
    (s.nextAgent = .dma → step s = .next s.takeTurn.dmaTurn) ∧
    (s.nextAgent = .out → step s = .next s.takeTurn.outTurn) ∧
    (s.nextAgent = .platform → step s = .next s.takeTurn.engineReset) ∧
    (s.nextAgent = .seq → s.seqPhase = .idle → step s = .next s.takeTurn)

/-- R255, R211, R9: a launch with a parameter out of range, or with a control word that has not the bits of R211's table, has
no meaning. That CHAIN_TO and TREQ_SEL name the model's parameters is log entry 5, and that RING_SEL, SNIFF_EN, BUSY and bits
31:25 must be 0 is log entry 21. -/
def Obligations.BadLaunchIsRefused : Prop :=
  ∀ s : State, (s.params.bufWords = 0 ∨ 1024 < s.params.bufWords ∨ s.params.outFifoDepth = 0 ∨
      s.params.blockBase.toNat % 0x4000 ≠ 0 ∨ s.params.dmaChBase.toNat % 4 ≠ 0 ∨ s.params.outTxfAddr.toNat % 4 ≠ 0 ∨
      s.params.dmaCtrlWord.getLsbD 0 = false ∨ s.params.dmaCtrlWord.getLsbD 1 = false ∨
      s.params.dmaCtrlWord.extractLsb' 2 2 ≠ 2 ∨ s.params.dmaCtrlWord.getLsbD 4 = false ∨
      s.params.dmaCtrlWord.getLsbD 5 = true ∨ s.params.dmaCtrlWord.extractLsb' 6 4 ≠ 0 ∨
      s.params.dmaCtrlWord.getLsbD 10 = true ∨ s.params.dmaCtrlWord.extractLsb' 11 4 ≠ s.params.dmaChannel ∨
      s.params.dmaCtrlWord.extractLsb' 15 6 ≠ s.params.outDreq ∨ s.params.dmaCtrlWord.getLsbD 21 = false ∨
      s.params.dmaCtrlWord.extractLsb' 22 10 ≠ 0) →
    step s = .refused .launchNotAdmitted

/-! ### Errors -/

/-- R104, R241: an illegal word raises ERR_ILLEGAL in phase 1: the bit is set, the command ends, nothing else changes. -/
def Obligations.IllegalWordRaisesErrIllegal : Prop :=
  ∀ (s : State) (e : Illegal), s.params.admitted = true → s.nextAgent = .seq → s.seqPhase = .one →
    decodeWord s.seqCmd = .error e →
    step s = .next { s.takeTurn with
      status := { s.status with errIllegal := true, cmdBusy := false }, seqPhase := .idle }

/-- R240, R241, R242: the argument and sequence errors of START, SETNV, FILL and SSTEP, with ERR_SEQ before ERR_ARG;
nothing changes but the bit, CMD_BUSY and SEQ_PHASE. -/
def Obligations.ArgumentAndSequenceErrors : Prop :=
  ∀ s : State, s.seqPhase = .one →
    (∀ (b : BufId) (n : BitVec 16), n.toNat > s.params.bufWords →
      exec (.start b n) s = .next { s with
        status := { s.status with errArg := true, cmdBusy := false }, seqPhase := .idle }) ∧
    (∀ nv : BitVec 4, nv.toNat > 8 →
      exec (.setnv nv) s = .next { s with
        status := { s.status with errArg := true, cmdBusy := false }, seqPhase := .idle }) ∧
    (∀ b : BufId, s.chunkLen.toNat > 2 * s.params.bufWords →
      exec (.fill b) s = .next { s with
        status := { s.status with errArg := true, cmdBusy := false }, seqPhase := .idle }) ∧
    (s.status.streamState ≠ .active →
      exec .sstep s = .next { s with
        status := { s.status with errSeq := true, cmdBusy := false }, seqPhase := .idle }) ∧
    (s.status.streamState = .active → s.chunkLen.toNat > 2 * s.params.bufWords →
      exec .sstep s = .next { s with
        status := { s.status with errArg := true, cmdBusy := false }, seqPhase := .idle })

/-- R110: the first phase of a command with a hold passes its checks and leaves the second phase to run. -/
def Obligations.ChecksPassToPhaseTwo : Prop :=
  ∀ s : State, s.seqPhase = .one →
    exec .wait s = .next { s with seqPhase := .two } ∧
    (∀ c, exec (.push c) s = .next { s with seqPhase := .two }) ∧
    exec .tick s = .next { s with seqPhase := .two } ∧
    (∀ (b : BufId) (n : BitVec 16), n ≠ 0 → n.toNat ≤ s.params.bufWords →
      exec (.start b n) s = .next { s with seqPhase := .two }) ∧
    (∀ b, s.chunkLen.toNat ≤ 2 * s.params.bufWords → exec (.fill b) s = .next { s with seqPhase := .two }) ∧
    (s.status.streamState = .active → s.chunkLen.toNat ≤ 2 * s.params.bufWords →
      exec .sstep s = .next { s with seqPhase := .two })

/-- R12, R110, R254: while the condition of its hold is false, a phase leaves the whole state as it is. -/
def Obligations.HoldsLeaveTheStateAlone : Prop :=
  ∀ s : State,
    (s.seqPhase = .two → s.dma.count ≠ 0 → exec .wait s = .next s) ∧
    (∀ (b : BufId) (n : BitVec 16), s.seqPhase = .two → s.dma.count ≠ 0 → exec (.start b n) s = .next s) ∧
    (∀ c, s.seqPhase = .two → (s.dma.count ≠ 0 ∨ s.params.outFifoDepth ≤ s.outq.length) →
      exec (.push c) s = .next s) ∧
    (s.seqPhase = .two → (s.dma.count ≠ 0 ∨ s.params.outFifoDepth ≤ s.outq.length) → exec .tick s = .next s) ∧
    (∀ b : BufId, s.seqPhase = .two → s.status.drainValid = true → s.status.drainBuf = b → s.dma.count ≠ 0 →
      exec (.fill b) s = .next s) ∧
    (s.seqPhase = .two → s.status.drainValid = true → s.status.drainBuf = s.status.curBuf → s.dma.count ≠ 0 →
      exec .sstep s = .next s) ∧
    (s.seqPhase = .three → s.seqCount ≠ 0 → s.dma.count ≠ 0 → exec .sstep s = .next s) ∧
    (s.seqPhase = .four → (s.dma.count ≠ 0 ∨ s.params.outFifoDepth ≤ s.outq.length) → exec .sstep s = .next s)

/-! ### Sample codec -/

/-- R132: the codec is `(v + 512) & 0x3FF`, and for v ≤ 1023 it is v with bit 9 inverted, on all 65536 inputs. -/
def Obligations.CodecClosedForm : Prop :=
  ∀ lo hi : Byte, ∀ v : Nat, v = 4 * lo.toNat + (hi.toNat + 32) / 64 →
    v ≤ 1024 ∧ (codec lo hi).toNat = (v + 512) % 1024 ∧
      (v ≤ 1023 → codec lo hi = BitVec.ofNat 10 v ^^^ 0x200#10)

/-- R133: every code has an input pair, and the code 512 comes from exactly the pairs with lo = 0 and hi < 32 and those
with lo = 255 and hi ≥ 224, 64 in all. -/
def Obligations.CodecRangeAndPreimages : Prop :=
  (∀ lo hi : Byte, (codec lo hi).toNat ≤ 1023) ∧
  (∀ c : Code, ∃ lo hi : Byte, codec lo hi = c) ∧
  (∀ lo hi : Byte, codec lo hi = 512 ↔ (lo.toNat = 0 ∧ hi.toNat < 32) ∨ (lo.toNat = 255 ∧ 224 ≤ hi.toNat)) ∧
  ((List.range 65536).filter fun n =>
      (n / 256 = 0 ∧ n % 256 < 32) ∨ (n / 256 = 255 ∧ 224 ≤ n % 256)).length = 64

/-- R136, R130: CODEC writes the code of its two bytes to RESULT and ends; nothing else changes. -/
def Obligations.CodecWritesTheCode : Prop :=
  ∀ (s : State) (hi lo : Byte), s.seqPhase = .one →
    ∃ c : Code, c.toNat = (if 4 * lo.toNat + (hi.toNat + 32) / 64 < 512 then 4 * lo.toNat + (hi.toNat + 32) / 64 + 512
        else 4 * lo.toNat + (hi.toNat + 32) / 64 - 512) ∧
      exec (.codec hi lo) s = .next { s with
        result := c.setWidth 32, status := { s.status with cmdBusy := false }, seqPhase := .idle }

/-! ### Oscillator bank -/

/-- R151, R152, R153, R156, R157: with its hold over, TICK samples the keys, advances each active voice and no other, adds the
entries at the advanced phases, pushes the sum divided by 8, and reports it; nothing else changes but the model's list of key
levels already fixed (log entry 8). -/
def Obligations.TickAdvancesMixesAndPushes : Prop :=
  ∀ s : State, s.seqPhase = .two → s.dma.count = 0 → s.outq.length < s.params.outFifoDepth →
    ∃ t : State, exec .tick s = .next t ∧
      (∀ v : Fin 8, t.phase[v] =
        if v.val < s.nvoices.toNat ∧ s.keyDraw.getLsbD v.val = true then s.phase[v] + s.inc[v] else s.phase[v]) ∧
      t.mixLast.toNat =
        (∑ v : Fin 8, if v.val < s.nvoices.toNat ∧ s.keyDraw.getLsbD v.val = true then
          (s.romEntry ((t.phase[v]).extractLsb' 7 9)).toNat else 0) / 8 ∧
      t = { s with
        phase := t.phase, keysLast := s.keyDraw, mixLast := t.mixLast, result := t.mixLast.setWidth 32,
        outq := s.outq ++ [t.mixLast.setWidth 32], keysNext := s.keysNext.tail,
        status := { s.status with cmdBusy := false }, seqPhase := .idle }

/-- R276: a tick with no active voice pushes the code 0, not mid-scale, and moves no phase. -/
def Obligations.SilentTickPushesZero : Prop :=
  ∀ s : State, s.seqPhase = .two → s.dma.count = 0 → s.outq.length < s.params.outFifoDepth →
    (∀ v : Fin 8, v.val < s.nvoices.toNat → s.keyDraw.getLsbD v.val = false) →
    ∃ t : State, exec .tick s = .next t ∧ t.outq = s.outq ++ [0] ∧ t.mixLast = 0 ∧ t.result = 0 ∧ t.phase = s.phase

/-- R156: the sum is at most 8184, so the code is the sum divided by 8 exactly and needs no clipping. -/
def Obligations.MixerNeverClips : Prop :=
  ∀ (s : State) (keys : BitVec 8), s.mixSum keys ≤ 8184 ∧ (s.mixCode keys).toNat = s.mixSum keys / 8

/-- R162: under repeated ticks with fixed keys, an active voice's phase is back where it was after exactly the multiples
of `65536 / gcd(65536, inc)` ticks. -/
def Obligations.PhasePeriod : Prop :=
  ∀ (s : State) (keys : BitVec 8) (v : Fin 8) (n : Nat),
    v.val < s.nvoices.toNat → keys.getLsbD v.val = true →
    (((fun u : State => u.tick keys)^[n] s).phase[v] = s.phase[v] ↔
      65536 / Nat.gcd 65536 (s.inc[v]).toNat ∣ n)

/-- R158, R159, R160: SETINC, SETPH and SETNV write their one register, for every voice 0 to 7 and every legal count, and
end; nothing else changes. -/
def Obligations.VoiceCommandsWriteTheirRegister : Prop :=
  ∀ s : State, s.seqPhase = .one →
    (∀ (v : BitVec 3) (x : BitVec 16), ∃ t : State, exec (.setinc v x) s = .next t ∧
      (∀ u : Fin 8, t.inc[u] = if u.val = v.toNat then x else s.inc[u]) ∧
      t = { s with inc := t.inc, status := { s.status with cmdBusy := false }, seqPhase := .idle }) ∧
    (∀ (v : BitVec 3) (x : BitVec 16), ∃ t : State, exec (.setph v x) s = .next t ∧
      (∀ u : Fin 8, t.phase[u] = if u.val = v.toNat then x else s.phase[u]) ∧
      t = { s with phase := t.phase, status := { s.status with cmdBusy := false }, seqPhase := .idle }) ∧
    (∀ nv : BitVec 4, nv.toNat ≤ 8 →
      exec (.setnv nv) s = .next { s with
        nvoices := nv, status := { s.status with cmdBusy := false }, seqPhase := .idle })

/-! ### Double-buffer controller -/

/-- R182, R183: with its hold over, FILL b writes the codec's code of each full sample to buffer b in order and the count
to RESULT; the words past the count, the other buffer and the chunk keep every byte; nothing else changes. -/
def Obligations.FillWritesTheChunk : Prop :=
  ∀ (s : State) (b : BufId), s.params.admitted = true → s.seqPhase = .two →
    ¬ (s.status.drainValid = true ∧ s.status.drainBuf = b ∧ s.dma.count ≠ 0) →
    s.chunkLen.toNat ≤ 2 * s.params.bufWords →
    ∃ t : State, exec (.fill b) s = .next t ∧
      (∀ k, k < s.chunkLen.toNat / 2 →
        t.bufWord b k = (codec (s.chunkByte (2 * k)) (s.chunkByte (2 * k + 1))).setWidth 32) ∧
      (∀ a, (a < s.params.bufWordAddr b 0 ∨ s.params.bufWordAddr b (s.chunkLen.toNat / 2) ≤ a) →
        t.ramByte a = s.ramByte a) ∧
      t = { s with
        mem := t.mem, fillRaced := t.fillRaced, result := BitVec.ofNat 32 (s.chunkLen.toNat / 2),
        status := { s.status with cmdBusy := false }, seqPhase := .idle }

/-- R185: SBEGIN makes the stream ACTIVE at buffer 0 and ends, from every stream state; nothing else changes. -/
def Obligations.SbeginStartsAStream : Prop :=
  ∀ s : State, s.seqPhase = .one →
    exec .sbegin s = .next { s with
      status := { s.status with streamState := .active, curBuf := 0, cmdBusy := false }, seqPhase := .idle }

/-- R186 phase 2, R182: with its hold over, SSTEP fills buffer CUR_BUF as FILL does, keeps the count and goes on to phase
3; nothing else changes. -/
def Obligations.SstepFills : Prop :=
  ∀ s : State, s.params.admitted = true → s.seqPhase = .two →
    ¬ (s.status.drainValid = true ∧ s.status.drainBuf = s.status.curBuf ∧ s.dma.count ≠ 0) →
    s.chunkLen.toNat ≤ 2 * s.params.bufWords →
    ∃ t : State, exec .sstep s = .next t ∧
      (∀ k, k < s.chunkLen.toNat / 2 →
        t.bufWord s.status.curBuf k = (codec (s.chunkByte (2 * k)) (s.chunkByte (2 * k + 1))).setWidth 32) ∧
      (∀ a, (a < s.params.bufWordAddr s.status.curBuf 0 ∨
          s.params.bufWordAddr s.status.curBuf (s.chunkLen.toNat / 2) ≤ a) → t.ramByte a = s.ramByte a) ∧
      t.seqCount.toNat = s.chunkLen.toNat / 2 ∧
      t = { s with mem := t.mem, fillRaced := t.fillRaced, seqCount := t.seqCount, seqPhase := .three }

/-- R186 phase 3, R212: with its hold over, SSTEP submits the counted words of CUR_BUF if there are any, toggles CUR_BUF,
writes the count to RESULT, and ends exactly when the buffer was full; nothing else changes but the model's record of a racing
fill, which a submit clears (log entry 9). -/
def Obligations.SstepSubmitsAndSwaps : Prop :=
  ∀ s : State, s.seqPhase = .three → (s.seqCount = 0 ∨ s.dma.count = 0) →
    ∃ t : State, exec .sstep s = .next t ∧
      t.status.curBuf = s.status.curBuf ^^^ 1 ∧ t.result = s.seqCount.setWidth 32 ∧
      (s.seqCount = 0 → t.dma = s.dma ∧ t.status.drainValid = s.status.drainValid ∧
        t.status.drainBuf = s.status.drainBuf ∧ t.fillRaced = s.fillRaced) ∧
      (s.seqCount ≠ 0 → t.dma.readAddr = s.params.bufAddr s.status.curBuf ∧ t.dma.writeAddr = s.params.outTxfAddr ∧
        t.dma.count.toNat = s.seqCount.toNat ∧ t.dma.ctrl = s.params.dmaCtrlWord ∧
        t.status.drainValid = true ∧ t.status.drainBuf = s.status.curBuf ∧ t.fillRaced = false) ∧
      (s.seqCount.toNat = s.params.bufWords → t.status.cmdBusy = false ∧ t.seqPhase = .idle) ∧
      (s.seqCount.toNat ≠ s.params.bufWords → t.status.cmdBusy = s.status.cmdBusy ∧ t.seqPhase = .four) ∧
      t = { s with
        result := t.result, dma := t.dma, fillRaced := t.fillRaced, seqPhase := t.seqPhase,
        status := { s.status with
          curBuf := t.status.curBuf, drainValid := t.status.drainValid, drainBuf := t.status.drainBuf,
          cmdBusy := t.status.cmdBusy } }

/-- R186 phase 4, R187: with its hold over, SSTEP pushes the idle code, makes the stream DONE and ends; nothing else
changes. -/
def Obligations.SstepEndsTheStream : Prop :=
  ∀ s : State, s.seqPhase = .four → s.dma.count = 0 → s.outq.length < s.params.outFifoDepth →
    exec .sstep s = .next { s with
      outq := s.outq ++ [512], status := { s.status with streamState := .done, cmdBusy := false }, seqPhase := .idle }

/-! ### Transfer sequencer and output port -/

/-- R212, R214, R210: with the channel idle, START b n programs the source, the destination, the count and the control word,
records the buffer and ends; nothing else changes but the model's record of a racing fill (log entry 9). The four registers
stand at offsets 0x0, 0x4, 0x8 and 0xC from the channel's base, wherever that is, and a read at 0x8 returns the remaining
count. That this holds of a base whose offsets run past the bus space, and of one that shares an address with the queue's
port, is the model's choice (log entries 24 and 25). -/
def Obligations.StartSubmits : Prop :=
  (∀ (s : State) (b : BufId) (n : BitVec 16), s.seqPhase = .two → s.dma.count = 0 →
    exec (.start b n) s = .next { s with
      dma := ⟨s.params.bufAddr b, s.params.outTxfAddr, n.setWidth 32, s.params.dmaCtrlWord⟩
      fillRaced := false
      status := { s.status with drainValid := true, drainBuf := b, cmdBusy := false }
      seqPhase := .idle }) ∧
  ∀ (d : Dma) (base v : Word),
    d.portWrite base 0x0 v = { d with readAddr := v } ∧ d.portWrite base 0x4 v = { d with writeAddr := v } ∧
    d.portWrite base 0x8 v = { d with count := v } ∧ d.portWrite base 0xC v = { d with ctrl := v } ∧
    d.portRead base 0x8 = some d.count

/-- R213: the address a submit programs is the bus address of the buffer's first word, and is word-aligned. -/
def Obligations.BufferAddresses : Prop :=
  ∀ p : Params, p.admitted = true →
    (p.bufAddr 0).toNat = p.blockBase.toNat + 0x2000 ∧
    (p.bufAddr 1).toNat = p.blockBase.toNat + 0x2000 + 4 * p.bufWords ∧
    ∀ b : BufId, (p.bufAddr b).toNat = p.bufWordAddr b 0 ∧ (p.bufAddr b).toNat % 4 = 0

/-- R214: START with n = 0 ends at once and leaves the channel and the record alone. -/
def Obligations.StartOfNothing : Prop :=
  ∀ (s : State) (b : BufId), s.seqPhase = .one →
    exec (.start b 0) s = .next { s with status := { s.status with cmdBusy := false }, seqPhase := .idle }

/-- R215, R216, R217, R218: BUSY reports whether `D_COUNT` > 0, WAIT ends once it is 0, PUSH appends its code once the
channel is idle and OUTQ has room, NOP does nothing; each ends and changes nothing else. -/
def Obligations.BusyWaitPushNop : Prop :=
  ∀ s : State,
    (s.seqPhase = .one → exec .busy s = .next { s with
      result := if s.dma.count = 0 then 0 else 1, status := { s.status with cmdBusy := false }, seqPhase := .idle }) ∧
    (s.seqPhase = .two → s.dma.count = 0 → exec .wait s = .next { s with
      status := { s.status with cmdBusy := false }, seqPhase := .idle }) ∧
    (∀ c : Code, s.seqPhase = .two → s.dma.count = 0 → s.outq.length < s.params.outFifoDepth →
      exec (.push c) s = .next { s with
        outq := s.outq ++ [c.setWidth 32], status := { s.status with cmdBusy := false }, seqPhase := .idle }) ∧
    (s.seqPhase = .one → exec .nop s = .next { s with
      status := { s.status with cmdBusy := false }, seqPhase := .idle })

/-! ### The external agents -/

/-- R220: when a transfer the engine's record names reads word k of its buffer, the channel's step moves exactly that word
to the end of OUTQ, advances the source by 4 and takes one from the count; nothing else changes. With the count 0, or OUTQ
full, it takes no step. That the advance past the last word of the bus space gives 0 is the model's choice (log entry 23). -/
def Obligations.ChannelMovesOneWord : Prop :=
  ∀ s : State,
    (∀ (b : BufId) (k : Nat), s.params.admitted = true → s.status.drainValid = true → s.status.drainBuf = b →
      k < s.params.bufWords → s.dma.readAddr = s.params.bufAddr b + BitVec.ofNat 32 (4 * k) →
      s.dma.count ≠ 0 → s.outq.length < s.params.outFifoDepth →
      s.dmaTurn = { s with
        outq := s.outq ++ [s.bufWord b k]
        dma := { s.dma with readAddr := s.dma.readAddr + 4, count := s.dma.count - 1 } }) ∧
    (s.dma.count = 0 ∨ s.params.outFifoDepth ≤ s.outq.length → s.dmaTurn = s)

/-- R83, R189, R212: n steps of the channel after a submit of n words of buffer b append exactly those words to OUTQ, in
their order, and leave the channel idle. -/
def Obligations.TransferKeepsTheOrder : Prop :=
  ∀ (s : State) (b : BufId) (rest : List Agent), s.params.admitted = true → s.status.drainValid = true →
    s.status.drainBuf = b → s.dma.readAddr = s.params.bufAddr b → s.dma.count.toNat ≤ s.params.bufWords →
    s.outq.length + s.dma.count.toNat ≤ s.params.outFifoDepth →
    s.turns = List.replicate s.dma.count.toNat .dma ++ rest →
    ∃ t : State, Host.Core.run Sys2Proof.core s.dma.count.toNat s = .next t ∧
      t.outq = s.outq ++ (List.range s.dma.count.toNat).map (s.bufWord b) ∧ t.dma.count = 0 ∧ t.mem = s.mem ∧
      t.status = s.status ∧ t.turns = rest

/-- R223, R52: OUT moves the head word's low ten bits to the DAC while the channel is active and OUTQ is not empty, and
takes no step otherwise; nothing else changes. -/
def Obligations.OutputTakesTheHead : Prop :=
  ∀ s : State,
    (∀ (w : Word) (rest : List Word), s.outActive = true → s.outq = w :: rest →
      s.outTurn = { s with outq := rest, dacOut := s.dacOut ++ [w.setWidth 10] }) ∧
    (s.outActive = false ∨ s.outq = [] → s.outTurn = s)

/-- R278, R271, R268: with the output channel active, alternate turns of OUT and DMA, one pair for each word left, drain a
transfer in flight. On every weakly fair run, a transfer drains again and again; every hold is released, in the phase of the
command it holds, unless a reset comes first; and every command ends. Weak fairness is a premise. In place of CleanLaunch stands
the model's invariant, which every launch meets, with the output channel active. -/
def Obligations.FairTurnsReleaseEveryHold : Prop :=
  ∀ s : State, s.Inv → s.params.admitted = true → s.outActive = true →
    (∀ rest : List Agent,
      s.turns = (List.replicate s.dma.count.toNat [Agent.out, Agent.dma]).flatten ++ rest →
      ∃ t : State, Host.Core.run Sys2Proof.core (2 * s.dma.count.toNat) s = .next t ∧ t.dma.count = 0) ∧
    (s.WeaklyFair → ∀ n,
      (∃ m, n ≤ m ∧ (s.nth m).dma.count = 0) ∧
      (∃ m, n ≤ m ∧ ((s.nth m).nextAgent = .platform ∨
        ((s.nth m).HoldOver ∧ (s.nth m).seqPhase = (s.nth n).seqPhase ∧ (s.nth m).seqCmd = (s.nth n).seqCmd))) ∧
      ∃ m, n ≤ m ∧ (s.nth m).seqPhase = .idle)

/-- R225: SEQ's pushes happen only with `D_COUNT` = 0 and the channel's only with `D_COUNT` > 0; OUT only removes; neither
the host nor a reset changes OUTQ. -/
def Obligations.SingleWriterOfTheQueue : Prop :=
  ∀ s t : State, step s = .next t → t.outq ≠ s.outq →
    (s.nextAgent = .seq ∧ s.dma.count = 0 ∧ ∃ c : Code, t.outq = s.outq ++ [c.setWidth 32]) ∨
    (s.nextAgent = .dma ∧ s.dma.count ≠ 0 ∧ ∃ w : Word, t.outq = s.outq ++ [w]) ∨
    (s.nextAgent = .out ∧ ∃ w : Word, s.outq = w :: t.outq)

/-! ### The host's accesses -/

/-- R33, R243: a CMD write starts the command when none runs, and while one runs it is dropped and sets ERR_OVERRUN; CMD
reads 0. Nothing is claimed of the model's own record of RESULT (log entry 11). -/
def Obligations.CommandWrites : Prop :=
  ∀ (s : State) (v : Word) (rest : List HostAct), s.hostScript = .write 0x000 .word v :: rest →
    (s.status.cmdBusy = false → s.hostTurn = { s with
      seqCmd := v, seqPhase := .one, status := { s.status with cmdBusy := true }, hostScript := rest
      resultBefore := s.hostTurn.resultBefore }) ∧
    (s.status.cmdBusy = true → s.hostTurn = { s with
      status := { s.status with errOverrun := true }, hostScript := rest }) ∧
    ∀ m : Master, s.apertureRead m 0x000 .word = some 0

/-- R36, R243: a CHUNK_LEN write stores the low sixteen bits when no command runs, and while one runs it is dropped and
sets ERR_OVERRUN. -/
def Obligations.ChunkLengthWrites : Prop :=
  ∀ (s : State) (v : Word) (rest : List HostAct), s.hostScript = .write 0x00C .word v :: rest →
    (s.status.cmdBusy = false → s.hostTurn = { s with chunkLen := v.extractLsb' 0 16, hostScript := rest }) ∧
    (s.status.cmdBusy = true → s.hostTurn = { s with
      status := { s.status with errOverrun := true }, hostScript := rest })

/-- R72, R75, R90, R243: an aligned write of any width to the chunk RAM while no command runs changes exactly the chunk
bytes it covers, each to its byte of the written word; while a command runs it is dropped and sets ERR_OVERRUN; past the
chunk RAM it is ignored. -/
def Obligations.ChunkWrites : Prop :=
  ∀ (s : State) (i : Nat) (w : Width) (v : Word) (rest : List HostAct), i < 0x1000 → i % w.bytes = 0 →
    s.hostScript = .write (BitVec.ofNat 14 (0x1000 + i)) w v :: rest →
    (i < 2 * s.params.bufWords → s.status.cmdBusy = false →
      (∀ j, j < 2 * s.params.bufWords → s.hostTurn.chunkByte j =
        if i ≤ j ∧ j < i + w.bytes then v.extractLsb' (8 * (j - i)) 8 else s.chunkByte j) ∧
      (∀ a, (a < s.params.chunkAddr i ∨ s.params.chunkAddr (i + w.bytes) ≤ a) →
        s.hostTurn.ramByte a = s.ramByte a) ∧
      s.hostTurn = { s with mem := s.hostTurn.mem, hostScript := rest }) ∧
    (i < 2 * s.params.bufWords → s.status.cmdBusy = true → s.hostTurn = { s with
      status := { s.status with errOverrun := true }, hostScript := rest }) ∧
    (2 * s.params.bufWords ≤ i → s.hostTurn = { s with hostScript := rest })

/-- R34, R244: a STATUS write clears error bit i exactly when w[i] = 1, whether or not a command runs, and has no other
effect. -/
def Obligations.StatusWritesClearErrors : Prop :=
  ∀ (s : State) (w : Word) (rest : List HostAct), s.hostScript = .write 0x004 .word w :: rest →
    s.hostTurn.status.toWord = (s.status.toWord &&& ~~~ (w &&& 0x00000F00)) ∧
    s.hostTurn = { s with status := s.hostTurn.status, hostScript := rest }

/-- R244: an error bit falls only by a host write of STATUS with that bit set, or by reset; no command, and no step of the
channel or the output, clears one. -/
def Obligations.ErrorBitsAreSticky : Prop :=
  ∀ s t : State, step s = .next t → ∀ i, 8 ≤ i → i < 12 →
    s.status.toWord.getLsbD i = true → t.status.toWord.getLsbD i = false →
    s.nextAgent = .platform ∨
      (s.nextAgent = .host ∧ ∃ (w : Word) (rest : List HostAct),
        s.hostScript = .write 0x004 .word w :: rest ∧ w.getLsbD i = true)

/-- R34: the STATUS word holds each field at its bits, STREAM_STATE as 0 IDLE, 1 ACTIVE, 2 DONE, and its reserved bits read
0. -/
def Obligations.StatusWordFields : Prop :=
  ∀ st : Status, st.toWord.getLsbD 0 = st.cmdBusy ∧
    st.toWord.extractLsb' 2 2 = (match st.streamState with | .idle => 0 | .active => 1 | .done => 2) ∧
    st.toWord.extractLsb' 4 1 = st.curBuf ∧ st.toWord.getLsbD 5 = st.drainValid ∧
    st.toWord.extractLsb' 6 1 = st.drainBuf ∧ st.toWord.getLsbD 8 = st.errIllegal ∧
    st.toWord.getLsbD 9 = st.errArg ∧ st.toWord.getLsbD 10 = st.errSeq ∧ st.toWord.getLsbD 11 = st.errOverrun ∧
    st.toWord &&& 0xFFFFF082 = 0

/-- R32, R34 to R42: what a 32-bit read of each register returns, whether or not a command runs. RESULT reads as the register
while no command runs; while one runs, as the value from before the command or the latest written, and the two are one until
SSTEP's last phase (R35, R275, U15; log entry 11 names the model's record of the old value, which a CMD write takes). -/
def Obligations.RegisterReads : Prop :=
  ∀ (s : State) (m : Master),
    s.apertureRead m 0x000 .word = some 0 ∧ s.apertureRead m 0x004 .word = some s.status.toWord ∧
    s.apertureRead m 0x00C .word = some (s.chunkLen.setWidth 32) ∧
    s.apertureRead m 0x010 .word = some (s.nvoices.setWidth 32) ∧
    s.apertureRead m 0x014 .word = some (s.keysLast.setWidth 32) ∧
    s.apertureRead m 0x018 .word = some (s.mixLast.setWidth 32) ∧
    s.apertureRead m 0x01C .word = some (BitVec.ofNat 32 s.params.bufWords) ∧
    (∀ v : Fin 8,
      s.apertureRead m (BitVec.ofNat 14 (0x040 + 4 * v.val)) .word = some ((s.inc[v]).setWidth 32) ∧
      s.apertureRead m (BitVec.ofNat 14 (0x060 + 4 * v.val)) .word = some ((s.phase[v]).setWidth 32)) ∧
    (s.status.cmdBusy = false → s.apertureRead m 0x008 .word = some s.result) ∧
    (s.apertureRead m 0x008 .word = some s.result ∨ s.apertureRead m 0x008 .word = some s.resultBefore) ∧
    (s.Inv → s.seqPhase ≠ .four → s.apertureRead m 0x008 .word = some s.result) ∧
    ∀ (v : Word) (t : State), s.status.cmdBusy = false → s.apertureWrite 0x000 .word v = some t →
      t.resultBefore = s.result

/-- R49, R71: the reserved offsets of the register aperture read 0, and a write there is ignored even while a command
runs. R32: so is a write to a read-only register, RESULT, NVOICES, KEYS_LAST, MIX_LAST, BUF_WORDS_REG, INC[v] or PHASE[v], as
the model reads R32 (log entry 15). -/
def Obligations.ReservedAndReadOnlyOffsets : Prop :=
  ∀ (s : State) (off : BitVec 14), off.toNat < 0x1000 → off.toNat % 4 = 0 →
    ((0x020 ≤ off.toNat ∧ off.toNat < 0x040) ∨ 0x080 ≤ off.toNat →
      (∀ m : Master, s.apertureRead m off .word = some 0) ∧
      ∀ v : Word, s.apertureWrite off .word v = some s) ∧
    (off.toNat = 0x008 ∨ (0x010 ≤ off.toNat ∧ off.toNat < 0x020) ∨ (0x040 ≤ off.toNat ∧ off.toNat < 0x080) →
      ∀ v : Word, s.apertureWrite off .word v = some s)

/-- R72, R75, R90: an aligned read of any width in the chunk window returns the chunk bytes it covers, the lowest address in
the low bits, with 0 for each byte past the chunk RAM and above the width (the model holds a narrower value zero-extended, log
entry 7). R73: past the two buffers, the buffer window reads 0. -/
def Obligations.ChunkAndUnusedWindowReads : Prop :=
  ∀ (s : State) (m : Master),
    (∀ (i : Nat) (w : Width), i < 0x1000 → i % w.bytes = 0 →
      ∃ v : Word, s.apertureRead m (BitVec.ofNat 14 (0x1000 + i)) w = some v ∧
        ∀ j, j < 4 → v.extractLsb' (8 * j) 8 =
          if j < w.bytes ∧ i + j < 2 * s.params.bufWords then s.chunkByte (i + j) else 0) ∧
    (∀ off : BitVec 14, s.params.bufWords ≤ 1024 → 0x2000 + 8 * s.params.bufWords ≤ off.toNat → off.toNat % 4 = 0 →
      s.apertureRead m off .word = some 0)

/-- R73: an aligned word read of the buffer window returns the buffer's word when no running command fills that buffer, and
a host write there is ignored. -/
def Obligations.BufferWindow : Prop :=
  ∀ (s : State) (b : BufId) (k : Nat) (off : BitVec 14), s.params.admitted = true → k < s.params.bufWords →
    off.toNat = 0x2000 + 4 * s.params.bufWords * b.toNat + 4 * k →
    (s.fillTarget ≠ some b → s.apertureRead .host off .word = some (s.bufWord b k)) ∧
    ∀ v : Word, s.apertureWrite off .word v = some s

/-- R76, R255: HOST makes no step at an access whose width or alignment is not allowed, and it makes one at every other. -/
def Obligations.DisallowedAccessesHaveNoStep : Prop :=
  ∀ (s : State) (m : Master) (off : BitVec 14) (w : Width) (v : Word),
    ((s.apertureRead m off w = none ↔
        ¬ (off.toNat % w.bytes = 0 ∧ (w = .word ∨ (0x1000 ≤ off.toNat ∧ off.toNat < 0x2000)))) ∧
      (s.apertureWrite off w v = none ↔
        ¬ (off.toNat % w.bytes = 0 ∧ (w = .word ∨ (0x1000 ≤ off.toNat ∧ off.toNat < 0x2000))))) ∧
    (∀ rest, s.hostScript = .read off w :: rest → s.apertureRead .host off w = none → s.hostTurn = s) ∧
    (∀ rest, s.hostScript = .write off w v :: rest → s.apertureWrite off w v = none → s.hostTurn = s)

/-- R78: a read changes nothing but what HOST has seen and has still to do. -/
def Obligations.ReadsHaveNoSideEffect : Prop :=
  ∀ (s : State) (off : BitVec 14) (w : Width) (rest : List HostAct), s.hostScript = .read off w :: rest →
    s.hostTurn = { s with hostScript := s.hostTurn.hostScript, hostSeen := s.hostTurn.hostSeen }

/-! ### Reset -/

/-- R260, R53: reset is one step that gives every engine register its reset value, abandons a running command and leaves
the RAMs listing nothing. That SEQ_CMD and SEQ_COUNT become 0 is the model's choice (log entry 2) and is not claimed. -/
def Obligations.ResetSetsTheEngine : Prop :=
  ∀ s : State, s.params.admitted = true → s.nextAgent = .platform →
    ∃ t : State, step s = .next t ∧ t.status.toWord = 0 ∧ t.result = 0 ∧ t.chunkLen = 0 ∧ t.nvoices = 0 ∧
      t.keysLast = 0 ∧ t.mixLast = 0 ∧ (∀ v : Fin 8, t.inc[v] = 0 ∧ t.phase[v] = 0) ∧ t.seqPhase = .idle ∧ t.mem = []

/-- R261: reset does not touch the transfer channel, OUTQ, DACOUT, the output channel or the key lines. -/
def Obligations.ResetSparesTheExternalAgents : Prop :=
  ∀ s : State, s.params.admitted = true → s.nextAgent = .platform →
    ∃ t : State, step s = .next t ∧ t.dma = s.dma ∧ t.outq = s.outq ∧ t.dacOut = s.dacOut ∧
      t.outActive = s.outActive ∧ t.keysNext = s.keysNext ∧ t.params = s.params

/-- R264, R53: every admitted launch is a clean launch, and the reference launch is one. -/
def Obligations.LaunchesAreClean : Prop :=
  (∀ p : Params, p.admitted = true → (State.launch p).CleanLaunch) ∧ State.reset.CleanLaunch

/-! ### The whole machine -/

/-- The model's invariant (Safety.lean) holds right after every launch. -/
def Obligations.InvariantAtLaunch : Prop := ∀ p : Params, (State.launch p).Inv

/-- R21, R37, R46, R51, R181: every step keeps the invariant: the RAM's canonical form and extent, CMD_BUSY and the phase,
NVOICES ≤ 8, the bound of OUTQ, the checked arguments, a recorded transfer within its buffer, and the model's record of RESULT
until the command writes it (log entry 11). -/
def Obligations.InvariantKept : Prop := ∀ s t : State, s.Inv → step s = .next t → t.Inv

/-- R6, R255: from every state that meets the invariant, an admitted launch takes a next step: no fault and no refusal. -/
def Obligations.StepsNeverStop : Prop :=
  ∀ s : State, s.Inv → s.params.admitted = true → ∃ t : State, step s = .next t

/-- R188, S4: no step but a reset changes a byte that a transfer in flight has still to read, when the engine's record
names every transfer. -/
def Obligations.NoStepWritesADrainingBuffer : Prop :=
  ∀ s t : State, s.Inv → s.OwnTransfers → step s = .next t → s.nextAgent ≠ .platform →
    ∀ a, s.dma.readAddr.toNat ≤ a → a < s.dma.readAddr.toNat + 4 * s.dma.count.toNat → t.ramByte a = s.ramByte a

/-- R188: without a reset, every step keeps it that the engine's record names every transfer in flight. -/
def Obligations.OwnTransfersKept : Prop :=
  ∀ s t : State, s.OwnTransfers → step s = .next t → s.nextAgent ≠ .platform → t.OwnTransfers

/-- R9, R43: no step changes a parameter, the waveform table among them. -/
def Obligations.ParametersAreConstant : Prop := ∀ s t : State, step s = .next t → t.params = s.params

/-- R47, R184: the stream state and CUR_BUF change only in a step of SEQ that runs SBEGIN or SSTEP, or at reset. -/
def Obligations.OnlyStreamCommandsMoveTheStream : Prop :=
  ∀ s t : State, step s = .next t →
    (t.status.streamState ≠ s.status.streamState ∨ t.status.curBuf ≠ s.status.curBuf) →
    s.nextAgent = .platform ∨
      (s.nextAgent = .seq ∧ (decodeWord s.seqCmd = .ok .sbegin ∨ decodeWord s.seqCmd = .ok .sstep))

/-- R37, R41, R42: but for reset, only SETNV changes NVOICES, only SETINC changes an increment, and only TICK and SETPH
change a phase. -/
def Obligations.WritersOfTheVoiceRegisters : Prop :=
  ∀ s t : State, step s = .next t → s.nextAgent ≠ .platform →
    (t.nvoices ≠ s.nvoices → ∃ nv, s.nextAgent = .seq ∧ decodeWord s.seqCmd = .ok (.setnv nv)) ∧
    (t.inc ≠ s.inc → ∃ v x, s.nextAgent = .seq ∧ decodeWord s.seqCmd = .ok (.setinc v x)) ∧
    (t.phase ≠ s.phase → s.nextAgent = .seq ∧
      (decodeWord s.seqCmd = .ok .tick ∨ ∃ v x, decodeWord s.seqCmd = .ok (.setph v x)))

/-- R111: NOP, START, WAIT, PUSH, SETINC, SETPH, SETNV and SBEGIN leave RESULT unchanged, and so does any command in the
step in which it raises an error. -/
def Obligations.ResultIsLeftByTheOthers : Prop :=
  ∀ (i : Instr) (s t : State), exec i s = .next t →
    ((i = .nop ∨ (∃ b n, i = .start b n) ∨ i = .wait ∨ (∃ c, i = .push c) ∨ (∃ v x, i = .setinc v x) ∨
        (∃ v x, i = .setph v x) ∨ (∃ nv, i = .setnv nv) ∨ i = .sbegin) → t.result = s.result) ∧
    (t.status.errArg ≠ s.status.errArg ∨ t.status.errSeq ≠ s.status.errSeq → t.result = s.result)

/-- The frame of the commands that store nothing: every command but FILL and SSTEP leaves every byte of the RAM; only START
and SSTEP write the channel's registers or the record of the drained buffer; only PUSH, TICK and SSTEP touch OUTQ; none
touches DACOUT, the chunk length, the parameters or the host's side (R36, R44, R48, R52, R225). -/
def Obligations.FrameOfTheCommands : Prop :=
  ∀ (i : Instr) (s t : State), exec i s = .next t →
    ((∀ b, i ≠ .fill b) → i ≠ .sstep → ∀ a, t.ramByte a = s.ramByte a) ∧
    ((∀ b n, i ≠ .start b n) → i ≠ .sstep → t.dma = s.dma ∧ t.status.drainValid = s.status.drainValid ∧
      t.status.drainBuf = s.status.drainBuf) ∧
    ((∀ c, i ≠ .push c) → i ≠ .tick → i ≠ .sstep → t.outq = s.outq) ∧
    t.dacOut = s.dacOut ∧ t.chunkLen = s.chunkLen ∧ t.params = s.params ∧ t.outActive = s.outActive ∧
    t.seqCmd = s.seqCmd ∧ t.resultBefore = s.resultBefore ∧ t.hostScript = s.hostScript ∧ t.hostSeen = s.hostSeen ∧
    t.turns = s.turns ∧ t.clock = s.clock ∧ t.resets = s.resets
end

