-- ==== Sys2Proof/Laws/State.lean ====
section
/-! SUPPORT. What each named update of the state does to each field: one lemma per field per update, true by `rfl`. -/

namespace Sys2Proof.Machine

variable (s : State)

/-! ### takeTurn -/

@[simp] theorem State.takeTurn_params : (s.takeTurn).params = s.params := rfl
@[simp] theorem State.takeTurn_status : (s.takeTurn).status = s.status := rfl
@[simp] theorem State.takeTurn_result : (s.takeTurn).result = s.result := rfl
@[simp] theorem State.takeTurn_chunkLen : (s.takeTurn).chunkLen = s.chunkLen := rfl
@[simp] theorem State.takeTurn_nvoices : (s.takeTurn).nvoices = s.nvoices := rfl
@[simp] theorem State.takeTurn_keysLast : (s.takeTurn).keysLast = s.keysLast := rfl
@[simp] theorem State.takeTurn_mixLast : (s.takeTurn).mixLast = s.mixLast := rfl
@[simp] theorem State.takeTurn_inc : (s.takeTurn).inc = s.inc := rfl
@[simp] theorem State.takeTurn_phase : (s.takeTurn).phase = s.phase := rfl
@[simp] theorem State.takeTurn_mem : (s.takeTurn).mem = s.mem := rfl
@[simp] theorem State.takeTurn_seqCmd : (s.takeTurn).seqCmd = s.seqCmd := rfl
@[simp] theorem State.takeTurn_seqPhase : (s.takeTurn).seqPhase = s.seqPhase := rfl
@[simp] theorem State.takeTurn_seqCount : (s.takeTurn).seqCount = s.seqCount := rfl
@[simp] theorem State.takeTurn_dma : (s.takeTurn).dma = s.dma := rfl
@[simp] theorem State.takeTurn_outq : (s.takeTurn).outq = s.outq := rfl
@[simp] theorem State.takeTurn_dacOut : (s.takeTurn).dacOut = s.dacOut := rfl
@[simp] theorem State.takeTurn_outActive : (s.takeTurn).outActive = s.outActive := rfl
@[simp] theorem State.takeTurn_fillRaced : (s.takeTurn).fillRaced = s.fillRaced := rfl
@[simp] theorem State.takeTurn_resets : (s.takeTurn).resets = s.resets := rfl
@[simp] theorem State.takeTurn_resultBefore : (s.takeTurn).resultBefore = s.resultBefore := rfl
@[simp] theorem State.takeTurn_clock : (s.takeTurn).clock = s.clock + 1 := rfl
@[simp] theorem State.takeTurn_turns : (s.takeTurn).turns = s.turns.tail := rfl
@[simp] theorem State.takeTurn_hostScript : (s.takeTurn).hostScript = s.hostScript := rfl
@[simp] theorem State.takeTurn_hostSeen : (s.takeTurn).hostSeen = s.hostSeen := rfl
@[simp] theorem State.takeTurn_keysNext : (s.takeTurn).keysNext = s.keysNext := rfl

/-! ### raise -/

@[simp] theorem State.raise_params (e : ErrorBit) : (s.raise e).params = s.params := rfl
@[simp] theorem State.raise_status (e : ErrorBit) : (s.raise e).status = { s.status.setError e with cmdBusy := false } := rfl
@[simp] theorem State.raise_result (e : ErrorBit) : (s.raise e).result = s.result := rfl
@[simp] theorem State.raise_chunkLen (e : ErrorBit) : (s.raise e).chunkLen = s.chunkLen := rfl
@[simp] theorem State.raise_nvoices (e : ErrorBit) : (s.raise e).nvoices = s.nvoices := rfl
@[simp] theorem State.raise_keysLast (e : ErrorBit) : (s.raise e).keysLast = s.keysLast := rfl
@[simp] theorem State.raise_mixLast (e : ErrorBit) : (s.raise e).mixLast = s.mixLast := rfl
@[simp] theorem State.raise_inc (e : ErrorBit) : (s.raise e).inc = s.inc := rfl
@[simp] theorem State.raise_phase (e : ErrorBit) : (s.raise e).phase = s.phase := rfl
@[simp] theorem State.raise_mem (e : ErrorBit) : (s.raise e).mem = s.mem := rfl
@[simp] theorem State.raise_seqCmd (e : ErrorBit) : (s.raise e).seqCmd = s.seqCmd := rfl
@[simp] theorem State.raise_seqPhase (e : ErrorBit) : (s.raise e).seqPhase = .idle := rfl
@[simp] theorem State.raise_seqCount (e : ErrorBit) : (s.raise e).seqCount = s.seqCount := rfl
@[simp] theorem State.raise_dma (e : ErrorBit) : (s.raise e).dma = s.dma := rfl
@[simp] theorem State.raise_outq (e : ErrorBit) : (s.raise e).outq = s.outq := rfl
@[simp] theorem State.raise_dacOut (e : ErrorBit) : (s.raise e).dacOut = s.dacOut := rfl
@[simp] theorem State.raise_outActive (e : ErrorBit) : (s.raise e).outActive = s.outActive := rfl
@[simp] theorem State.raise_fillRaced (e : ErrorBit) : (s.raise e).fillRaced = s.fillRaced := rfl
@[simp] theorem State.raise_resets (e : ErrorBit) : (s.raise e).resets = s.resets := rfl
@[simp] theorem State.raise_resultBefore (e : ErrorBit) : (s.raise e).resultBefore = s.resultBefore := rfl
@[simp] theorem State.raise_clock (e : ErrorBit) : (s.raise e).clock = s.clock := rfl
@[simp] theorem State.raise_turns (e : ErrorBit) : (s.raise e).turns = s.turns := rfl
@[simp] theorem State.raise_hostScript (e : ErrorBit) : (s.raise e).hostScript = s.hostScript := rfl
@[simp] theorem State.raise_hostSeen (e : ErrorBit) : (s.raise e).hostSeen = s.hostSeen := rfl
@[simp] theorem State.raise_keysNext (e : ErrorBit) : (s.raise e).keysNext = s.keysNext := rfl

/-! ### endCommand -/

@[simp] theorem State.endCommand_params : (s.endCommand).params = s.params := rfl
@[simp] theorem State.endCommand_status : (s.endCommand).status = { s.status with cmdBusy := false } := rfl
@[simp] theorem State.endCommand_result : (s.endCommand).result = s.result := rfl
@[simp] theorem State.endCommand_chunkLen : (s.endCommand).chunkLen = s.chunkLen := rfl
@[simp] theorem State.endCommand_nvoices : (s.endCommand).nvoices = s.nvoices := rfl
@[simp] theorem State.endCommand_keysLast : (s.endCommand).keysLast = s.keysLast := rfl
@[simp] theorem State.endCommand_mixLast : (s.endCommand).mixLast = s.mixLast := rfl
@[simp] theorem State.endCommand_inc : (s.endCommand).inc = s.inc := rfl
@[simp] theorem State.endCommand_phase : (s.endCommand).phase = s.phase := rfl
@[simp] theorem State.endCommand_mem : (s.endCommand).mem = s.mem := rfl
@[simp] theorem State.endCommand_seqCmd : (s.endCommand).seqCmd = s.seqCmd := rfl
@[simp] theorem State.endCommand_seqPhase : (s.endCommand).seqPhase = .idle := rfl
@[simp] theorem State.endCommand_seqCount : (s.endCommand).seqCount = s.seqCount := rfl
@[simp] theorem State.endCommand_dma : (s.endCommand).dma = s.dma := rfl
@[simp] theorem State.endCommand_outq : (s.endCommand).outq = s.outq := rfl
@[simp] theorem State.endCommand_dacOut : (s.endCommand).dacOut = s.dacOut := rfl
@[simp] theorem State.endCommand_outActive : (s.endCommand).outActive = s.outActive := rfl
@[simp] theorem State.endCommand_fillRaced : (s.endCommand).fillRaced = s.fillRaced := rfl
@[simp] theorem State.endCommand_resets : (s.endCommand).resets = s.resets := rfl
@[simp] theorem State.endCommand_resultBefore : (s.endCommand).resultBefore = s.resultBefore := rfl
@[simp] theorem State.endCommand_clock : (s.endCommand).clock = s.clock := rfl
@[simp] theorem State.endCommand_turns : (s.endCommand).turns = s.turns := rfl
@[simp] theorem State.endCommand_hostScript : (s.endCommand).hostScript = s.hostScript := rfl
@[simp] theorem State.endCommand_hostSeen : (s.endCommand).hostSeen = s.hostSeen := rfl
@[simp] theorem State.endCommand_keysNext : (s.endCommand).keysNext = s.keysNext := rfl

/-! ### toPhase -/

@[simp] theorem State.toPhase_params (p : SeqPhase) : (s.toPhase p).params = s.params := rfl
@[simp] theorem State.toPhase_status (p : SeqPhase) : (s.toPhase p).status = s.status := rfl
@[simp] theorem State.toPhase_result (p : SeqPhase) : (s.toPhase p).result = s.result := rfl
@[simp] theorem State.toPhase_chunkLen (p : SeqPhase) : (s.toPhase p).chunkLen = s.chunkLen := rfl
@[simp] theorem State.toPhase_nvoices (p : SeqPhase) : (s.toPhase p).nvoices = s.nvoices := rfl
@[simp] theorem State.toPhase_keysLast (p : SeqPhase) : (s.toPhase p).keysLast = s.keysLast := rfl
@[simp] theorem State.toPhase_mixLast (p : SeqPhase) : (s.toPhase p).mixLast = s.mixLast := rfl
@[simp] theorem State.toPhase_inc (p : SeqPhase) : (s.toPhase p).inc = s.inc := rfl
@[simp] theorem State.toPhase_phase (p : SeqPhase) : (s.toPhase p).phase = s.phase := rfl
@[simp] theorem State.toPhase_mem (p : SeqPhase) : (s.toPhase p).mem = s.mem := rfl
@[simp] theorem State.toPhase_seqCmd (p : SeqPhase) : (s.toPhase p).seqCmd = s.seqCmd := rfl
@[simp] theorem State.toPhase_seqPhase (p : SeqPhase) : (s.toPhase p).seqPhase = p := rfl
@[simp] theorem State.toPhase_seqCount (p : SeqPhase) : (s.toPhase p).seqCount = s.seqCount := rfl
@[simp] theorem State.toPhase_dma (p : SeqPhase) : (s.toPhase p).dma = s.dma := rfl
@[simp] theorem State.toPhase_outq (p : SeqPhase) : (s.toPhase p).outq = s.outq := rfl
@[simp] theorem State.toPhase_dacOut (p : SeqPhase) : (s.toPhase p).dacOut = s.dacOut := rfl
@[simp] theorem State.toPhase_outActive (p : SeqPhase) : (s.toPhase p).outActive = s.outActive := rfl
@[simp] theorem State.toPhase_fillRaced (p : SeqPhase) : (s.toPhase p).fillRaced = s.fillRaced := rfl
@[simp] theorem State.toPhase_resets (p : SeqPhase) : (s.toPhase p).resets = s.resets := rfl
@[simp] theorem State.toPhase_resultBefore (p : SeqPhase) : (s.toPhase p).resultBefore = s.resultBefore := rfl
@[simp] theorem State.toPhase_clock (p : SeqPhase) : (s.toPhase p).clock = s.clock := rfl
@[simp] theorem State.toPhase_turns (p : SeqPhase) : (s.toPhase p).turns = s.turns := rfl
@[simp] theorem State.toPhase_hostScript (p : SeqPhase) : (s.toPhase p).hostScript = s.hostScript := rfl
@[simp] theorem State.toPhase_hostSeen (p : SeqPhase) : (s.toPhase p).hostSeen = s.hostSeen := rfl
@[simp] theorem State.toPhase_keysNext (p : SeqPhase) : (s.toPhase p).keysNext = s.keysNext := rfl

/-! ### startCommand -/

@[simp] theorem State.startCommand_params (w : Word) : (s.startCommand w).params = s.params := rfl
@[simp] theorem State.startCommand_status (w : Word) : (s.startCommand w).status = { s.status with cmdBusy := true } := rfl
@[simp] theorem State.startCommand_result (w : Word) : (s.startCommand w).result = s.result := rfl
@[simp] theorem State.startCommand_chunkLen (w : Word) : (s.startCommand w).chunkLen = s.chunkLen := rfl
@[simp] theorem State.startCommand_nvoices (w : Word) : (s.startCommand w).nvoices = s.nvoices := rfl
@[simp] theorem State.startCommand_keysLast (w : Word) : (s.startCommand w).keysLast = s.keysLast := rfl
@[simp] theorem State.startCommand_mixLast (w : Word) : (s.startCommand w).mixLast = s.mixLast := rfl
@[simp] theorem State.startCommand_inc (w : Word) : (s.startCommand w).inc = s.inc := rfl
@[simp] theorem State.startCommand_phase (w : Word) : (s.startCommand w).phase = s.phase := rfl
@[simp] theorem State.startCommand_mem (w : Word) : (s.startCommand w).mem = s.mem := rfl
@[simp] theorem State.startCommand_seqCmd (w : Word) : (s.startCommand w).seqCmd = w := rfl
@[simp] theorem State.startCommand_seqPhase (w : Word) : (s.startCommand w).seqPhase = .one := rfl
@[simp] theorem State.startCommand_seqCount (w : Word) : (s.startCommand w).seqCount = s.seqCount := rfl
@[simp] theorem State.startCommand_dma (w : Word) : (s.startCommand w).dma = s.dma := rfl
@[simp] theorem State.startCommand_outq (w : Word) : (s.startCommand w).outq = s.outq := rfl
@[simp] theorem State.startCommand_dacOut (w : Word) : (s.startCommand w).dacOut = s.dacOut := rfl
@[simp] theorem State.startCommand_outActive (w : Word) : (s.startCommand w).outActive = s.outActive := rfl
@[simp] theorem State.startCommand_fillRaced (w : Word) : (s.startCommand w).fillRaced = s.fillRaced := rfl
@[simp] theorem State.startCommand_resets (w : Word) : (s.startCommand w).resets = s.resets := rfl
@[simp] theorem State.startCommand_resultBefore (w : Word) : (s.startCommand w).resultBefore = s.result := rfl
@[simp] theorem State.startCommand_clock (w : Word) : (s.startCommand w).clock = s.clock := rfl
@[simp] theorem State.startCommand_turns (w : Word) : (s.startCommand w).turns = s.turns := rfl
@[simp] theorem State.startCommand_hostScript (w : Word) : (s.startCommand w).hostScript = s.hostScript := rfl
@[simp] theorem State.startCommand_hostSeen (w : Word) : (s.startCommand w).hostSeen = s.hostSeen := rfl
@[simp] theorem State.startCommand_keysNext (w : Word) : (s.startCommand w).keysNext = s.keysNext := rfl

/-! ### overrun -/

@[simp] theorem State.overrun_params : (s.overrun).params = s.params := rfl
@[simp] theorem State.overrun_status : (s.overrun).status = s.status.setError .overrun := rfl
@[simp] theorem State.overrun_result : (s.overrun).result = s.result := rfl
@[simp] theorem State.overrun_chunkLen : (s.overrun).chunkLen = s.chunkLen := rfl
@[simp] theorem State.overrun_nvoices : (s.overrun).nvoices = s.nvoices := rfl
@[simp] theorem State.overrun_keysLast : (s.overrun).keysLast = s.keysLast := rfl
@[simp] theorem State.overrun_mixLast : (s.overrun).mixLast = s.mixLast := rfl
@[simp] theorem State.overrun_inc : (s.overrun).inc = s.inc := rfl
@[simp] theorem State.overrun_phase : (s.overrun).phase = s.phase := rfl
@[simp] theorem State.overrun_mem : (s.overrun).mem = s.mem := rfl
@[simp] theorem State.overrun_seqCmd : (s.overrun).seqCmd = s.seqCmd := rfl
@[simp] theorem State.overrun_seqPhase : (s.overrun).seqPhase = s.seqPhase := rfl
@[simp] theorem State.overrun_seqCount : (s.overrun).seqCount = s.seqCount := rfl
@[simp] theorem State.overrun_dma : (s.overrun).dma = s.dma := rfl
@[simp] theorem State.overrun_outq : (s.overrun).outq = s.outq := rfl
@[simp] theorem State.overrun_dacOut : (s.overrun).dacOut = s.dacOut := rfl
@[simp] theorem State.overrun_outActive : (s.overrun).outActive = s.outActive := rfl
@[simp] theorem State.overrun_fillRaced : (s.overrun).fillRaced = s.fillRaced := rfl
@[simp] theorem State.overrun_resets : (s.overrun).resets = s.resets := rfl
@[simp] theorem State.overrun_resultBefore : (s.overrun).resultBefore = s.resultBefore := rfl
@[simp] theorem State.overrun_clock : (s.overrun).clock = s.clock := rfl
@[simp] theorem State.overrun_turns : (s.overrun).turns = s.turns := rfl
@[simp] theorem State.overrun_hostScript : (s.overrun).hostScript = s.hostScript := rfl
@[simp] theorem State.overrun_hostSeen : (s.overrun).hostSeen = s.hostSeen := rfl
@[simp] theorem State.overrun_keysNext : (s.overrun).keysNext = s.keysNext := rfl

/-! ### setResult -/

@[simp] theorem State.setResult_params (w : Word) : (s.setResult w).params = s.params := rfl
@[simp] theorem State.setResult_status (w : Word) : (s.setResult w).status = s.status := rfl
@[simp] theorem State.setResult_result (w : Word) : (s.setResult w).result = w := rfl
@[simp] theorem State.setResult_chunkLen (w : Word) : (s.setResult w).chunkLen = s.chunkLen := rfl
@[simp] theorem State.setResult_nvoices (w : Word) : (s.setResult w).nvoices = s.nvoices := rfl
@[simp] theorem State.setResult_keysLast (w : Word) : (s.setResult w).keysLast = s.keysLast := rfl
@[simp] theorem State.setResult_mixLast (w : Word) : (s.setResult w).mixLast = s.mixLast := rfl
@[simp] theorem State.setResult_inc (w : Word) : (s.setResult w).inc = s.inc := rfl
@[simp] theorem State.setResult_phase (w : Word) : (s.setResult w).phase = s.phase := rfl
@[simp] theorem State.setResult_mem (w : Word) : (s.setResult w).mem = s.mem := rfl
@[simp] theorem State.setResult_seqCmd (w : Word) : (s.setResult w).seqCmd = s.seqCmd := rfl
@[simp] theorem State.setResult_seqPhase (w : Word) : (s.setResult w).seqPhase = s.seqPhase := rfl
@[simp] theorem State.setResult_seqCount (w : Word) : (s.setResult w).seqCount = s.seqCount := rfl
@[simp] theorem State.setResult_dma (w : Word) : (s.setResult w).dma = s.dma := rfl
@[simp] theorem State.setResult_outq (w : Word) : (s.setResult w).outq = s.outq := rfl
@[simp] theorem State.setResult_dacOut (w : Word) : (s.setResult w).dacOut = s.dacOut := rfl
@[simp] theorem State.setResult_outActive (w : Word) : (s.setResult w).outActive = s.outActive := rfl
@[simp] theorem State.setResult_fillRaced (w : Word) : (s.setResult w).fillRaced = s.fillRaced := rfl
@[simp] theorem State.setResult_resets (w : Word) : (s.setResult w).resets = s.resets := rfl
@[simp] theorem State.setResult_resultBefore (w : Word) : (s.setResult w).resultBefore = s.resultBefore := rfl
@[simp] theorem State.setResult_clock (w : Word) : (s.setResult w).clock = s.clock := rfl
@[simp] theorem State.setResult_turns (w : Word) : (s.setResult w).turns = s.turns := rfl
@[simp] theorem State.setResult_hostScript (w : Word) : (s.setResult w).hostScript = s.hostScript := rfl
@[simp] theorem State.setResult_hostSeen (w : Word) : (s.setResult w).hostSeen = s.hostSeen := rfl
@[simp] theorem State.setResult_keysNext (w : Word) : (s.setResult w).keysNext = s.keysNext := rfl

/-! ### outPush -/

@[simp] theorem State.outPush_params (c : Code) : (s.outPush c).params = s.params := rfl
@[simp] theorem State.outPush_status (c : Code) : (s.outPush c).status = s.status := rfl
@[simp] theorem State.outPush_result (c : Code) : (s.outPush c).result = s.result := rfl
@[simp] theorem State.outPush_chunkLen (c : Code) : (s.outPush c).chunkLen = s.chunkLen := rfl
@[simp] theorem State.outPush_nvoices (c : Code) : (s.outPush c).nvoices = s.nvoices := rfl
@[simp] theorem State.outPush_keysLast (c : Code) : (s.outPush c).keysLast = s.keysLast := rfl
@[simp] theorem State.outPush_mixLast (c : Code) : (s.outPush c).mixLast = s.mixLast := rfl
@[simp] theorem State.outPush_inc (c : Code) : (s.outPush c).inc = s.inc := rfl
@[simp] theorem State.outPush_phase (c : Code) : (s.outPush c).phase = s.phase := rfl
@[simp] theorem State.outPush_mem (c : Code) : (s.outPush c).mem = s.mem := rfl
@[simp] theorem State.outPush_seqCmd (c : Code) : (s.outPush c).seqCmd = s.seqCmd := rfl
@[simp] theorem State.outPush_seqPhase (c : Code) : (s.outPush c).seqPhase = s.seqPhase := rfl
@[simp] theorem State.outPush_seqCount (c : Code) : (s.outPush c).seqCount = s.seqCount := rfl
@[simp] theorem State.outPush_dma (c : Code) : (s.outPush c).dma = s.dma := rfl
@[simp] theorem State.outPush_outq (c : Code) : (s.outPush c).outq = s.outq ++ [c.setWidth 32] := rfl
@[simp] theorem State.outPush_dacOut (c : Code) : (s.outPush c).dacOut = s.dacOut := rfl
@[simp] theorem State.outPush_outActive (c : Code) : (s.outPush c).outActive = s.outActive := rfl
@[simp] theorem State.outPush_fillRaced (c : Code) : (s.outPush c).fillRaced = s.fillRaced := rfl
@[simp] theorem State.outPush_resets (c : Code) : (s.outPush c).resets = s.resets := rfl
@[simp] theorem State.outPush_resultBefore (c : Code) : (s.outPush c).resultBefore = s.resultBefore := rfl
@[simp] theorem State.outPush_clock (c : Code) : (s.outPush c).clock = s.clock := rfl
@[simp] theorem State.outPush_turns (c : Code) : (s.outPush c).turns = s.turns := rfl
@[simp] theorem State.outPush_hostScript (c : Code) : (s.outPush c).hostScript = s.hostScript := rfl
@[simp] theorem State.outPush_hostSeen (c : Code) : (s.outPush c).hostSeen = s.hostSeen := rfl
@[simp] theorem State.outPush_keysNext (c : Code) : (s.outPush c).keysNext = s.keysNext := rfl

/-! ### The channel's port -/

/-- At `DMA_CH_BASE` plus a register's offset stands that register (R50, R210). -/
@[simp] theorem DmaReg.atAddress_offset (base : Word) (r : DmaReg) : DmaReg.atAddress base (base + r.offset) = some r := by
  have h : ∀ q : DmaReg, (base + r.offset == base + q.offset) = (r.offset == q.offset) := by
    intro q; rw [Bool.eq_iff_iff]; simp
  simp only [DmaReg.atAddress, h]
  cases r <;> decide

/-- `DmaWrite` at a register's offset writes that register. -/
theorem Dma.portWrite_offset (d : Dma) (base : Word) (r : DmaReg) (v : Word) :
    d.portWrite base r.offset v = d.write r v := by
  simp [Dma.portWrite]

@[simp] theorem Dma.portWrite_readAddr (d : Dma) (base v : Word) :
    d.portWrite base 0#32 v = { d with readAddr := v } := d.portWrite_offset base .readAddr v
@[simp] theorem Dma.portWrite_writeAddr (d : Dma) (base v : Word) :
    d.portWrite base 4#32 v = { d with writeAddr := v } := d.portWrite_offset base .writeAddr v
@[simp] theorem Dma.portWrite_transCount (d : Dma) (base v : Word) :
    d.portWrite base 8#32 v = { d with count := v } := d.portWrite_offset base .transCount v
@[simp] theorem Dma.portWrite_ctrlTrig (d : Dma) (base v : Word) :
    d.portWrite base 12#32 v = { d with ctrl := v } := d.portWrite_offset base .ctrlTrig v

/-- `DmaRead` at a register's offset reads that register. -/
theorem Dma.portRead_offset (d : Dma) (base : Word) (r : DmaReg) : d.portRead base r.offset = some (d.read r) := by
  simp [Dma.portRead]

/-- `DmaRead(0x8)` is the remaining count (R50). -/
@[simp] theorem Dma.portRead_transCount (d : Dma) (base : Word) : d.portRead base 8#32 = some d.count :=
  d.portRead_offset base .transCount

/-! ### submit -/

@[simp] theorem State.submit_params (b : BufId) (n : Word) : (s.submit b n).params = s.params := rfl
@[simp] theorem State.submit_status (b : BufId) (n : Word) : (s.submit b n).status = { s.status with drainValid := true, drainBuf := b } := rfl
@[simp] theorem State.submit_result (b : BufId) (n : Word) : (s.submit b n).result = s.result := rfl
@[simp] theorem State.submit_chunkLen (b : BufId) (n : Word) : (s.submit b n).chunkLen = s.chunkLen := rfl
@[simp] theorem State.submit_nvoices (b : BufId) (n : Word) : (s.submit b n).nvoices = s.nvoices := rfl
@[simp] theorem State.submit_keysLast (b : BufId) (n : Word) : (s.submit b n).keysLast = s.keysLast := rfl
@[simp] theorem State.submit_mixLast (b : BufId) (n : Word) : (s.submit b n).mixLast = s.mixLast := rfl
@[simp] theorem State.submit_inc (b : BufId) (n : Word) : (s.submit b n).inc = s.inc := rfl
@[simp] theorem State.submit_phase (b : BufId) (n : Word) : (s.submit b n).phase = s.phase := rfl
@[simp] theorem State.submit_mem (b : BufId) (n : Word) : (s.submit b n).mem = s.mem := rfl
@[simp] theorem State.submit_seqCmd (b : BufId) (n : Word) : (s.submit b n).seqCmd = s.seqCmd := rfl
@[simp] theorem State.submit_seqPhase (b : BufId) (n : Word) : (s.submit b n).seqPhase = s.seqPhase := rfl
@[simp] theorem State.submit_seqCount (b : BufId) (n : Word) : (s.submit b n).seqCount = s.seqCount := rfl
@[simp] theorem State.submit_dma (b : BufId) (n : Word) : (s.submit b n).dma =
    ⟨s.params.bufAddr b, s.params.outTxfAddr, n, s.params.dmaCtrlWord⟩ := by
  simp [State.submit]
@[simp] theorem State.submit_outq (b : BufId) (n : Word) : (s.submit b n).outq = s.outq := rfl
@[simp] theorem State.submit_dacOut (b : BufId) (n : Word) : (s.submit b n).dacOut = s.dacOut := rfl
@[simp] theorem State.submit_outActive (b : BufId) (n : Word) : (s.submit b n).outActive = s.outActive := rfl
@[simp] theorem State.submit_fillRaced (b : BufId) (n : Word) : (s.submit b n).fillRaced = false := rfl
@[simp] theorem State.submit_resets (b : BufId) (n : Word) : (s.submit b n).resets = s.resets := rfl
@[simp] theorem State.submit_resultBefore (b : BufId) (n : Word) : (s.submit b n).resultBefore = s.resultBefore := rfl
@[simp] theorem State.submit_clock (b : BufId) (n : Word) : (s.submit b n).clock = s.clock := rfl
@[simp] theorem State.submit_turns (b : BufId) (n : Word) : (s.submit b n).turns = s.turns := rfl
@[simp] theorem State.submit_hostScript (b : BufId) (n : Word) : (s.submit b n).hostScript = s.hostScript := rfl
@[simp] theorem State.submit_hostSeen (b : BufId) (n : Word) : (s.submit b n).hostSeen = s.hostSeen := rfl
@[simp] theorem State.submit_keysNext (b : BufId) (n : Word) : (s.submit b n).keysNext = s.keysNext := rfl

/-! ### fill -/

@[simp] theorem State.fill_params (b : BufId) : (s.fill b).params = s.params := rfl
@[simp] theorem State.fill_status (b : BufId) : (s.fill b).status = s.status := rfl
@[simp] theorem State.fill_result (b : BufId) : (s.fill b).result = s.result := rfl
@[simp] theorem State.fill_chunkLen (b : BufId) : (s.fill b).chunkLen = s.chunkLen := rfl
@[simp] theorem State.fill_nvoices (b : BufId) : (s.fill b).nvoices = s.nvoices := rfl
@[simp] theorem State.fill_keysLast (b : BufId) : (s.fill b).keysLast = s.keysLast := rfl
@[simp] theorem State.fill_mixLast (b : BufId) : (s.fill b).mixLast = s.mixLast := rfl
@[simp] theorem State.fill_inc (b : BufId) : (s.fill b).inc = s.inc := rfl
@[simp] theorem State.fill_phase (b : BufId) : (s.fill b).phase = s.phase := rfl
@[simp] theorem State.fill_mem (b : BufId) : (s.fill b).mem = s.fillWords b s.fillCount := rfl
@[simp] theorem State.fill_seqCmd (b : BufId) : (s.fill b).seqCmd = s.seqCmd := rfl
@[simp] theorem State.fill_seqPhase (b : BufId) : (s.fill b).seqPhase = s.seqPhase := rfl
@[simp] theorem State.fill_seqCount (b : BufId) : (s.fill b).seqCount = s.seqCount := rfl
@[simp] theorem State.fill_dma (b : BufId) : (s.fill b).dma = s.dma := rfl
@[simp] theorem State.fill_outq (b : BufId) : (s.fill b).outq = s.outq := rfl
@[simp] theorem State.fill_dacOut (b : BufId) : (s.fill b).dacOut = s.dacOut := rfl
@[simp] theorem State.fill_outActive (b : BufId) : (s.fill b).outActive = s.outActive := rfl
@[simp] theorem State.fill_fillRaced (b : BufId) : (s.fill b).fillRaced = (s.fillRaced || decide (s.dma.count ≠ 0 ∧ ¬ s.Tracks b ∧ s.DmaReads b)) := rfl
@[simp] theorem State.fill_resets (b : BufId) : (s.fill b).resets = s.resets := rfl
@[simp] theorem State.fill_resultBefore (b : BufId) : (s.fill b).resultBefore = s.resultBefore := rfl
@[simp] theorem State.fill_clock (b : BufId) : (s.fill b).clock = s.clock := rfl
@[simp] theorem State.fill_turns (b : BufId) : (s.fill b).turns = s.turns := rfl
@[simp] theorem State.fill_hostScript (b : BufId) : (s.fill b).hostScript = s.hostScript := rfl
@[simp] theorem State.fill_hostSeen (b : BufId) : (s.fill b).hostSeen = s.hostSeen := rfl
@[simp] theorem State.fill_keysNext (b : BufId) : (s.fill b).keysNext = s.keysNext := rfl

/-! ### tick -/

@[simp] theorem State.tick_params (keys : BitVec 8) : (s.tick keys).params = s.params := rfl
@[simp] theorem State.tick_status (keys : BitVec 8) : (s.tick keys).status = { s.status with cmdBusy := false } := rfl
@[simp] theorem State.tick_result (keys : BitVec 8) : (s.tick keys).result = (s.mixCode keys).setWidth 32 := rfl
@[simp] theorem State.tick_chunkLen (keys : BitVec 8) : (s.tick keys).chunkLen = s.chunkLen := rfl
@[simp] theorem State.tick_nvoices (keys : BitVec 8) : (s.tick keys).nvoices = s.nvoices := rfl
@[simp] theorem State.tick_keysLast (keys : BitVec 8) : (s.tick keys).keysLast = keys := rfl
@[simp] theorem State.tick_mixLast (keys : BitVec 8) : (s.tick keys).mixLast = s.mixCode keys := rfl
@[simp] theorem State.tick_inc (keys : BitVec 8) : (s.tick keys).inc = s.inc := rfl
@[simp] theorem State.tick_phase (keys : BitVec 8) : (s.tick keys).phase = Vector.ofFn (s.tickPhase keys) := rfl
@[simp] theorem State.tick_mem (keys : BitVec 8) : (s.tick keys).mem = s.mem := rfl
@[simp] theorem State.tick_seqCmd (keys : BitVec 8) : (s.tick keys).seqCmd = s.seqCmd := rfl
@[simp] theorem State.tick_seqPhase (keys : BitVec 8) : (s.tick keys).seqPhase = .idle := rfl
@[simp] theorem State.tick_seqCount (keys : BitVec 8) : (s.tick keys).seqCount = s.seqCount := rfl
@[simp] theorem State.tick_dma (keys : BitVec 8) : (s.tick keys).dma = s.dma := rfl
@[simp] theorem State.tick_outq (keys : BitVec 8) : (s.tick keys).outq = s.outq ++ [(s.mixCode keys).setWidth 32] := rfl
@[simp] theorem State.tick_dacOut (keys : BitVec 8) : (s.tick keys).dacOut = s.dacOut := rfl
@[simp] theorem State.tick_outActive (keys : BitVec 8) : (s.tick keys).outActive = s.outActive := rfl
@[simp] theorem State.tick_fillRaced (keys : BitVec 8) : (s.tick keys).fillRaced = s.fillRaced := rfl
@[simp] theorem State.tick_resets (keys : BitVec 8) : (s.tick keys).resets = s.resets := rfl
@[simp] theorem State.tick_resultBefore (keys : BitVec 8) : (s.tick keys).resultBefore = s.resultBefore := rfl
@[simp] theorem State.tick_clock (keys : BitVec 8) : (s.tick keys).clock = s.clock := rfl
@[simp] theorem State.tick_turns (keys : BitVec 8) : (s.tick keys).turns = s.turns := rfl
@[simp] theorem State.tick_hostScript (keys : BitVec 8) : (s.tick keys).hostScript = s.hostScript := rfl
@[simp] theorem State.tick_hostSeen (keys : BitVec 8) : (s.tick keys).hostSeen = s.hostSeen := rfl
@[simp] theorem State.tick_keysNext (keys : BitVec 8) : (s.tick keys).keysNext = s.keysNext.tail := rfl

/-! ### endStream -/

@[simp] theorem State.endStream_params : (s.endStream).params = s.params := rfl
@[simp] theorem State.endStream_status : (s.endStream).status = { s.status with streamState := .done, cmdBusy := false } := rfl
@[simp] theorem State.endStream_result : (s.endStream).result = s.result := rfl
@[simp] theorem State.endStream_chunkLen : (s.endStream).chunkLen = s.chunkLen := rfl
@[simp] theorem State.endStream_nvoices : (s.endStream).nvoices = s.nvoices := rfl
@[simp] theorem State.endStream_keysLast : (s.endStream).keysLast = s.keysLast := rfl
@[simp] theorem State.endStream_mixLast : (s.endStream).mixLast = s.mixLast := rfl
@[simp] theorem State.endStream_inc : (s.endStream).inc = s.inc := rfl
@[simp] theorem State.endStream_phase : (s.endStream).phase = s.phase := rfl
@[simp] theorem State.endStream_mem : (s.endStream).mem = s.mem := rfl
@[simp] theorem State.endStream_seqCmd : (s.endStream).seqCmd = s.seqCmd := rfl
@[simp] theorem State.endStream_seqPhase : (s.endStream).seqPhase = .idle := rfl
@[simp] theorem State.endStream_seqCount : (s.endStream).seqCount = s.seqCount := rfl
@[simp] theorem State.endStream_dma : (s.endStream).dma = s.dma := rfl
@[simp] theorem State.endStream_outq : (s.endStream).outq = s.outq ++ [idleCode.setWidth 32] := rfl
@[simp] theorem State.endStream_dacOut : (s.endStream).dacOut = s.dacOut := rfl
@[simp] theorem State.endStream_outActive : (s.endStream).outActive = s.outActive := rfl
@[simp] theorem State.endStream_fillRaced : (s.endStream).fillRaced = s.fillRaced := rfl
@[simp] theorem State.endStream_resets : (s.endStream).resets = s.resets := rfl
@[simp] theorem State.endStream_resultBefore : (s.endStream).resultBefore = s.resultBefore := rfl
@[simp] theorem State.endStream_clock : (s.endStream).clock = s.clock := rfl
@[simp] theorem State.endStream_turns : (s.endStream).turns = s.turns := rfl
@[simp] theorem State.endStream_hostScript : (s.endStream).hostScript = s.hostScript := rfl
@[simp] theorem State.endStream_hostSeen : (s.endStream).hostSeen = s.hostSeen := rfl
@[simp] theorem State.endStream_keysNext : (s.endStream).keysNext = s.keysNext := rfl

/-! ### engineReset -/

@[simp] theorem State.engineReset_params : (s.engineReset).params = s.params := rfl
@[simp] theorem State.engineReset_status : (s.engineReset).status = Status.reset := rfl
@[simp] theorem State.engineReset_result : (s.engineReset).result = 0 := rfl
@[simp] theorem State.engineReset_chunkLen : (s.engineReset).chunkLen = 0 := rfl
@[simp] theorem State.engineReset_nvoices : (s.engineReset).nvoices = 0 := rfl
@[simp] theorem State.engineReset_keysLast : (s.engineReset).keysLast = 0 := rfl
@[simp] theorem State.engineReset_mixLast : (s.engineReset).mixLast = 0 := rfl
@[simp] theorem State.engineReset_inc : (s.engineReset).inc = Vector.replicate 8 0 := rfl
@[simp] theorem State.engineReset_phase : (s.engineReset).phase = Vector.replicate 8 0 := rfl
@[simp] theorem State.engineReset_mem : (s.engineReset).mem = [] := rfl
@[simp] theorem State.engineReset_seqCmd : (s.engineReset).seqCmd = 0 := rfl
@[simp] theorem State.engineReset_seqPhase : (s.engineReset).seqPhase = .idle := rfl
@[simp] theorem State.engineReset_seqCount : (s.engineReset).seqCount = 0 := rfl
@[simp] theorem State.engineReset_dma : (s.engineReset).dma = s.dma := rfl
@[simp] theorem State.engineReset_outq : (s.engineReset).outq = s.outq := rfl
@[simp] theorem State.engineReset_dacOut : (s.engineReset).dacOut = s.dacOut := rfl
@[simp] theorem State.engineReset_outActive : (s.engineReset).outActive = s.outActive := rfl
@[simp] theorem State.engineReset_fillRaced : (s.engineReset).fillRaced = s.fillRaced := rfl
@[simp] theorem State.engineReset_resets : (s.engineReset).resets = s.resets + 1 := rfl
@[simp] theorem State.engineReset_resultBefore : (s.engineReset).resultBefore = 0 := rfl
@[simp] theorem State.engineReset_clock : (s.engineReset).clock = s.clock := rfl
@[simp] theorem State.engineReset_turns : (s.engineReset).turns = s.turns := rfl
@[simp] theorem State.engineReset_hostScript : (s.engineReset).hostScript = s.hostScript := rfl
@[simp] theorem State.engineReset_hostSeen : (s.engineReset).hostSeen = s.hostSeen := rfl
@[simp] theorem State.engineReset_keysNext : (s.engineReset).keysNext = s.keysNext := rfl

/-! ### submitAndSwap -/

@[simp] theorem State.submitAndSwap_params : s.submitAndSwap.params = s.params := by
  unfold State.submitAndSwap; split <;> rfl
@[simp] theorem State.submitAndSwap_status : s.submitAndSwap.status = { s.status with
    curBuf := s.status.curBuf ^^^ 1
    drainValid := if s.seqCount = 0 then s.status.drainValid else true
    drainBuf := if s.seqCount = 0 then s.status.drainBuf else s.status.curBuf } := by
  unfold State.submitAndSwap; by_cases h : s.seqCount = 0
  · simp only [if_pos h]
  · simp only [if_neg h]; rfl
@[simp] theorem State.submitAndSwap_result : s.submitAndSwap.result = s.seqCount.setWidth 32 := rfl
@[simp] theorem State.submitAndSwap_chunkLen : s.submitAndSwap.chunkLen = s.chunkLen := by
  unfold State.submitAndSwap; split <;> rfl
@[simp] theorem State.submitAndSwap_nvoices : s.submitAndSwap.nvoices = s.nvoices := by
  unfold State.submitAndSwap; split <;> rfl
@[simp] theorem State.submitAndSwap_keysLast : s.submitAndSwap.keysLast = s.keysLast := by
  unfold State.submitAndSwap; split <;> rfl
@[simp] theorem State.submitAndSwap_mixLast : s.submitAndSwap.mixLast = s.mixLast := by
  unfold State.submitAndSwap; split <;> rfl
@[simp] theorem State.submitAndSwap_inc : s.submitAndSwap.inc = s.inc := by
  unfold State.submitAndSwap; split <;> rfl
@[simp] theorem State.submitAndSwap_phase : s.submitAndSwap.phase = s.phase := by
  unfold State.submitAndSwap; split <;> rfl
@[simp] theorem State.submitAndSwap_mem : s.submitAndSwap.mem = s.mem := by
  unfold State.submitAndSwap; split <;> rfl
@[simp] theorem State.submitAndSwap_seqCmd : s.submitAndSwap.seqCmd = s.seqCmd := by
  unfold State.submitAndSwap; split <;> rfl
@[simp] theorem State.submitAndSwap_seqPhase : s.submitAndSwap.seqPhase = s.seqPhase := by
  unfold State.submitAndSwap; split <;> rfl
@[simp] theorem State.submitAndSwap_seqCount : s.submitAndSwap.seqCount = s.seqCount := by
  unfold State.submitAndSwap; split <;> rfl
@[simp] theorem State.submitAndSwap_dma : s.submitAndSwap.dma = 
    (if s.seqCount = 0 then s.dma
      else ⟨s.params.bufAddr s.status.curBuf, s.params.outTxfAddr, s.seqCount.setWidth 32, s.params.dmaCtrlWord⟩) := by
  unfold State.submitAndSwap; by_cases h : s.seqCount = 0
  · simp only [h, if_true]
  · simp only [h, if_false, State.submit_dma]
@[simp] theorem State.submitAndSwap_outq : s.submitAndSwap.outq = s.outq := by
  unfold State.submitAndSwap; split <;> rfl
@[simp] theorem State.submitAndSwap_dacOut : s.submitAndSwap.dacOut = s.dacOut := by
  unfold State.submitAndSwap; split <;> rfl
@[simp] theorem State.submitAndSwap_outActive : s.submitAndSwap.outActive = s.outActive := by
  unfold State.submitAndSwap; split <;> rfl
@[simp] theorem State.submitAndSwap_fillRaced : s.submitAndSwap.fillRaced = if s.seqCount = 0 then s.fillRaced else false := by
  unfold State.submitAndSwap; by_cases h : s.seqCount = 0
  · simp only [h, if_true]
  · simp only [h, if_false]; rfl
@[simp] theorem State.submitAndSwap_resets : s.submitAndSwap.resets = s.resets := by
  unfold State.submitAndSwap; split <;> rfl
@[simp] theorem State.submitAndSwap_resultBefore : s.submitAndSwap.resultBefore = s.resultBefore := by
  unfold State.submitAndSwap; split <;> rfl
@[simp] theorem State.submitAndSwap_clock : s.submitAndSwap.clock = s.clock := by
  unfold State.submitAndSwap; split <;> rfl
@[simp] theorem State.submitAndSwap_turns : s.submitAndSwap.turns = s.turns := by
  unfold State.submitAndSwap; split <;> rfl
@[simp] theorem State.submitAndSwap_hostScript : s.submitAndSwap.hostScript = s.hostScript := by
  unfold State.submitAndSwap; split <;> rfl
@[simp] theorem State.submitAndSwap_hostSeen : s.submitAndSwap.hostSeen = s.hostSeen := by
  unfold State.submitAndSwap; split <;> rfl
@[simp] theorem State.submitAndSwap_keysNext : s.submitAndSwap.keysNext = s.keysNext := by
  unfold State.submitAndSwap; split <;> rfl

/-! ### Reads of the RAM see only the RAM and the number of resets -/

theorem State.ramByte_congr {s t : State} (hm : t.mem = s.mem) (hr : t.resets = s.resets) (a : Nat) :
    t.ramByte a = s.ramByte a := by
  simp [State.ramByte, hm, hr]

theorem State.ramWord_congr {s t : State} (hm : t.mem = s.mem) (hr : t.resets = s.resets) (a : Nat) :
    t.ramWord a = s.ramWord a := by
  simp [State.ramWord, State.ramByte_congr hm hr]

theorem State.bufWord_congr {s t : State} (hp : t.params = s.params) (hm : t.mem = s.mem) (hr : t.resets = s.resets)
    (b : BufId) (k : Nat) : t.bufWord b k = s.bufWord b k := by
  simp [State.bufWord, hp, State.ramWord_congr hm hr]

@[simp] theorem Status.setError_curBuf (st : Status) (e : ErrorBit) : (st.setError e).curBuf = st.curBuf := by
  cases e <;> rfl
@[simp] theorem Status.setError_streamState (st : Status) (e : ErrorBit) :
    (st.setError e).streamState = st.streamState := by cases e <;> rfl
@[simp] theorem Status.setError_drainValid (st : Status) (e : ErrorBit) :
    (st.setError e).drainValid = st.drainValid := by cases e <;> rfl
@[simp] theorem Status.setError_drainBuf (st : Status) (e : ErrorBit) : (st.setError e).drainBuf = st.drainBuf := by
  cases e <;> rfl
@[simp] theorem Status.setError_cmdBusy (st : Status) (e : ErrorBit) : (st.setError e).cmdBusy = st.cmdBusy := by
  cases e <;> rfl

end Sys2Proof.Machine
end

