-- ==== Sys2Proof/Laws/Memory.lean ====
section
/-! SUPPORT. The RAM: a read after a write to the same place, a write leaves every other place alone, and every memory
operation keeps the canonical form. -/

namespace Sys2Proof.Machine

/-! ### One byte -/

@[simp] theorem Memory.lookup_nil (a : Nat) : Memory.lookup [] a = none := rfl

theorem Memory.lookup_write_same (m : Memory) (a : Nat) (v : Byte) : Memory.lookup (Memory.write m a v) a = some v := by
  induction m with
  | nil => simp [Memory.write, Memory.lookup]
  | cons c m ih =>
    obtain ⟨k, w⟩ := c
    unfold Memory.write
    split
    · simp [Memory.lookup]
    · split
      · simp [Memory.lookup]
      · next h => simp [Memory.lookup, Ne.symm h, ih]

theorem Memory.lookup_write_other (m : Memory) {a c : Nat} (v : Byte) (h : c ≠ a) :
    Memory.lookup (Memory.write m a v) c = Memory.lookup m c := by
  induction m with
  | nil => simp [Memory.write, Memory.lookup, h.symm]
  | cons e m ih =>
    obtain ⟨k, w⟩ := e
    unfold Memory.write
    split
    · simp [Memory.lookup, h.symm]
    · split
      · next h' => subst h'; simp [Memory.lookup, h.symm]
      · simp [Memory.lookup, ih]

/-- Reading one byte after writing one. -/
theorem Memory.lookup_write (m : Memory) (a c : Nat) (v : Byte) :
    Memory.lookup (Memory.write m a v) c = if c = a then some v else Memory.lookup m c := by
  split
  · next h => rw [h, Memory.lookup_write_same]
  · next h => exact Memory.lookup_write_other m v h

theorem Memory.mem_write {m : Memory} {a : Nat} {v : Byte} {c : Host.Cell} (h : c ∈ Memory.write m a v) :
    c = (a, v) ∨ c ∈ m := by
  induction m with
  | nil => simpa [Memory.write] using h
  | cons e m ih =>
    obtain ⟨k, w⟩ := e
    unfold Memory.write at h
    split at h
    · simpa using h
    · split at h
      · rcases List.mem_cons.1 h with h | h <;> simp [h]
      · rcases List.mem_cons.1 h with h | h
        · simp [h]
        · rcases ih h with h | h <;> simp [h]

/-- Writing a byte keeps the canonical form. -/
theorem Memory.write_wf {m : Memory} (a : Nat) (v : Byte) (h : Memory.wf m) : Memory.wf (Memory.write m a v) := by
  induction m with
  | nil => simp [Memory.write, Memory.wf]
  | cons e m ih =>
    obtain ⟨k, w⟩ := e
    obtain ⟨hk, hm⟩ := List.pairwise_cons.1 h
    unfold Memory.write
    split
    · next hlt =>
      refine List.pairwise_cons.2 ⟨fun d hd => ?_, h⟩
      rcases List.mem_cons.1 hd with hd | hd
      · simp [hd, hlt]
      · exact lt_trans hlt (hk d hd)
    · split
      · next heq => subst heq; exact List.pairwise_cons.2 ⟨hk, hm⟩
      · next hlt hne =>
        refine List.pairwise_cons.2 ⟨fun d hd => ?_, ih hm⟩
        rcases Memory.mem_write hd with hd | hd
        · simp only [hd]; omega
        · exact hk d hd

/-! ### One word -/

/-- Reading one byte after writing a word. -/
theorem Memory.lookup_writeWord (m : Memory) (a c : Nat) (w : Word) :
    Memory.lookup (Memory.writeWord m a w) c =
      if a ≤ c ∧ c < a + 4 then some (wordByte w (c - a)) else Memory.lookup m c := by
  simp only [Memory.writeWord, Memory.lookup_write]
  by_cases h : a ≤ c ∧ c < a + 4
  · obtain ⟨h1, h2⟩ := h
    obtain h | h | h | h : c = a ∨ c = a + 1 ∨ c = a + 2 ∨ c = a + 3 := by omega
    all_goals subst h; simp
  · rw [if_neg (by omega), if_neg (by omega), if_neg (by omega), if_neg (by omega), if_neg h]

theorem Memory.writeWord_wf {m : Memory} (a : Nat) (w : Word) (h : Memory.wf m) : Memory.wf (Memory.writeWord m a w) :=
  Memory.write_wf _ _ (Memory.write_wf _ _ (Memory.write_wf _ _ (Memory.write_wf _ _ h)))

theorem Memory.mem_writeWord {m : Memory} {a : Nat} {w : Word} {c : Host.Cell} (h : c ∈ Memory.writeWord m a w) :
    (a ≤ c.1 ∧ c.1 < a + 4) ∨ c ∈ m := by
  unfold Memory.writeWord at h
  rcases Memory.mem_write h with h | h
  · exact .inl (by simp [h])
  rcases Memory.mem_write h with h | h
  · exact .inl (by simp [h])
  rcases Memory.mem_write h with h | h
  · exact .inl (by simp [h])
  rcases Memory.mem_write h with h | h
  · exact .inl (by simp [h])
  · exact .inr h

/-- A word is the word of its bytes (R74). -/
theorem wordOfBytes_wordByte (w : Word) :
    wordOfBytes (wordByte w 0) (wordByte w 1) (wordByte w 2) (wordByte w 3) = w := by
  apply BitVec.eq_of_getLsbD_eq
  intro i hi
  simp only [wordOfBytes, wordByte, BitVec.getLsbD_append, BitVec.getLsbD_extractLsb']
  obtain h | h | h | h : i < 8 ∨ (8 ≤ i ∧ i < 16) ∨ (16 ≤ i ∧ i < 24) ∨ 24 ≤ i := by omega
  · simp [h]
  · obtain ⟨h1, h2⟩ := h
    simp [show ¬ i < 8 by omega, show i - 8 < 8 by omega, show 8 + (i - 8) = i by omega]
  · obtain ⟨h1, h2⟩ := h
    simp [show ¬ i < 8 by omega, show ¬ i - 8 < 8 by omega, show i - 8 - 8 < 8 by omega,
      show 16 + (i - 8 - 8) = i by omega]
  · simp [show ¬ i < 8 by omega, show ¬ i - 8 < 8 by omega, show ¬ i - 8 - 8 < 8 by omega,
      show i - 8 - 8 - 8 < 8 by omega, show 24 + (i - 8 - 8 - 8) = i by omega]

/-! ### Reads of the RAM through the state -/

/-- A byte of the RAM after one word is written. -/
theorem State.ramByte_writeWord (s : State) (m : Memory) (a c : Nat) (w : Word) :
    ({ s with mem := Memory.writeWord m a w } : State).ramByte c =
      if a ≤ c ∧ c < a + 4 then wordByte w (c - a) else ({ s with mem := m } : State).ramByte c := by
  simp only [State.ramByte, Memory.lookup_writeWord]
  split <;> simp

/-- The word just written is read back. -/
theorem State.ramWord_writeWord_same (s : State) (m : Memory) (a : Nat) (w : Word) :
    ({ s with mem := Memory.writeWord m a w } : State).ramWord a = w := by
  simp only [State.ramWord, State.ramByte_writeWord]
  simpa using wordOfBytes_wordByte w

/-- A word that does not overlap the one written reads as before. -/
theorem State.ramWord_writeWord_other (s : State) (m : Memory) {a c : Nat} (w : Word) (h : c + 4 ≤ a ∨ a + 4 ≤ c) :
    ({ s with mem := Memory.writeWord m a w } : State).ramWord c = ({ s with mem := m } : State).ramWord c := by
  simp only [State.ramWord, State.ramByte_writeWord]
  rw [if_neg (by omega), if_neg (by omega), if_neg (by omega), if_neg (by omega)]

/-- The RAM right after reset is in canonical form. -/
theorem State.launch_wf (p : Params) : Memory.wf (State.launch p).mem := List.Pairwise.nil

end Sys2Proof.Machine
end

