-- ==== Sys2Proof/Laws/Layout.lean ====
section
/-! SUPPORT. What an admitted launch says of its parameters (R9), and where the RAMs lie in the bus space (R72, R73,
R213). -/

namespace Sys2Proof

/-- The low `n` bits of a word are 0 exactly when it is a multiple of `2 ^ n`. -/
theorem extractLsb'_zero_eq_zero {w : Word} {n : Nat} (h : w.extractLsb' 0 n = 0) : w.toNat % 2 ^ n = 0 := by
  have := congrArg BitVec.toNat h
  simpa [BitVec.extractLsb'_toNat] using this

/-- The ranges of R9 that an admitted launch keeps. -/
theorem Params.admitted_ranges {p : Params} (h : p.admitted = true) :
    1 ≤ p.bufWords ∧ p.bufWords ≤ 1024 ∧ 1 ≤ p.outFifoDepth ∧ p.blockBase.toNat % 0x4000 = 0 := by
  simp only [Params.admitted, Bool.and_eq_true, decide_eq_true_eq, beq_iff_eq] at h
  obtain ⟨⟨⟨⟨⟨⟨h1, h2⟩, h3⟩, h4⟩, -⟩, -⟩, -⟩ := h
  exact ⟨h1, h2, h3, extractLsb'_zero_eq_zero h4⟩

/-- The 16 KiB aperture fits below 2^32. -/
theorem Params.aperture_fits {p : Params} (h : p.admitted = true) : p.blockBase.toNat + 0x4000 ≤ 2 ^ 32 := by
  obtain ⟨-, -, -, h4⟩ := Params.admitted_ranges h
  have := p.blockBase.isLt
  omega

/-- Chunk byte `i` is `i` bytes after the first (R72). -/
theorem Params.chunkAddr_eq (p : Params) (i : Nat) : p.chunkAddr i = p.chunkAddr 0 + i := by
  simp [Params.chunkAddr]

theorem BufId.eq_zero_or_one (b : BufId) : b = 0 ∨ b = 1 := by revert b; decide

/-- Word `k` of a buffer is `4 * k` bytes after its first word (R73). -/
theorem Params.bufWordAddr_eq (p : Params) (b : BufId) (k : Nat) :
    p.bufWordAddr b k = p.bufWordAddr b 0 + 4 * k := by
  simp [Params.bufWordAddr]

theorem Params.bufWordAddr_zero (p : Params) (k : Nat) :
    p.bufWordAddr 0 k = p.blockBase.toNat + 0x2000 + 4 * k := by
  simp [Params.bufWordAddr]

theorem Params.bufWordAddr_one (p : Params) (k : Nat) :
    p.bufWordAddr 1 k = p.blockBase.toNat + 0x2000 + 4 * p.bufWords + 4 * k := by
  simp [Params.bufWordAddr]

/-- A buffer lies after the chunk window and ends with the second buffer (R73). -/
theorem Params.bufWordAddr_bounds (p : Params) (b : BufId) :
    p.blockBase.toNat + 0x2000 ≤ p.bufWordAddr b 0 ∧
      p.bufWordAddr b 0 + 4 * p.bufWords ≤ p.blockBase.toNat + 0x2000 + 8 * p.bufWords := by
  rcases BufId.eq_zero_or_one b with rfl | rfl
  · rw [Params.bufWordAddr_zero]; omega
  · rw [Params.bufWordAddr_one]; omega

/-- The two buffers do not overlap (R73). -/
theorem Params.bufWordAddr_disjoint (p : Params) {b c : BufId} (h : b ≠ c) :
    p.bufWordAddr b 0 + 4 * p.bufWords ≤ p.bufWordAddr c 0 ∨
      p.bufWordAddr c 0 + 4 * p.bufWords ≤ p.bufWordAddr b 0 := by
  rcases BufId.eq_zero_or_one b with rfl | rfl <;> rcases BufId.eq_zero_or_one c with rfl | rfl
  · exact absurd rfl h
  · left; rw [Params.bufWordAddr_zero, Params.bufWordAddr_one]; omega
  · right; rw [Params.bufWordAddr_zero, Params.bufWordAddr_one]; omega
  · exact absurd rfl h

/-- The address a submit programs is the bus address of the buffer's first word (R213). -/
theorem Params.bufAddr_toNat {p : Params} (h : p.admitted = true) (b : BufId) :
    (p.bufAddr b).toNat = p.bufWordAddr b 0 := by
  obtain ⟨-, h2, -, -⟩ := Params.admitted_ranges h
  have h5 := Params.aperture_fits h
  rcases BufId.eq_zero_or_one b with rfl | rfl
  · rw [Params.bufWordAddr_zero]
    simp only [Params.bufAddr, BitVec.toNat_add, BitVec.toNat_ofNat]
    simp; omega
  · rw [Params.bufWordAddr_one]
    simp only [Params.bufAddr, BitVec.toNat_add, BitVec.toNat_ofNat]
    simp; omega

end Sys2Proof
end

