-- ==== Sys2Proof/Laws/Fill.lean ====
section
/-! SUPPORT. The fill function (R182): what each byte and word of the RAM holds after it, and that it keeps the canonical
form and stays in its buffer. -/

namespace Sys2Proof.Machine

theorem State.fillCount_eq (s : State) : s.fillCount = s.chunkLen.toNat / 2 := by
  simp [State.fillCount, Nat.shiftRight_eq_div_pow]

/-- After the argument check, the chunk has at most `BUF_WORDS` samples (R182). -/
theorem State.fillCount_le {s : State} (h : ¬ s.ChunkTooLong) : s.fillCount ≤ s.params.bufWords := by
  rw [State.fillCount_eq]; unfold State.ChunkTooLong at h; omega

/-- `n` filled words change only their own bytes. -/
theorem State.ramByte_fillWords_other (s : State) (b : BufId) (n a : Nat)
    (h : a < s.params.bufWordAddr b 0 ∨ s.params.bufWordAddr b n ≤ a) :
    ({ s with mem := s.fillWords b n } : State).ramByte a = s.ramByte a := by
  induction n with
  | zero => rfl
  | succ n ih =>
    have h1 := s.params.bufWordAddr_eq b n
    have h2 := s.params.bufWordAddr_eq b (n + 1)
    rw [State.fillWords, State.ramByte_writeWord, if_neg (by omega), ih (by omega)]

/-- Each filled word is the code of its sample, zero-extended (R182, R189). -/
theorem State.ramWord_fillWords (s : State) (b : BufId) {n k : Nat} (h : k < n) :
    ({ s with mem := s.fillWords b n } : State).ramWord (s.params.bufWordAddr b k) = (s.sampleCode k).setWidth 32 := by
  induction n with
  | zero => omega
  | succ n ih =>
    rw [State.fillWords]
    by_cases hk : k = n
    · subst hk; exact State.ramWord_writeWord_same _ _ _ _
    · rw [State.ramWord_writeWord_other]
      · exact ih (by omega)
      · have h1 := s.params.bufWordAddr_eq b k
        have h2 := s.params.bufWordAddr_eq b n
        omega

theorem State.fillWords_wf {s : State} (b : BufId) (n : Nat) (h : Memory.wf s.mem) : Memory.wf (s.fillWords b n) := by
  induction n with
  | zero => exact h
  | succ n ih => exact Memory.writeWord_wf _ _ ih

theorem State.mem_fillWords {s : State} {b : BufId} {n : Nat} {c : Host.Cell} (h : c ∈ s.fillWords b n) :
    (s.params.bufWordAddr b 0 ≤ c.1 ∧ c.1 < s.params.bufWordAddr b n) ∨ c ∈ s.mem := by
  induction n with
  | zero => exact .inr h
  | succ n ih =>
    have h1 := s.params.bufWordAddr_eq b n
    have h2 := s.params.bufWordAddr_eq b (n + 1)
    rw [State.fillWords] at h
    rcases Memory.mem_writeWord h with h | h
    · left; omega
    · rcases ih h with h | h
      · left; omega
      · exact .inr h

/-- The whole effect of a fill on the RAM (R182): codes where the samples are, every other byte as before. -/
theorem State.fill_ram (s : State) (b : BufId) :
    (∀ k, k < s.fillCount → (s.fill b).bufWord b k = (s.sampleCode k).setWidth 32) ∧
      ∀ a, (a < s.params.bufWordAddr b 0 ∨ s.params.bufWordAddr b s.fillCount ≤ a) →
        (s.fill b).ramByte a = s.ramByte a := by
  refine ⟨fun k hk => ?_, fun a ha => ?_⟩
  · rw [← State.ramWord_fillWords s b hk]
    exact State.ramWord_congr rfl rfl _
  · rw [← State.ramByte_fillWords_other s b s.fillCount a ha]
    exact State.ramByte_congr rfl rfl _

end Sys2Proof.Machine
end

