-- ==== Sys2Proof/Laws/Exec.lean ====
section
/-! SUPPORT. What a step can do, said once: the cases of every command's phases (R110), of SEQ's turn and of the
machine's step. -/

namespace Sys2Proof.Machine

variable {s t : State}

/-- A command of one phase that can only run to its end. -/
theorem onePhase_cases {u : State}
    (h : (match s.seqPhase with
      | .one => Host.Outcome.next u
      | _ => Host.Outcome.fault Fault.noSuchPhase : Host.Outcome State Fault Refusal) = .next t) :
    s.seqPhase = .one ∧ t = u := by
  split at h
  · next hp => exact ⟨hp, by cases h; rfl⟩
  · cases h

theorem execNop_cases (h : execNop s = .next t) : s.seqPhase = .one ∧ t = s.endCommand := onePhase_cases h

theorem execCodec_cases {hi lo : Byte} (h : execCodec hi lo s = .next t) :
    s.seqPhase = .one ∧ t = (s.setResult ((codec lo hi).setWidth 32)).endCommand := onePhase_cases h

theorem execBusy_cases (h : execBusy s = .next t) :
    s.seqPhase = .one ∧ t = (s.setResult (if s.ChannelIdle then 0 else 1)).endCommand := by
  have h1 := onePhase_cases h
  simpa [State.ChannelIdle] using h1

theorem execSetinc_cases {v : BitVec 3} {x : BitVec 16} (h : execSetinc v x s = .next t) :
    s.seqPhase = .one ∧ t = State.endCommand { s with inc := s.inc.set v.toNat x v.isLt } := onePhase_cases h

theorem execSetph_cases {v : BitVec 3} {x : BitVec 16} (h : execSetph v x s = .next t) :
    s.seqPhase = .one ∧ t = State.endCommand { s with phase := s.phase.set v.toNat x v.isLt } := onePhase_cases h

theorem execSbegin_cases (h : execSbegin s = .next t) :
    s.seqPhase = .one ∧
      t = State.endCommand { s with status := { s.status with streamState := .active, curBuf := 0 } } := onePhase_cases h

theorem execSetnv_cases {nv : BitVec 4} (h : execSetnv nv s = .next t) :
    s.seqPhase = .one ∧
      ((nv.toNat > maxVoices ∧ t = s.raise .arg) ∨
        (nv.toNat ≤ maxVoices ∧ t = State.endCommand { s with nvoices := nv })) := by
  unfold execSetnv at h
  split at h
  · next hp =>
    split at h
    · next hn => exact ⟨hp, .inl ⟨hn, by cases h; rfl⟩⟩
    · next hn => exact ⟨hp, .inr ⟨Nat.le_of_not_lt hn, by cases h; rfl⟩⟩
  · cases h

theorem execFill_cases {b : BufId} (h : execFill b s = .next t) :
    (s.seqPhase = .one ∧ s.ChunkTooLong ∧ t = s.raise .arg) ∨
    (s.seqPhase = .one ∧ ¬ s.ChunkTooLong ∧ t = s.toPhase .two) ∨
    (s.seqPhase = .two ∧ s.Draining b ∧ t = s) ∨
    (s.seqPhase = .two ∧ ¬ s.Draining b ∧
      t = ((s.fill b).setResult (BitVec.ofNat 32 s.fillCount)).endCommand) := by
  unfold execFill at h
  split at h
  · next hp =>
    split at h
    · next hc => exact .inl ⟨hp, hc, by cases h; rfl⟩
    · next hc => exact .inr (.inl ⟨hp, hc, by cases h; rfl⟩)
  · next hp =>
    split at h
    · next hc => exact .inr (.inr (.inl ⟨hp, hc, by cases h; rfl⟩))
    · next hc => exact .inr (.inr (.inr ⟨hp, hc, by cases h; rfl⟩))
  · cases h

theorem execStart_cases {b : BufId} {n : BitVec 16} (h : execStart b n s = .next t) :
    (s.seqPhase = .one ∧ n.toNat > s.params.bufWords ∧ t = s.raise .arg) ∨
    (s.seqPhase = .one ∧ n = 0 ∧ t = s.endCommand) ∨
    (s.seqPhase = .one ∧ n.toNat ≤ s.params.bufWords ∧ n ≠ 0 ∧ t = s.toPhase .two) ∨
    (s.seqPhase = .two ∧ s.dma.count ≠ 0 ∧ t = s) ∨
    (s.seqPhase = .two ∧ s.dma.count = 0 ∧ t = (s.submit b (n.setWidth 32)).endCommand) := by
  unfold execStart at h
  split at h
  · next hp =>
    split at h
    · next hc => exact .inl ⟨hp, hc, by cases h; rfl⟩
    · next hc =>
      split at h
      · next hn => exact .inr (.inl ⟨hp, hn, by cases h; rfl⟩)
      · next hn => exact .inr (.inr (.inl ⟨hp, Nat.le_of_not_lt hc, hn, by cases h; rfl⟩))
  · next hp =>
    split at h
    · next hc => exact .inr (.inr (.inr (.inr ⟨hp, hc, by cases h; rfl⟩)))
    · next hc => exact .inr (.inr (.inr (.inl ⟨hp, hc, by cases h; rfl⟩)))
  · cases h

/-- A command of two phases: checks, then a hold `C` and an effect. -/
theorem twoPhase_cases {C : Prop} [Decidable C] {u : State}
    (h : (match s.seqPhase with
      | .one => Host.Outcome.next (s.toPhase .two)
      | .two => if C then Host.Outcome.next u else Host.Outcome.next s
      | _ => Host.Outcome.fault Fault.noSuchPhase : Host.Outcome State Fault Refusal) = .next t) :
    (s.seqPhase = .one ∧ t = s.toPhase .two) ∨ (s.seqPhase = .two ∧ ¬ C ∧ t = s) ∨
      (s.seqPhase = .two ∧ C ∧ t = u) := by
  split at h
  · next hp => exact .inl ⟨hp, by cases h; rfl⟩
  · next hp =>
    split at h
    · next hc => exact .inr (.inr ⟨hp, hc, by cases h; rfl⟩)
    · next hc => exact .inr (.inl ⟨hp, hc, by cases h; rfl⟩)
  · cases h

theorem execWait_cases (h : execWait s = .next t) :
    (s.seqPhase = .one ∧ t = s.toPhase .two) ∨ (s.seqPhase = .two ∧ ¬ s.ChannelIdle ∧ t = s) ∨
      (s.seqPhase = .two ∧ s.ChannelIdle ∧ t = s.endCommand) := twoPhase_cases h

theorem execPush_cases {c : Code} (h : execPush c s = .next t) :
    (s.seqPhase = .one ∧ t = s.toPhase .two) ∨ (s.seqPhase = .two ∧ ¬ s.CanPush ∧ t = s) ∨
      (s.seqPhase = .two ∧ s.CanPush ∧ t = (s.outPush c).endCommand) := twoPhase_cases h

theorem execTick_cases (h : execTick s = .next t) :
    (s.seqPhase = .one ∧ t = s.toPhase .two) ∨ (s.seqPhase = .two ∧ ¬ s.CanPush ∧ t = s) ∨
      (s.seqPhase = .two ∧ s.CanPush ∧ t = s.tick s.keyDraw) := twoPhase_cases h

theorem execSstep_cases (h : execSstep s = .next t) :
    (s.seqPhase = .one ∧ s.status.streamState ≠ .active ∧ t = s.raise .seq) ∨
    (s.seqPhase = .one ∧ s.status.streamState = .active ∧ s.ChunkTooLong ∧ t = s.raise .arg) ∨
    (s.seqPhase = .one ∧ s.status.streamState = .active ∧ ¬ s.ChunkTooLong ∧ t = s.toPhase .two) ∨
    (s.seqPhase = .two ∧ s.Draining s.status.curBuf ∧ t = s) ∨
    (s.seqPhase = .two ∧ ¬ s.Draining s.status.curBuf ∧
      t = State.toPhase { s.fill s.status.curBuf with seqCount := BitVec.ofNat 11 s.fillCount } .three) ∨
    (s.seqPhase = .three ∧ ¬ (s.seqCount = 0 ∨ s.ChannelIdle) ∧ t = s) ∨
    (s.seqPhase = .three ∧ (s.seqCount = 0 ∨ s.ChannelIdle) ∧ s.seqCount.toNat = s.params.bufWords ∧
      t = s.submitAndSwap.endCommand) ∨
    (s.seqPhase = .three ∧ (s.seqCount = 0 ∨ s.ChannelIdle) ∧ s.seqCount.toNat ≠ s.params.bufWords ∧
      t = s.submitAndSwap.toPhase .four) ∨
    (s.seqPhase = .four ∧ ¬ s.CanPush ∧ t = s) ∨
    (s.seqPhase = .four ∧ s.CanPush ∧ t = s.endStream) := by
  unfold execSstep at h
  split at h
  · next hp =>
    split at h
    · next h1 => exact .inl ⟨hp, h1, by cases h; rfl⟩
    · next h1 =>
      rw [not_not] at h1
      split at h
      · next h2 => exact .inr (.inl ⟨hp, h1, h2, by cases h; rfl⟩)
      · next h2 => exact .inr (.inr (.inl ⟨hp, h1, h2, by cases h; rfl⟩))
  · next hp =>
    split at h
    · next h1 => exact .inr (.inr (.inr (.inl ⟨hp, h1, by cases h; rfl⟩)))
    · next h1 => exact .inr (.inr (.inr (.inr (.inl ⟨hp, h1, by cases h; rfl⟩))))
  · next hp =>
    split at h
    · next h1 =>
      split at h
      · next h2 => exact .inr (.inr (.inr (.inr (.inr (.inr (.inl ⟨hp, h1, h2, by cases h; rfl⟩))))))
      · next h2 => exact .inr (.inr (.inr (.inr (.inr (.inr (.inr (.inl ⟨hp, h1, h2, by cases h; rfl⟩)))))))
    · next h1 => exact .inr (.inr (.inr (.inr (.inr (.inl ⟨hp, h1, by cases h; rfl⟩)))))
  · next hp =>
    split at h
    · next h1 =>
      exact .inr (.inr (.inr (.inr (.inr (.inr (.inr (.inr (.inr ⟨hp, h1, by cases h; rfl⟩))))))))
    · next h1 =>
      exact .inr (.inr (.inr (.inr (.inr (.inr (.inr (.inr (.inl ⟨hp, h1, by cases h; rfl⟩))))))))
  · cases h

/-- SEQ's turn: nothing runs; a command's phase; or an illegal word in phase 1. -/
theorem seqTurn_cases (h : seqTurn s = .next t) :
    (s.seqPhase = .idle ∧ t = s) ∨
    (s.seqPhase ≠ .idle ∧ ∃ i, decodeWord s.seqCmd = .ok i ∧ exec i s = .next t) ∨
    (s.seqPhase = .one ∧ (∃ e, decodeWord s.seqCmd = .error e) ∧ t = s.raise .illegal) := by
  unfold seqTurn at h
  split at h
  · next hp => exact .inl ⟨hp, by cases h; rfl⟩
  · next i hi hp => exact .inr (.inl ⟨hp, i, hi, h⟩)
  · next e hp he => exact .inr (.inr ⟨hp, ⟨e, he⟩, by cases h; rfl⟩)
  · cases h

/-- The machine's step: the launch is admitted, and the agent whose turn it is moves. -/
theorem step_cases (h : step s = .next t) :
    s.params.admitted = true ∧
    ((s.nextAgent = .host ∧ t = s.takeTurn.hostTurn) ∨
      (s.nextAgent = .seq ∧ seqTurn s.takeTurn = .next t) ∨
      (s.nextAgent = .dma ∧ t = s.takeTurn.dmaTurn) ∨
      (s.nextAgent = .out ∧ t = s.takeTurn.outTurn) ∨
      (s.nextAgent = .platform ∧ t = s.takeTurn.engineReset)) := by
  unfold step at h
  split at h
  · next ha =>
    refine ⟨ha, ?_⟩
    split at h
    · next hn => exact .inl ⟨hn, by cases h; rfl⟩
    · next hn => exact .inr (.inl ⟨hn, h⟩)
    · next hn => exact .inr (.inr (.inl ⟨hn, by cases h; rfl⟩))
    · next hn => exact .inr (.inr (.inr (.inl ⟨hn, by cases h; rfl⟩)))
    · next hn => exact .inr (.inr (.inr (.inr ⟨hn, by cases h; rfl⟩)))
  · cases h

end Sys2Proof.Machine
end

