-- ==== Sys2Proof/Laws/Agents.lean ====
section
/-! SUPPORT. What HOST, DMA and OUT can do in a step, said once (R220, R223, R269, R76). -/

namespace Sys2Proof.Machine

/-- A host write of the register aperture: ignored, a command started, an overrun, errors cleared, or CHUNK_LEN set. -/
theorem State.regWrite_cases (s : State) (off : Nat) (v : Word) :
    s.regWrite off v = s ∨
    (s.status.cmdBusy = false ∧ s.regWrite off v = s.startCommand v) ∨
    (s.status.cmdBusy = true ∧ s.regWrite off v = s.overrun) ∨
    (off = 0x004 ∧ s.regWrite off v = { s with status := s.status.clearErrors v }) ∨
    (s.status.cmdBusy = false ∧ s.regWrite off v = { s with chunkLen := v.setWidth 16 }) := by
  unfold State.regWrite
  split
  · split
    · next h => simp [h]
    · next h => simp [h]
  · simp
  · split
    · next h => simp [h]
    · next h => simp [h]
  · simp

/-- A host write of the aperture that is allowed: a register write, a chunk write, or nothing. -/
theorem State.apertureWrite_cases {s t : State} {off : BitVec 14} {w : Width} {v : Word}
    (h : s.apertureWrite off w v = some t) :
    t = s ∨ (off.toNat < 0x1000 ∧ w = .word ∧ t = s.regWrite off.toNat v) ∨
      (t = s.chunkWrite (off.toNat - 0x1000) w v) := by
  unfold State.apertureWrite at h
  simp only at h
  split at h
  · split at h
    · next h1 =>
      split at h
      · next h2 => simp at h; exact .inr (.inl ⟨h1, h2, h.symm⟩)
      · cases h
    · split at h
      · simp at h; exact .inr (.inr h.symm)
      · split at h
        · simp at h; exact .inl h.symm
        · cases h
  · cases h

/-- A chunk write: ignored, an overrun, or bytes stored. -/
theorem State.chunkWrite_cases (s : State) (i : Nat) (w : Width) (v : Word) :
    s.chunkWrite i w v = s ∨ (s.status.cmdBusy = true ∧ s.chunkWrite i w v = s.overrun) ∨
      (s.status.cmdBusy = false ∧ s.chunkWrite i w v = { s with mem := s.chunkStore i v w.bytes }) := by
  unfold State.chunkWrite
  split
  · split
    · next h => simp [h]
    · next h => simp [h]
  · simp

/-- HOST's step: nothing; a read or a poll, which change only HOST's own record; or one of the writes. -/
theorem State.hostTurn_cases (s : State) :
    (∃ hs seen, s.hostTurn = { s with hostScript := hs, hostSeen := seen }) ∨
    (s.status.cmdBusy = false ∧ ∃ v hs, s.hostTurn = { s.startCommand v with hostScript := hs }) ∨
    (s.status.cmdBusy = true ∧ ∃ hs, s.hostTurn = { s.overrun with hostScript := hs }) ∨
    (∃ v hs, s.hostScript = .write 0x004 .word v :: hs ∧
      s.hostTurn = { s with status := s.status.clearErrors v, hostScript := hs }) ∨
    (s.status.cmdBusy = false ∧ ∃ (v : Word) (hs : _), s.hostTurn =
      { s with chunkLen := v.setWidth 16, hostScript := hs }) ∨
    (s.status.cmdBusy = false ∧ ∃ i v w hs, s.hostTurn =
      { s with mem := s.chunkStore i v (Width.bytes w), hostScript := hs }) := by
  have refl : ∃ hs seen, s = { s with hostScript := hs, hostSeen := seen } := ⟨s.hostScript, s.hostSeen, rfl⟩
  unfold State.hostTurn
  split
  · exact .inl refl
  · split
    · exact .inl ⟨_, _, rfl⟩
    · exact .inl refl
  · next off w v rest heq =>
    split
    · next t ht =>
      rcases State.apertureWrite_cases ht with h | ⟨-, hw, h⟩ | h
      · subst h; exact .inl ⟨_, _, rfl⟩
      · rcases s.regWrite_cases off.toNat v with h' | ⟨hb, h'⟩ | ⟨hb, h'⟩ | ⟨h4, h'⟩ | ⟨hb, h'⟩
        · rw [h, h']; exact .inl ⟨_, _, rfl⟩
        · rw [h, h']; exact .inr (.inl ⟨hb, v, rest, rfl⟩)
        · rw [h, h']; exact .inr (.inr (.inl ⟨hb, rest, rfl⟩))
        · have hoff : off = 0x004 := BitVec.eq_of_toNat_eq h4
          rw [h, h']; exact .inr (.inr (.inr (.inl ⟨v, rest, by rw [heq, hoff, hw], rfl⟩)))
        · rw [h, h']; exact .inr (.inr (.inr (.inr (.inl ⟨hb, v, rest, rfl⟩))))
      · rcases s.chunkWrite_cases (off.toNat - 0x1000) w v with h' | ⟨hb, h'⟩ | ⟨hb, h'⟩
        · rw [h, h']; exact .inl ⟨_, _, rfl⟩
        · rw [h, h']; exact .inr (.inr (.inl ⟨hb, rest, rfl⟩))
        · rw [h, h']; exact .inr (.inr (.inr (.inr (.inr ⟨hb, _, v, w, rest, rfl⟩))))
    · exact .inl refl
  · split
    · exact .inl refl
    · exact .inl ⟨_, _, rfl⟩

/-- DMA's step: nothing, or one word to OUTQ (R220). -/
theorem State.dmaTurn_cases (s : State) :
    s.dmaTurn = s ∨
      (s.dma.count ≠ 0 ∧ s.OutqRoom ∧ ∃ w, s.dmaFetch = some w ∧ s.dmaTurn = { s with
        outq := s.outq ++ [w]
        dma := { s.dma with readAddr := s.dma.readAddr + 4, count := s.dma.count - 1 } }) := by
  unfold State.dmaTurn
  split
  · next h =>
    split
    · next w hw => exact .inr ⟨h.1, h.2, w, hw, rfl⟩
    · exact .inl rfl
  · exact .inl rfl

/-- OUT's step: nothing, or the head of OUTQ to the DAC (R223). -/
theorem State.outTurn_cases (s : State) :
    s.outTurn = s ∨ ∃ w rest, s.outq = w :: rest ∧
      s.outTurn = { s with outq := rest, dacOut := s.dacOut ++ [w.setWidth 10] } := by
  unfold State.outTurn
  split
  · next w rest _ h => exact .inr ⟨w, rest, h, rfl⟩
  · exact .inl rfl

/-! ### The chunk RAM -/

theorem State.chunkStore_wf {s : State} (i : Nat) (v : Word) (n : Nat) (h : Memory.wf s.mem) :
    Memory.wf (s.chunkStore i v n) := by
  induction n with
  | zero => exact h
  | succ n ih =>
    unfold State.chunkStore
    split
    · exact Memory.write_wf _ _ ih
    · exact ih

theorem State.mem_chunkStore {s : State} {i : Nat} {v : Word} {n : Nat} {c : Host.Cell} (h : c ∈ s.chunkStore i v n) :
    (s.params.chunkAddr 0 ≤ c.1 ∧ c.1 < s.params.chunkAddr (2 * s.params.bufWords)) ∨ c ∈ s.mem := by
  induction n with
  | zero => exact .inr h
  | succ n ih =>
    unfold State.chunkStore at h
    split at h
    · next hlt =>
      rcases Memory.mem_write h with h | h
      · left; subst h; simp only [Params.chunkAddr]; omega
      · exact ih h
    · exact ih h

/-- A byte of the RAM after a chunk write: the covered chunk bytes hold their bytes of the word, every other byte is as
before (R75, R90). -/
theorem State.ramByte_chunkStore (s : State) (i : Nat) (v : Word) (n a : Nat) :
    ({ s with mem := s.chunkStore i v n } : State).ramByte a =
      if s.params.chunkAddr i ≤ a ∧ a < s.params.chunkAddr (i + n) ∧ a < s.params.chunkAddr (2 * s.params.bufWords) then
        wordByte v (a - s.params.chunkAddr i)
      else s.ramByte a := by
  have e1 := s.params.chunkAddr_eq i
  have e2 := s.params.chunkAddr_eq (2 * s.params.bufWords)
  induction n with
  | zero =>
    rw [Nat.add_zero, if_neg (by omega)]
    rfl
  | succ n ih =>
    have e3 := s.params.chunkAddr_eq (i + n)
    have e4 := s.params.chunkAddr_eq (i + (n + 1))
    unfold State.chunkStore
    by_cases hlt : i + n < 2 * s.params.bufWords
    · rw [if_pos hlt]
      have hw : ({ s with mem := Memory.write (s.chunkStore i v n) (s.params.chunkAddr (i + n)) (wordByte v n) } :
          State).ramByte a = if a = s.params.chunkAddr (i + n) then wordByte v n
            else ({ s with mem := s.chunkStore i v n } : State).ramByte a := by
        simp only [State.ramByte, Memory.lookup_write]
        split <;> simp
      rw [hw]
      by_cases ha : a = s.params.chunkAddr (i + n)
      · rw [if_pos ha, if_pos (by omega)]
        congr 1; omega
      · rw [if_neg ha, ih]
        by_cases h : s.params.chunkAddr i ≤ a ∧ a < s.params.chunkAddr (i + n) ∧
            a < s.params.chunkAddr (2 * s.params.bufWords)
        · rw [if_pos h, if_pos (by omega)]
        · rw [if_neg h, if_neg (by omega)]
    · rw [if_neg hlt, ih]
      by_cases h : s.params.chunkAddr i ≤ a ∧ a < s.params.chunkAddr (i + n) ∧
          a < s.params.chunkAddr (2 * s.params.bufWords)
      · rw [if_pos h, if_pos (by omega)]
      · rw [if_neg h, if_neg (by omega)]

end Sys2Proof.Machine
end

