-- ==== Sys2Proof/Laws/Aperture.lean ====
section
/-! SUPPORT. What an allowed access of each window of the aperture is (R71, R72, R73, R76): each lemma takes the offset once
and leaves the register, the chunk bytes or the buffer word it names. -/

namespace Sys2Proof.Machine

variable {s : State} {m : Master} {off : BitVec 14}

/-- An aligned 32-bit read of the register aperture is the register's. -/
theorem State.apertureRead_reg {n : Nat} (e : off.toNat = n) (h1 : n < 0x1000) (h2 : n % 4 = 0) :
    s.apertureRead m off .word = some (s.regRead n) := by
  have h3 : aligned n .word := h2
  simp [State.apertureRead, e, h1, h3]

/-- An aligned 32-bit write of the register aperture is the register's. -/
theorem State.apertureWrite_reg {n : Nat} (v : Word) (e : off.toNat = n) (h1 : n < 0x1000) (h2 : n % 4 = 0) :
    s.apertureWrite off .word v = some (s.regWrite n v) := by
  have h3 : aligned n .word := h2
  simp [State.apertureWrite, e, h1, h3]

/-- An aligned read at offset `i` of the chunk window. -/
theorem State.apertureRead_chunk {i : Nat} {w : Width} (e : off.toNat = 0x1000 + i) (h1 : i < 0x1000)
    (h2 : aligned (0x1000 + i) w) : s.apertureRead m off w = some (s.chunkRead i w) := by
  simp [State.apertureRead, e, h2, show ¬ 0x1000 + i < 0x1000 by omega, show 0x1000 + i < 0x2000 by omega]

/-- An aligned write at offset `i` of the chunk window. -/
theorem State.apertureWrite_chunk {i : Nat} {w : Width} (v : Word) (e : off.toNat = 0x1000 + i) (h1 : i < 0x1000)
    (h2 : aligned (0x1000 + i) w) : s.apertureWrite off w v = some (s.chunkWrite i w v) := by
  simp [State.apertureWrite, e, h2, show ¬ 0x1000 + i < 0x1000 by omega, show 0x1000 + i < 0x2000 by omega]

/-- An aligned word read of the buffer window is the window's word. -/
theorem State.apertureRead_window {j : Nat} (e : off.toNat = 0x2000 + 4 * j) :
    s.apertureRead m off .word = some (s.windowRead m j) := by
  have h3 : aligned (0x2000 + 4 * j) .word := by simp only [aligned, Width.bytes]; omega
  simp [State.apertureRead, e, h3, show ¬ 0x2000 + 4 * j < 0x1000 by omega, show ¬ 0x2000 + 4 * j < 0x2000 by omega]

/-- Word `k` of buffer `b` in the window, where no read of it is open (R73, R89). -/
theorem State.windowRead_buf {b : BufId} {k : Nat} (hk : k < s.params.bufWords) (ho : s.bufOpen b m = false) :
    s.windowRead m (s.params.bufWords * b.toNat + k) = s.bufWord b k := by
  have hb : s.windowBuf (s.params.bufWords * b.toNat + k) = b := by
    unfold State.windowBuf
    rcases BufId.eq_zero_or_one b with rfl | rfl
    · simp; omega
    · simp
  have hlt : s.params.bufWords * b.toNat + k < 2 * s.params.bufWords := by
    rcases BufId.eq_zero_or_one b with rfl | rfl <;> simp <;> omega
  have ha : s.params.bufWordAddr 0 (s.params.bufWords * b.toNat + k) = s.params.bufWordAddr b k := by
    simp only [Params.bufWordAddr]; simp; ring
  rw [State.windowRead, if_pos hlt, hb, ho, if_neg Bool.false_ne_true, State.bufWord, ha, State.bufWord]

/-- The channel's read always has a step at a word-aligned address of an admitted launch. -/
theorem State.dmaFetch_isSome (ha : s.params.admitted = true) (h : s.dma.readAddr.toNat % 4 = 0) :
    ∃ w, s.dmaFetch = some w := by
  have hb := (Params.admitted_ranges ha).2.2.2
  unfold State.dmaFetch
  simp only
  split
  · next hlt =>
    have he : ((s.dma.readAddr - s.params.blockBase).setWidth 14).toNat = (s.dma.readAddr - s.params.blockBase).toNat := by
      rw [BitVec.toNat_setWidth]; exact Nat.mod_eq_of_lt (by omega)
    have h4 : aligned (s.dma.readAddr - s.params.blockBase).toNat .word := by
      have h1 := s.dma.readAddr.isLt
      have h2 := s.params.blockBase.isLt
      simp only [aligned, Width.bytes, BitVec.toNat_sub]
      omega
    unfold State.apertureRead
    simp only [he]
    rw [if_pos h4]
    split
    · exact ⟨_, if_pos trivial⟩
    · split
      · exact ⟨_, rfl⟩
      · exact ⟨_, if_pos trivial⟩
  · exact ⟨_, rfl⟩

end Sys2Proof.Machine
end

