-- ==== Sys2Proof/Laws/Encoding.lean ====
section
/-! SUPPORT. The fields of a packed command word (R101) and the row of the legality table that a command belongs to
(R104). -/

namespace Sys2Proof

/-- Every bit of a packed word, by field (R101). -/
theorem packWord_getLsbD (imm : BitVec 16) (sel op : BitVec 4) (i : Nat) :
    (packWord imm sel op).getLsbD i =
      if i < 4 then op.getLsbD i else if i < 8 then sel.getLsbD (i - 4) else if i < 16 then false
      else imm.getLsbD (i - 16) := by
  simp only [packWord, BitVec.getLsbD_append]
  by_cases h1 : i < 4
  · simp [h1]
  · by_cases h2 : i < 8
    · simp [h1, h2, show i - 4 < 4 by omega]
    · by_cases h3 : i < 16
      · simp [h1, h2, h3, show ¬ i - 4 < 4 by omega, show i - 4 - 4 < 8 by omega]
      · simp [h1, h2, h3, show ¬ i - 4 < 4 by omega, show ¬ i - 4 - 4 < 8 by omega,
          show i - 4 - 4 - 8 = i - 16 by omega]

/-- The low bits of `SEL` read back (R102). -/
theorem packWord_sel (imm : BitVec 16) (sel op : BitVec 4) {n : Nat} (hn : n ≤ 4) :
    (packWord imm sel op).extractLsb' 4 n = sel.setWidth n := by
  apply BitVec.eq_of_getLsbD_eq
  intro i hi
  rw [BitVec.getLsbD_extractLsb', packWord_getLsbD]
  simp [hi, show ¬ 4 + i < 4 by omega, show 4 + i < 8 by omega]

/-- `OP` reads back (R101). -/
theorem packWord_op (imm : BitVec 16) (sel op : BitVec 4) : (packWord imm sel op).extractLsb' 0 4 = op := by
  apply BitVec.eq_of_getLsbD_eq
  intro i hi
  rw [BitVec.getLsbD_extractLsb', packWord_getLsbD]
  simp [hi]

/-- A part of `IMM` reads back (R102). -/
theorem packWord_imm (imm : BitVec 16) (sel op : BitVec 4) (k n : Nat) :
    (packWord imm sel op).extractLsb' (16 + k) n = imm.extractLsb' k n := by
  apply BitVec.eq_of_getLsbD_eq
  intro i hi
  rw [BitVec.getLsbD_extractLsb', BitVec.getLsbD_extractLsb', packWord_getLsbD]
  simp [hi, show ¬ 16 + k + i < 4 by omega, show ¬ 16 + k + i < 8 by omega, show ¬ 16 + k + i < 16 by omega,
    show 16 + k + i - 16 = k + i by omega]

/-- MASK of a command's row (R104). -/
def Instr.mask : Instr → Word
  | .codec _ _ => 0x0000FFFF
  | .fill _ => 0xFFFFFFEF
  | .start _ _ => 0x0000FFEF
  | .push _ => 0xFC00FFFF
  | .setinc _ _ | .setph _ _ => 0x0000FF8F
  | .setnv _ => 0xFFF0FFFF
  | .nop | .busy | .wait | .tick | .sbegin | .sstep => 0xFFFFFFFF

/-- MATCH of a command's row (R104): the opcode, every other fixed bit 0. -/
def Instr.pattern (i : Instr) : Word := i.op.setWidth 32

end Sys2Proof
end

