-- ==== Sys2Proof/Laws/Holds.lean ====
section
/-! SUPPORT. Holds, said once: what SEQ's turn does at a hold and past it, and that no agent beside SEQ takes an ended hold back
(R12, R110, R225, R278). -/

namespace Sys2Proof.Machine

variable {s t : State}

/-- While the channel is busy, a command's step neither programs it nor touches OUTQ (R110, R225). -/
theorem exec_busy {i : Instr} (h : exec i s = .next t) (hc : s.dma.count ≠ 0) : t.dma = s.dma ∧ t.outq = s.outq := by
  have hi : ¬ s.ChannelIdle := hc
  have hp : ¬ s.CanPush := fun hp => hc hp.1
  cases i with
  | nop => obtain ⟨-, rfl⟩ := execNop_cases h; simp
  | codec => obtain ⟨-, rfl⟩ := execCodec_cases h; simp
  | busy => obtain ⟨-, rfl⟩ := execBusy_cases h; simp
  | setinc => obtain ⟨-, rfl⟩ := execSetinc_cases h; simp
  | setph => obtain ⟨-, rfl⟩ := execSetph_cases h; simp
  | sbegin => obtain ⟨-, rfl⟩ := execSbegin_cases h; simp
  | setnv => obtain ⟨-, ⟨-, rfl⟩ | ⟨-, rfl⟩⟩ := execSetnv_cases h <;> simp
  | fill => obtain ⟨-, -, rfl⟩ | ⟨-, -, rfl⟩ | ⟨-, -, rfl⟩ | ⟨-, -, rfl⟩ := execFill_cases h <;> simp
  | start =>
    obtain ⟨-, -, rfl⟩ | ⟨-, -, rfl⟩ | ⟨-, -, -, rfl⟩ | ⟨-, -, rfl⟩ | ⟨-, hz, -⟩ := execStart_cases h
    all_goals first | exact absurd hz hc | simp
  | wait => obtain ⟨-, rfl⟩ | ⟨-, -, rfl⟩ | ⟨-, -, rfl⟩ := execWait_cases h <;> simp
  | push =>
    obtain ⟨-, rfl⟩ | ⟨-, -, rfl⟩ | ⟨-, hz, -⟩ := execPush_cases h
    all_goals first | exact absurd hz hp | simp
  | tick =>
    obtain ⟨-, rfl⟩ | ⟨-, -, rfl⟩ | ⟨-, hz, -⟩ := execTick_cases h
    all_goals first | exact absurd hz hp | simp
  | sstep =>
    rcases execSstep_cases h with ⟨-, -, rfl⟩ | ⟨-, -, -, rfl⟩ | ⟨-, -, -, rfl⟩ | ⟨-, -, rfl⟩ | ⟨-, -, rfl⟩ | ⟨-, -, rfl⟩ |
      ⟨-, hz, -, rfl⟩ | ⟨-, hz, -, rfl⟩ | ⟨-, -, rfl⟩ | ⟨-, hz, -⟩
    all_goals first
      | exact absurd hz hp
      | (have h0 : s.seqCount = 0 := hz.resolve_right hi
         simp [h0])
      | simp

/-- With its hold over, a command's step ends it or goes on to a later phase; a held step leaves the state alone (R12, R110). -/
theorem exec_hold {i : Instr} (h : exec i s = .next t) :
    (¬ s.HoldOverOf i s.seqPhase ∧ t = s) ∨
      (s.HoldOverOf i s.seqPhase ∧ t.seqCmd = s.seqCmd ∧ (t.seqPhase = .idle ∨ s.seqPhase.num < t.seqPhase.num)) := by
  cases i with
  | nop => obtain ⟨hp, rfl⟩ := execNop_cases h; simp [State.HoldOverOf, hp]
  | codec => obtain ⟨hp, rfl⟩ := execCodec_cases h; simp [State.HoldOverOf, hp]
  | busy => obtain ⟨hp, rfl⟩ := execBusy_cases h; simp [State.HoldOverOf, hp]
  | setinc => obtain ⟨hp, rfl⟩ := execSetinc_cases h; simp [State.HoldOverOf, hp]
  | setph => obtain ⟨hp, rfl⟩ := execSetph_cases h; simp [State.HoldOverOf, hp]
  | sbegin => obtain ⟨hp, rfl⟩ := execSbegin_cases h; simp [State.HoldOverOf, hp]
  | setnv => obtain ⟨hp, ⟨-, rfl⟩ | ⟨-, rfl⟩⟩ := execSetnv_cases h <;> simp [State.HoldOverOf, hp]
  | fill =>
    obtain ⟨hp, -, rfl⟩ | ⟨hp, -, rfl⟩ | ⟨hp, hd, rfl⟩ | ⟨hp, hd, rfl⟩ := execFill_cases h
    · simp [State.HoldOverOf, hp]
    · simp [State.HoldOverOf, hp, SeqPhase.num]
    · exact .inl ⟨by simpa only [State.HoldOverOf, hp, not_not] using hd, rfl⟩
    · exact .inr ⟨by simpa only [State.HoldOverOf, hp] using hd, by simp, .inl (by simp)⟩
  | start =>
    obtain ⟨hp, -, rfl⟩ | ⟨hp, -, rfl⟩ | ⟨hp, -, -, rfl⟩ | ⟨hp, hd, rfl⟩ | ⟨hp, hd, rfl⟩ := execStart_cases h
    · simp [State.HoldOverOf, hp]
    · simp [State.HoldOverOf, hp]
    · simp [State.HoldOverOf, hp, SeqPhase.num]
    · exact .inl ⟨by simpa only [State.HoldOverOf, hp] using hd, rfl⟩
    · exact .inr ⟨by simpa only [State.HoldOverOf, hp] using hd, by simp, .inl (by simp)⟩
  | wait =>
    obtain ⟨hp, rfl⟩ | ⟨hp, hd, rfl⟩ | ⟨hp, hd, rfl⟩ := execWait_cases h
    · simp [State.HoldOverOf, hp, SeqPhase.num]
    · exact .inl ⟨by simpa only [State.HoldOverOf, hp] using hd, rfl⟩
    · exact .inr ⟨by simpa only [State.HoldOverOf, hp] using hd, by simp, .inl (by simp)⟩
  | push =>
    obtain ⟨hp, rfl⟩ | ⟨hp, hd, rfl⟩ | ⟨hp, hd, rfl⟩ := execPush_cases h
    · simp [State.HoldOverOf, hp, SeqPhase.num]
    · exact .inl ⟨by simpa only [State.HoldOverOf, hp] using hd, rfl⟩
    · exact .inr ⟨by simpa only [State.HoldOverOf, hp] using hd, by simp, .inl (by simp)⟩
  | tick =>
    obtain ⟨hp, rfl⟩ | ⟨hp, hd, rfl⟩ | ⟨hp, hd, rfl⟩ := execTick_cases h
    · simp [State.HoldOverOf, hp, SeqPhase.num]
    · exact .inl ⟨by simpa only [State.HoldOverOf, hp] using hd, rfl⟩
    · exact .inr ⟨by simpa only [State.HoldOverOf, hp] using hd, by simp, .inl (by simp)⟩
  | sstep =>
    rcases execSstep_cases h with ⟨hp, -, rfl⟩ | ⟨hp, -, -, rfl⟩ | ⟨hp, -, -, rfl⟩ | ⟨hp, hd, rfl⟩ | ⟨hp, hd, rfl⟩ | ⟨hp, hd, rfl⟩ |
      ⟨hp, hd, -, rfl⟩ | ⟨hp, hd, -, rfl⟩ | ⟨hp, hd, rfl⟩ | ⟨hp, hd, rfl⟩
    · simp [State.HoldOverOf, hp]
    · simp [State.HoldOverOf, hp]
    · simp [State.HoldOverOf, hp, SeqPhase.num]
    · exact .inl ⟨by simpa only [State.HoldOverOf, hp, not_not, forall_const] using hd, rfl⟩
    · exact .inr ⟨by simpa only [State.HoldOverOf, hp, forall_const] using hd, by simp, .inr (by simp [hp, SeqPhase.num])⟩
    · exact .inl ⟨by simpa only [State.HoldOverOf, hp, forall_const] using hd, rfl⟩
    · exact .inr ⟨by simpa only [State.HoldOverOf, hp, forall_const] using hd, by simp, .inl (by simp)⟩
    · exact .inr ⟨by simpa only [State.HoldOverOf, hp, forall_const] using hd, by simp, .inr (by simp [hp, SeqPhase.num])⟩
    · exact .inl ⟨by simpa only [State.HoldOverOf, hp, forall_const] using hd, rfl⟩
    · exact .inr ⟨by simpa only [State.HoldOverOf, hp, forall_const] using hd, by simp, .inl (by simp)⟩

/-- SEQ's turn while a command runs: held, or on to a later phase or to the end of the command. -/
theorem seqTurn_hold (h : seqTurn s = .next t) (hp : s.seqPhase ≠ .idle) :
    (¬ s.HoldOver ∧ t = s) ∨
      (s.HoldOver ∧ t.seqCmd = s.seqCmd ∧ (t.seqPhase = .idle ∨ s.seqPhase.num < t.seqPhase.num)) := by
  rcases seqTurn_cases h with ⟨h0, -⟩ | ⟨-, i, hi, he⟩ | ⟨h1, ⟨e, he⟩, rfl⟩
  · exact absurd h0 hp
  · have hd : s.HoldOver ↔ s.HoldOverOf i s.seqPhase :=
      ⟨fun hd => hd i hi, fun hd j hj => by rw [hi] at hj; cases hj; exact hd⟩
    rw [hd]
    exact exec_hold he
  · exact .inr ⟨fun i hi => (nomatch he.symm.trans hi), rfl, .inl rfl⟩

/-- SEQ's turn while the channel is busy leaves the channel and OUTQ (R225). -/
theorem seqTurn_busy (h : seqTurn s = .next t) (hc : s.dma.count ≠ 0) : t.dma = s.dma ∧ t.outq = s.outq := by
  rcases seqTurn_cases h with ⟨-, rfl⟩ | ⟨-, i, -, he⟩ | ⟨-, -, rfl⟩
  · exact ⟨rfl, rfl⟩
  · exact exec_busy he hc
  · exact ⟨rfl, rfl⟩

/-- Whether a hold is over depends on the phase, the command, its count, the record of the drained buffer, and on whether the
channel is idle and OUTQ has room: a step that takes none of the last two away leaves an ended hold ended. -/
theorem State.HoldOver.mono (h : s.HoldOver) (hp : t.seqPhase = s.seqPhase) (hc : t.seqCmd = s.seqCmd)
    (hn : t.seqCount = s.seqCount) (hv : t.status.drainValid = s.status.drainValid)
    (hb : t.status.drainBuf = s.status.drainBuf) (hu : t.status.curBuf = s.status.curBuf)
    (hi : s.ChannelIdle → t.ChannelIdle) (hq : s.CanPush → t.CanPush) : t.HoldOver := by
  have hd : ∀ b, ¬ s.Draining b → ¬ t.Draining b := fun b h1 h2 =>
    h1 ⟨by simpa only [State.Tracks, hv, hb] using h2.1, fun h3 => h2.2 (hi h3)⟩
  intro i he
  have h' := h i (hc ▸ he)
  rw [hp]
  revert h'
  cases i <;> cases s.seqPhase <;> simp only [State.HoldOverOf, hn, hu] <;>
    first | exact fun h => h | exact hi | exact hq | exact hd _ | exact fun h e => (h e).imp_right hi | exact fun h e => hq (h e)

/-- With the channel idle and room in OUTQ, no hold is left (R278). -/
theorem State.holdOver_of_canPush (h : s.CanPush) : s.HoldOver := by
  intro i _
  cases i <;> cases s.seqPhase <;> simp only [State.HoldOverOf] <;>
    first | exact h | exact h.1 | exact fun _ => .inr h.1 | exact fun _ => h | exact fun hd => hd.2 h.1

/-- With the channel idle, only a full OUTQ holds a command (R110). -/
theorem State.queue_full_of_held (h : ¬ s.HoldOver) (hi : s.ChannelIdle) : ¬ s.OutqRoom :=
  fun hq => h (State.holdOver_of_canPush ⟨hi, hq⟩)

/-- No command runs, so nothing holds. -/
theorem State.holdOver_of_idle (h : s.seqPhase = .idle) : s.HoldOver := by
  intro i _
  simp only [State.HoldOverOf, h]

/-- A step of HOST, DMA or OUT while a command runs: the command stays where it is, an idle channel stays idle, and OUTQ grows
only by a step of DMA with the channel busy. -/
theorem step_beside (h : step s = .next t) (hb : s.status.cmdBusy = true) (h1 : s.nextAgent ≠ .seq)
    (h2 : s.nextAgent ≠ .platform) :
    t.seqPhase = s.seqPhase ∧ t.seqCmd = s.seqCmd ∧ t.seqCount = s.seqCount ∧
      t.status.drainValid = s.status.drainValid ∧ t.status.drainBuf = s.status.drainBuf ∧
      t.status.curBuf = s.status.curBuf ∧
      (s.nextAgent = .dma ∧ s.dma.count ≠ 0 ∨ (t.dma = s.dma ∧ t.outq.length ≤ s.outq.length)) := by
  obtain ⟨-, ⟨-, rfl⟩ | ⟨hn, -⟩ | ⟨hn, rfl⟩ | ⟨-, rfl⟩ | ⟨hn, -⟩⟩ := step_cases h
  · rcases s.takeTurn.hostTurn_cases with ⟨hs, seen, e⟩ | ⟨hb', v, hs, e⟩ | ⟨-, hs, e⟩ | ⟨v, hs, -, e⟩ | ⟨hb', v, hs, e⟩ |
      ⟨hb', i, v, w, hs, e⟩ <;> first | exact absurd (hb'.symm.trans hb) Bool.false_ne_true | simp [e, Status.clearErrors]
  · exact absurd hn h1
  · rcases s.takeTurn.dmaTurn_cases with e | ⟨hc, -, w, -, e⟩
    · rw [e]; simp
    · exact ⟨by rw [e]; simp, by rw [e]; simp, by rw [e]; simp, by rw [e]; simp, by rw [e]; simp, by rw [e]; simp, .inl ⟨hn, hc⟩⟩
  · rcases s.takeTurn.outTurn_cases with e | ⟨w, rest, hq, e⟩
    · rw [e]; simp
    · rw [e]; simp at hq; simp [hq]
  · exact absurd hn h2

end Sys2Proof.Machine
end

