-- ==== Sys2Proof/Laws/PerInstr.lean ====
section
/-! SUPPORT. One law per command: its word passes the legality test of its row (R104). -/

namespace Sys2Proof.Laws.LegalWord

/-- The word of a command has exactly the fixed bits of its row: `(w & MASK) == MATCH` (R104). -/
def Statement (i : Instr) : Prop := encode i &&& i.mask = i.pattern

/-- The test, bit by bit. -/
theorem of_bits {i : Instr}
    (h : ∀ k, k < 32 → ((encode i).getLsbD k && i.mask.getLsbD k) = i.pattern.getLsbD k) : Statement i := by
  apply BitVec.eq_of_getLsbD_eq
  intro k hk
  rw [BitVec.getLsbD_and]
  exact h k hk

theorem nop : Statement .nop := by unfold Statement; decide
theorem busy : Statement .busy := by unfold Statement; decide
theorem wait : Statement .wait := by unfold Statement; decide
theorem tick : Statement .tick := by unfold Statement; decide
theorem sbegin : Statement .sbegin := by unfold Statement; decide
theorem sstep : Statement .sstep := by unfold Statement; decide
theorem fill (b : BufId) : Statement (.fill b) := by unfold Statement; revert b; decide
theorem setnv (nv : BitVec 4) : Statement (.setnv nv) := by unfold Statement; revert nv; decide

theorem codec (hi lo : Byte) : Statement (.codec hi lo) := of_bits fun k hk => by
  simp only [encode, packWord_getLsbD, Instr.op, Instr.sel, Instr.imm, Instr.mask, Instr.pattern]
  interval_cases k <;> simp

theorem start (b : BufId) (n : BitVec 16) : Statement (.start b n) := of_bits fun k hk => by
  simp only [encode, packWord_getLsbD, Instr.op, Instr.sel, Instr.imm, Instr.mask, Instr.pattern]
  interval_cases k <;> simp

theorem push (c : Code) : Statement (.push c) := of_bits fun k hk => by
  simp only [encode, packWord_getLsbD, Instr.op, Instr.sel, Instr.imm, Instr.mask, Instr.pattern]
  interval_cases k <;> simp

theorem setinc (v : BitVec 3) (inc : BitVec 16) : Statement (.setinc v inc) := of_bits fun k hk => by
  simp only [encode, packWord_getLsbD, Instr.op, Instr.sel, Instr.imm, Instr.mask, Instr.pattern]
  interval_cases k <;> simp

theorem setph (v : BitVec 3) (ph : BitVec 16) : Statement (.setph v ph) := of_bits fun k hk => by
  simp only [encode, packWord_getLsbD, Instr.op, Instr.sel, Instr.imm, Instr.mask, Instr.pattern]
  interval_cases k <;> simp

end Sys2Proof.Laws.LegalWord
end

