-- ==== Sys2Proof/Laws/Runs.lean ====
section
/-! SUPPORT. Runs: the state after n steps, and that a run at rest stays at rest and is weakly fair (R278, R279). -/

namespace Sys2Proof.Machine

variable {s t : State} {n : Nat}

@[simp] theorem State.nth_zero : s.nth 0 = s := rfl

/-- One more step of a run, where the step answers a next state. -/
theorem State.nth_succ (h : step (s.nth n) = .next t) : s.nth (n + 1) = t := by
  show (match step (s.nth n) with
    | .next t => t
    | .fault _ => s.nth n
    | .refused _ => s.nth n) = t
  rw [h]

/-- A host access that is no command, made while none runs, starts none and leaves the channel, OUTQ and the parameters; the
script loses at most its first access (R33, R269). -/
theorem State.hostTurn_noCommand (h : ∀ a ∈ s.hostScript, a.isCommand = false) (hb : s.status.cmdBusy = false) :
    (∀ a ∈ s.hostTurn.hostScript, a ∈ s.hostScript) ∧ s.hostTurn.status.cmdBusy = false ∧
      s.hostTurn.seqPhase = s.seqPhase ∧ s.hostTurn.dma = s.dma ∧ s.hostTurn.outq = s.outq ∧
      s.hostTurn.params = s.params := by
  unfold State.hostTurn
  split
  · simp [hb]
  · next heq => split <;> simp_all
  · next off w v rest heq =>
    have hoff : off ≠ 0x000 := by simpa [HostAct.isCommand] using h (.write off w v) (by simp [heq])
    split
    · next t ht =>
      rcases State.apertureWrite_cases ht with e | ⟨-, -, e⟩ | e
      · subst e; simp +contextual [heq, hb]
      · have h0 : off.toNat ≠ 0x000 := fun h0 => hoff (BitVec.eq_of_toNat_eq h0)
        rw [e]
        unfold State.regWrite
        split
        · next h1 => exact absurd h1 h0
        · simp +contextual [heq, hb, Status.clearErrors]
        · simp +contextual [heq, hb]
        · simp +contextual [heq, hb]
      · rcases s.chunkWrite_cases (off.toNat - 0x1000) w v with e' | ⟨hb', -⟩ | ⟨-, e'⟩
        · rw [e, e']; simp +contextual [heq, hb]
        · exact absurd (hb.symm.trans hb') Bool.false_ne_true
        · rw [e, e']; simp +contextual [heq, hb]
    · simp [hb]
  · next heq => simp +contextual [heq, hb]

/-- At rest, every step leaves the machine at rest, whoever moves. -/
theorem State.AtRest.step_next (h : s.AtRest) (ha : s.params.admitted = true) :
    ∃ t, step s = .next t ∧ t.AtRest ∧ t.params.admitted = true := by
  have kept : s.takeTurn.AtRest := ⟨h.issued, h.notBusy, h.seqPhase, h.idle, h.outq⟩
  unfold step
  rw [if_pos ha]
  split
  · obtain ⟨h1, h2, h3, h4, h5, h6⟩ := s.takeTurn.hostTurn_noCommand kept.issued kept.notBusy
    exact ⟨_, rfl, ⟨fun a hm => kept.issued a (h1 a hm), h2, h3.trans kept.seqPhase, h4 ▸ kept.idle, h5.trans kept.outq⟩,
      h6.symm ▸ ha⟩
  · exact ⟨s.takeTurn, by simp only [seqTurn, kept.seqPhase], kept, ha⟩
  · rcases s.takeTurn.dmaTurn_cases with e | ⟨hc, -⟩
    · exact ⟨_, rfl, e.symm ▸ kept, e.symm ▸ ha⟩
    · exact absurd kept.idle hc
  · rcases s.takeTurn.outTurn_cases with e | ⟨w, rest, e, -⟩
    · exact ⟨_, rfl, e.symm ▸ kept, e.symm ▸ ha⟩
    · exact absurd (kept.outq.symm.trans e) (List.cons_ne_nil w rest).symm
  · exact ⟨_, rfl, ⟨h.issued, rfl, rfl, h.idle, h.outq⟩, ha⟩

/-- From the step at which a run is at rest, it is at rest at every step. -/
theorem State.atRest_nth (h : (s.nth n).AtRest) (ha : (s.nth n).params.admitted = true) :
    ∀ k, (s.nth (n + k)).AtRest ∧ (s.nth (n + k)).params.admitted = true
  | 0 => ⟨h, ha⟩
  | k + 1 => by
    obtain ⟨h1, h2⟩ := State.atRest_nth h ha k
    obtain ⟨t, ht, ho, hp⟩ := h1.step_next h2
    rw [← Nat.add_assoc, State.nth_succ ht]
    exact ⟨ho, hp⟩

/-- A run that is over stays over (R279). -/
theorem State.Over.add (h : s.Over n) (ha : (s.nth n).params.admitted = true) (k : Nat) : s.Over (n + k) :=
  ⟨h.launch, (State.atRest_nth h.rest ha k).1,
    let ⟨j, hj, hs⟩ := h.seen
    ⟨j, Nat.lt_of_lt_of_le hj (Nat.le_add_right ..), hs⟩⟩

/-- A run that comes to rest is weakly fair: from there on no agent is enabled (R278). -/
theorem State.weaklyFair_of_atRest (h : (s.nth n).AtRest) (ha : (s.nth n).params.admitted = true) : s.WeaklyFair := by
  have fair : ∀ (a : Agent) (enabled : State → Prop), (∀ t : State, t.AtRest → ¬ enabled t) → s.FairTo a enabled :=
    fun a enabled hn k hk => absurd (hk (n + k) (Nat.le_add_left ..)) (hn _ (State.atRest_nth h ha k).1)
  exact ⟨fair _ _ fun t ho he => he.2 ho.outq, fair _ _ fun t ho he => he.1 ho.idle, fair _ _ fun t ho he => he.1 ho.seqPhase⟩

end Sys2Proof.Machine
end

