-- ==== Sys2Proof/Machine/AsmText.lean ====
section
/-! DEFINITION. The assembler's text (spec/30_encoding.md R108, R109): one command a line, the mnemonic and then its
operands separated by commas, numbers decimal or `0x` hexadecimal, `;` starting a comment. -/

namespace Sys2Proof

/-- The value of a digit in base 16; a decimal number then asks that it be below 10. -/
def digitValue (c : Char) : Option Nat :=
  let n := c.toNat
  if 48 ≤ n ∧ n ≤ 57 then some (n - 48)
  else if 65 ≤ n ∧ n ≤ 70 then some (n - 55)
  else if 97 ≤ n ∧ n ≤ 102 then some (n - 87)
  else none

/-- The digits of a number in a base, continuing from `acc`. -/
def parseDigits (base : Nat) : Nat → List Char → Option Nat
  | acc, [] => some acc
  | acc, c :: cs =>
    match digitValue c with
    | some d => if d < base then parseDigits base (base * acc + d) cs else none
    | none => none

/-- A number, decimal or `0x` hexadecimal (R108). -/
def parseNumber : List Char → Option Nat
  | '0' :: 'x' :: c :: cs => parseDigits 16 0 (c :: cs)
  | c :: cs => parseDigits 10 0 (c :: cs)
  | [] => none

/-- Drops blanks at both ends. -/
def trimBlanks (cs : List Char) : List Char :=
  ((cs.dropWhile Char.isWhitespace).reverse.dropWhile Char.isWhitespace).reverse

/-- The operands of a line, split at commas. -/
def splitCommas : List Char → List (List Char)
  | [] => [[]]
  | c :: cs =>
    if c = ',' then [] :: splitCommas cs
    else
      match splitCommas cs with
      | [] => [[c]]
      | x :: xs => (c :: x) :: xs

/-- The operands' numbers; a line with no operand text has none. -/
def parseOperands (cs : List Char) : Option (List Nat) :=
  match trimBlanks cs with
  | [] => some []
  | ds => (splitCommas ds).mapM fun x => parseNumber (trimBlanks x)

/-- The line of a mnemonic and its operands (R108, R109). -/
def lineOf (mnemonic : List Char) (ops : List Nat) : Option AsmLine :=
  match mnemonic, ops with
  | ['N', 'O', 'P'], [] => some .nop
  | ['C', 'O', 'D', 'E', 'C'], [x] => some (.codec x)
  | ['F', 'I', 'L', 'L'], [b] => some (.fill b)
  | ['S', 'T', 'A', 'R', 'T'], [b, n] => some (.start b n)
  | ['B', 'U', 'S', 'Y'], [] => some .busy
  | ['W', 'A', 'I', 'T'], [] => some .wait
  | ['P', 'U', 'S', 'H'], [c] => some (.push c)
  | ['T', 'I', 'C', 'K'], [] => some .tick
  | ['S', 'E', 'T', 'I', 'N', 'C'], [v, x] => some (.setinc v x)
  | ['S', 'E', 'T', 'P', 'H'], [v, x] => some (.setph v x)
  | ['S', 'E', 'T', 'N', 'V'], [n] => some (.setnv n)
  | ['S', 'B', 'E', 'G', 'I', 'N'], [] => some .sbegin
  | ['S', 'S', 'T', 'E', 'P'], [] => some .sstep
  | ['I', 'D', 'L', 'E'], [] => some .idle
  | ['C', 'O', 'D', 'E', 'C', 'B'], [lo, hi] => some (.codecb lo hi)
  | ['V', 'O', 'I', 'C', 'E'], [v, x] => some (.voice v x)
  | ['D', 'R', 'A', 'I', 'N'], [] => some .drain
  | _, _ => none

/-- The words of one line of text: none for an assembly error, no words for a blank line or a comment (R108). -/
def assembleText (line : List Char) : Option (List Word) :=
  let code := trimBlanks (line.takeWhile (· ≠ ';'))
  match code with
  | [] => some []
  | _ =>
    match parseOperands (code.dropWhile fun c => !c.isWhitespace) with
    | none => none
    | some ops =>
      match lineOf (code.takeWhile fun c => !c.isWhitespace) ops with
      | some l => l.assemble
      | none => none

end Sys2Proof
end

