-- ==== Sys2Proof/Tests/Slice0.lean ====
section
/-! SUPPORT. The model's own tests. The expected values are those of spec/95_test_vectors.md, whose vector each test names,
or worked out from the rule it names. The theorems named `witness_` show a state and operands that meet the hypotheses of
an obligation together. -/

namespace Sys2Proof.Tests

open Sys2Proof Sys2Proof.Machine

-- One theorem at a time: a hundred evaluations at once would each want a thread of their own.
set_option Elab.async false

/-! ### Small states -/

/-- A part of the state after a step; none where the step stops. -/
def after {α : Type} (f : State → α) : Host.Outcome State Fault Refusal → Option α
  | .next s => some (f s)
  | _ => none

/-- The reference launch with the command word `w` running, its next phase `p`, and SEQ to move. -/
def running (w : Word) (p : SeqPhase) : State :=
  { State.reset with
    seqCmd := w, seqPhase := p, status := { Status.reset with cmdBusy := true }, turns := [.seq] }

/-- A transfer of `n` words of buffer 0 in flight, recorded by the engine (R212). -/
def drained (n : Word) (s : State) : State :=
  { s with
    dma := ⟨0x40002000, 0x50200010, n, 0x0020001B⟩, status := { s.status with drainValid := true, drainBuf := 0 } }

/-- OUTQ full: four words at the reference depth. -/
def full (s : State) : State := { s with outq := [1, 2, 3, 4] }

/-- The stream ACTIVE at buffer `b`. -/
def streaming (b : BufId) (s : State) : State :=
  { s with status := { s.status with streamState := .active, curBuf := b } }

/-- The chunk of vector F1: 00 00 34 12 FF 7F 00 80, CHUNK_LEN 8. -/
def chunkF1 (s : State) : State :=
  { s with
    chunkLen := 8
    mem := [(0x40001000, 0x00), (0x40001001, 0x00), (0x40001002, 0x34), (0x40001003, 0x12),
      (0x40001004, 0xFF), (0x40001005, 0x7F), (0x40001006, 0x00), (0x40001007, 0x80)] }

/-- Voices 0 and 1 with these increments and phases, `n` voices, and the next key draw. -/
def voices (n : BitVec 4) (i0 i1 p0 p1 : BitVec 16) (keys : BitVec 8) (s : State) : State :=
  { s with
    nvoices := n
    inc := #v[i0, i1, 0, 0, 0, 0, 0, 0]
    phase := #v[p0, p1, 0, 0, 0, 0, 0, 0]
    keysNext := [keys] }

/-- Every voice with one increment, phase 0, and the next key draw. -/
def chorus (n : BitVec 4) (i : BitVec 16) (keys : BitVec 8) (s : State) : State :=
  { s with nvoices := n, inc := Vector.replicate 8 i, keysNext := [keys] }

/-- HOST to move, with one access to make. -/
def hosting (a : HostAct) (s : State) : State := { s with turns := [.host], hostScript := [a] }

/-! ### Operand ranges of assembler lines (R108, R109) -/

theorem test_codec_range : (AsmLine.codec 65535).wellFormed = true ∧ (AsmLine.codec 65536).wellFormed = false := by decide

theorem test_fill_range : (AsmLine.fill 1).wellFormed = true ∧ (AsmLine.fill 2).wellFormed = false := by decide

theorem test_start_range : (AsmLine.start 1 65535).wellFormed = true ∧ (AsmLine.start 2 0).wellFormed = false ∧
    (AsmLine.start 0 65536).wellFormed = false := by decide

theorem test_push_range : (AsmLine.push 1023).wellFormed = true ∧ (AsmLine.push 1024).assemble = none := by decide

theorem test_setinc_range : (AsmLine.setinc 7 65535).wellFormed = true ∧ (AsmLine.setinc 8 0).wellFormed = false ∧
    (AsmLine.setinc 0 65536).wellFormed = false := by decide

theorem test_setph_range : (AsmLine.setph 7 65535).wellFormed = true ∧ (AsmLine.setph 8 0).wellFormed = false ∧
    (AsmLine.setph 0 65536).wellFormed = false := by decide

theorem test_setnv_range : (AsmLine.setnv 15).wellFormed = true ∧ (AsmLine.setnv 16).wellFormed = false := by decide

theorem test_codecb_range : (AsmLine.codecb 255 255).wellFormed = true ∧ (AsmLine.codecb 256 0).wellFormed = false ∧
    (AsmLine.codecb 0 256).wellFormed = false := by decide

theorem test_voice_range : (AsmLine.voice 7 65535).wellFormed = true ∧ (AsmLine.voice 8 0).wellFormed = false ∧
    (AsmLine.voice 0 65536).wellFormed = false := by decide

/-! ### Encodings: IMM, RSV, SEL and OP written out from R101 to R104, the examples of table E -/

theorem test_decode_nop : decodeWord (0b0000000000000000#16 ++ 0b00000000#8 ++ 0b0000#4 ++ 0b0000#4) = .ok .nop := by decide

theorem test_decode_codec :
    decodeWord (0b0001001000110100#16 ++ 0b00000000#8 ++ 0b0000#4 ++ 0b0001#4) = .ok (.codec 0x12 0x34) := by decide

theorem test_decode_fill :
    decodeWord (0b0000000000000000#16 ++ 0b00000000#8 ++ 0b0001#4 ++ 0b0010#4) = .ok (.fill 1) := by decide

theorem test_decode_start :
    decodeWord (0b0000000000000100#16 ++ 0b00000000#8 ++ 0b0001#4 ++ 0b0011#4) = .ok (.start 1 4) := by decide

theorem test_decode_busy : decodeWord (0b0000000000000000#16 ++ 0b00000000#8 ++ 0b0000#4 ++ 0b0100#4) = .ok .busy := by decide

theorem test_decode_wait : decodeWord (0b0000000000000000#16 ++ 0b00000000#8 ++ 0b0000#4 ++ 0b0101#4) = .ok .wait := by decide

theorem test_decode_push :
    decodeWord (0b0000001111111111#16 ++ 0b00000000#8 ++ 0b0000#4 ++ 0b0110#4) = .ok (.push 1023) := by decide

theorem test_decode_tick : decodeWord (0b0000000000000000#16 ++ 0b00000000#8 ++ 0b0000#4 ++ 0b0111#4) = .ok .tick := by decide

theorem test_decode_setinc :
    decodeWord (0b0000101010001111#16 ++ 0b00000000#8 ++ 0b0001#4 ++ 0b1000#4) = .ok (.setinc 1 2703) := by decide

theorem test_decode_setph :
    decodeWord (0b0100000000000000#16 ++ 0b00000000#8 ++ 0b0111#4 ++ 0b1001#4) = .ok (.setph 7 0x4000) := by decide

theorem test_decode_setnv :
    decodeWord (0b0000000000001001#16 ++ 0b00000000#8 ++ 0b0000#4 ++ 0b1010#4) = .ok (.setnv 9) := by decide

theorem test_decode_sbegin :
    decodeWord (0b0000000000000000#16 ++ 0b00000000#8 ++ 0b0000#4 ++ 0b1011#4) = .ok .sbegin := by decide

theorem test_decode_sstep :
    decodeWord (0b0000000000000000#16 ++ 0b00000000#8 ++ 0b0000#4 ++ 0b1100#4) = .ok .sstep := by decide

/-- The illegal words of table E whose OP is not reserved. -/
theorem test_fixed_bits :
    decodeWord 0x00000100 = .error .fixedBits ∧ decodeWord 0x00000010 = .error .fixedBits ∧
    decodeWord 0x12340011 = .error .fixedBits ∧ decodeWord 0x00000022 = .error .fixedBits ∧
    decodeWord 0x00010002 = .error .fixedBits ∧ decodeWord 0x00040023 = .error .fixedBits ∧
    decodeWord 0x00010004 = .error .fixedBits ∧ decodeWord 0x04000006 = .error .fixedBits ∧
    decodeWord 0x02000016 = .error .fixedBits ∧ decodeWord 0x0A8F0088 = .error .fixedBits ∧
    decodeWord 0x0010000A = .error .fixedBits ∧ decodeWord 0x12340101 = .error .fixedBits := by
  refine ⟨?_, ?_, ?_, ?_, ?_, ?_, ?_, ?_, ?_, ?_, ?_, ?_⟩ <;> decide

/-- The illegal words of table E with a reserved OP. -/
theorem test_reserved_op :
    decodeWord 0x0000000D = .error .reservedOp ∧ decodeWord 0x0000000E = .error .reservedOp ∧
    decodeWord 0x0000000F = .error .reservedOp ∧ decodeWord 0xFFFFFFFF = .error .reservedOp := by
  refine ⟨?_, ?_, ?_, ?_⟩ <;> decide

theorem test_bytes : decodeBytes [0x13, 0x00, 0x04, 0x00, 0xAA] = .ok (.start 1 4, [0xAA]) := by decide

theorem test_short_bytes : decodeBytes [0x13, 0x00, 0x04] = .error .truncated := by decide

theorem test_table_word : decodeTableWord 32 0x070A0008 = some (.setinc 0 1802) := by decide

/-! ### Assembler text (R108, R109) -/

theorem test_text_hex : assembleText "CODEC 0x1234     ; a comment".toList = some [0x12340001] := by decide +kernel

theorem test_text_codecb : assembleText "CODECB 0x34, 0x12".toList = some [0x12340001] := by decide +kernel

theorem test_text_voice : assembleText "VOICE 1, 2703".toList = some [0x0A8F0018, 0x00000019] := by decide +kernel

theorem test_text_drain : assembleText "DRAIN".toList = some [0x00000005, 0x02000006] := by decide +kernel

theorem test_text_out_of_range : assembleText "PUSH 1024".toList = none := by decide +kernel

/-! ### Sample codec (table C) -/

/-- Vectors C1 to C21. -/
theorem test_codec_table :
    codec 0x00 0x00 = 512 ∧ codec 0x34 0x12 = 720 ∧ codec 0xFF 0x7F = 510 ∧ codec 0x00 0x80 = 514 ∧ codec 0xFF 0xFF = 512 ∧
    codec 0x80 0x00 = 0 ∧ codec 0x7F 0x00 = 1020 ∧ codec 0xFF 0xDF = 511 ∧ codec 0x01 0x00 = 516 ∧ codec 0x00 0xFF = 516 ∧
    codec 0x00 0x20 = 513 ∧ codec 0x00 0x1F = 512 ∧ codec 0x7F 0x20 = 1021 ∧ codec 0x80 0xFF = 4 ∧ codec 0xFF 0x00 = 508 ∧
    codec 0x7F 0xFF = 0 ∧ codec 0xFF 0xE0 = 512 ∧ codec 0x80 0x80 = 2 ∧ codec 0x7F 0x7F = 1022 ∧ codec 0x01 0xFF = 520 ∧
    codec 0xFE 0xFF = 508 := by
  refine ⟨?_, ?_, ?_, ?_, ?_, ?_, ?_, ?_, ?_, ?_, ?_, ?_, ?_, ?_, ?_, ?_, ?_, ?_, ?_, ?_, ?_⟩ <;> decide

/-- Vector C3. -/
theorem test_codec_result : after (fun s => (s.result, s.status.toWord, s.seqPhase))
    (step (State.reset.withFetchWord 32 0x7FFF0001)) = some (510, 0, .idle) := by decide +kernel

/-- The corner after table C: CODEC with RSV set is illegal and RESULT keeps its value. -/
theorem test_codec_illegal : after (fun s => (s.result, s.status.toWord))
    (step ({ State.reset with result := 7 }.withFetchWord 32 0x12340101)) = some (7, 0x00000100) := by decide +kernel

/-! ### Oscillator bank (table O) -/

/-- Vector O1: the phase wraps, and the code is pushed and reported. -/
theorem test_tick_wraps : after (fun s => (s.phase[0], s.mixLast, s.result, s.outq))
    (step (voices 1 1 0 0xFFFF 0 0x01 (running 0x00000007 .two))) = some (0, 64, 64, [64]) := by decide +kernel

/-- Vector O6: keys outside NVOICES move nothing; KEYS_LAST takes every line. -/
theorem test_tick_keys : after (fun s => (s.phase[0], s.mixLast, s.keysLast))
    (step (chorus 3 16384 0xF8 (running 0x00000007 .two))) = some (0, 0, 0xF8) := by decide +kernel

/-- Vectors O2, O4 and O10: the phase of voice 0 and the code. -/
theorem test_mixer_one :
    (voices 1 0x0200 0 0xFF00 0 0 State.reset).tickPhase 0x01 0 = 0x0100 ∧
    (voices 1 0x0200 0 0xFF00 0 0 State.reset).mixCode 0x01 = 65 ∧
    (voices 1 0x8000 0 0 0 0 State.reset).mixCode 0x01 = 64 ∧
    (voices 1 0 0 0x4000 0 0 State.reset).mixCode 0x01 = 127 := by decide +kernel

/-- Vectors O9 and O12: two voices sounding, and one of two. -/
theorem test_mixer_two :
    (voices 2 8192 40960 0 0 0 State.reset).tickPhase 0x03 1 = 40960 ∧
    (voices 2 8192 40960 0 0 0 State.reset).mixCode 0x03 = 128 ∧
    (voices 2 1802 2703 0 0 0 State.reset).tickPhase 0x01 1 = 0 ∧
    (voices 2 1802 2703 0 0 0 State.reset).mixCode 0x01 = 74 := by decide +kernel

/-- Vectors O5, O7 and O11: eight voices at the two ends of the range, and none. -/
theorem test_mixer_ends : (chorus 8 16384 0xFF State.reset).mixCode 0xFF = 1023 ∧
    (chorus 0 16384 0xFF State.reset).mixCode 0xFF = 0 ∧ (chorus 8 49152 0xFF State.reset).mixCode 0xFF = 1 := by
  decide +kernel

/-- The note on SETPH under table O: the tick adds the increment first, so the index is 256 and the code 64. -/
theorem test_setph_then_tick : after (fun s => s.mixLast)
    (step (voices 1 16384 0 0x4000 0 0x01 (running 0x00000007 .two))) = some 64 := by decide +kernel

theorem test_setph : after (fun s => (s.phase[7], s.phase[6], s.inc[7]))
    (step (State.reset.withFetchWord 32 0x40000079)) = some (0x4000, 0, 0) := by decide +kernel

theorem test_setinc : after (fun s => (s.inc[1], s.inc[0], s.phase[1]))
    (step (State.reset.withFetchWord 32 0x0A8F0018)) = some (2703, 0, 0) := by decide +kernel

theorem test_setnv : after (fun s => (s.nvoices, s.status.toWord))
    (step (State.reset.withFetchWord 32 0x0008000A)) = some (8, 0) := by decide +kernel

/-- Vector X6. -/
theorem test_setnv_error : after (fun s => (s.nvoices, s.status.toWord))
    (step (State.reset.withFetchWord 32 0x0009000A)) = some (0, 0x00000200) := by decide +kernel

/-- R9, C1: the entries table O uses. -/
theorem test_wave_rom : [0, 2, 14, 21, 28, 42, 63, 64, 128, 256, 320, 384].map State.reset.romEntry =
    [512, 525, 599, 642, 684, 764, 869, 873, 1023, 512, 151, 1] := by decide +kernel

/-- R155: `WAVE_ROM[k] + WAVE_ROM[k+256]` = 1024 for k in 0..255. -/
theorem test_wave_rom_symmetry : ((romQuarter0 ++ romQuarter1).zip (romQuarter2 ++ romQuarter3)).all
    (fun e => e.1.toNat + e.2.toNat == 1024) = true := by decide +kernel

/-- The increments under table O. -/
theorem test_increments : hostIncrement 440 16000 = 1802 ∧ hostIncrement 660 16000 = 2703 ∧
    hostIncrement 4000 16000 = 16384 := by decide +kernel

/-- R161, D31: a fractional frequency (65536 × 440.5 / 16000 = 1804.288), and halves to even (0.5, 1.5 and 2.5). -/
theorem test_increment_rounds : hostIncrement (881 / 2) 16000 = 1804 ∧ hostIncrement 1 131072 = 0 ∧
    hostIncrement 3 131072 = 2 ∧ hostIncrement 5 131072 = 2 := by decide +kernel

/-! ### Double-buffer controller (table F) -/

/-- Vector F1. -/
theorem test_fill : after (fun s => (s.bufWord 0 0, s.bufWord 0 1, s.bufWord 0 2, s.bufWord 0 3, s.result))
    (step (chunkF1 (running 0x00000002 .two))) = some (0x200, 0x2D0, 0x1FE, 0x202, 4) := by decide +kernel

/-- Vector F4. -/
theorem test_fill_error : after (fun s => (s.status.toWord, s.result, s.mem))
    (step ({ State.reset with chunkLen := 9 }.withFetchWord 32 0x00000002)) = some (0x00000200, 0, []) := by decide +kernel

/-- Vectors F5 and F6: a fill of the drained buffer holds, and a fill of the other does not. -/
theorem test_fill_hold :
    after (fun s => s.seqPhase) (step (drained 3 (chunkF1 (running 0x00000002 .two)))) = some .two ∧
    after (fun s => s.bufWord 1 1) (step (drained 3 (chunkF1 (running 0x00000012 .two)))) = some 0x2D0 := by decide +kernel

/-- Vector F7. -/
theorem test_sbegin : after (fun s => s.status.toWord) (step (State.reset.withFetchWord 32 0x0000000B)) =
    some 0x00000004 := by decide +kernel

/-- Vector F10, phase 3. -/
theorem test_sstep_submits : after (fun s => (s.dma, s.result, s.status.toWord))
    (step { streaming 0 (running 0x0000000C .three) with seqCount := 4 }) =
    some (⟨0x40002000, 0x50200010, 4, 0x0020001B⟩, 4, 0x00000034) := by decide +kernel

/-- Vector F13. -/
theorem test_sstep_error : after (fun s => s.status.toWord)
    (step ({ State.reset with chunkLen := 9 }.withFetchWord 32 0x0000000C)) = some 0x00000400 := by decide +kernel

/-! ### Transfer and output (table T) -/

/-- Vector T1. -/
theorem test_start : after (fun s => (s.dma, s.status.toWord)) (step (running 0x00030013 .two)) =
    some (⟨0x40002010, 0x50200010, 3, 0x0020001B⟩, 0x00000060) := by decide +kernel

/-- Vector T3. -/
theorem test_start_error : after (fun s => s.status.toWord) (step (State.reset.withFetchWord 32 0x00050003)) =
    some 0x00000200 := by decide +kernel

/-- Vectors T5 and T6. -/
theorem test_busy : after (fun s => s.result) (step (drained 2 (running 0x00000004 .one))) = some 1 ∧
    after (fun s => s.result) (step (running 0x00000004 .one)) = some 0 := by decide +kernel

/-- Vector T7: the hold, and its end. -/
theorem test_wait : after (fun s => s.seqPhase) (step (drained 2 (running 0x00000005 .two))) = some .two ∧
    after (fun s => s.seqPhase) (step (drained 0 (running 0x00000005 .two))) = some .idle := by decide +kernel

/-- Vectors T8 and T9. -/
theorem test_push : after (fun s => s.outq) (step (running 0x02000006 .two)) = some [0x00000200] ∧
    after (fun s => s.outq) (step (full (running 0x00070006 .two))) = some [1, 2, 3, 4] := by decide +kernel

/-- Vector T11. -/
theorem test_nop : after (fun s => { s with clock := 0, seqCmd := 0 }) (step (State.reset.withFetchWord 32 0)) =
    some State.reset := by decide +kernel

/-- Vector T10, its last word: the channel moves word 2 of buffer 1 and is then idle. -/
theorem test_dma : after (fun s => (s.outq, s.dma.readAddr, s.dma.count))
    (step { State.reset with
      turns := [.dma], mem := [(0x40002018, 3), (0x40002019, 0), (0x4000201A, 0), (0x4000201B, 0)]
      dma := ⟨0x40002018, 0x50200010, 1, 0x0020001B⟩, outq := [1, 2]
      status := { Status.reset with drainValid := true, drainBuf := 1 } }) = some ([1, 2, 3], 0x4000201C, 0) := by
  decide +kernel

/-- R223: OUT ignores bits 31:10. -/
theorem test_out : after (fun s => (s.outq, s.dacOut)) (step { State.reset with turns := [.out], outq := [0xFFFFFC07, 2] }) =
    some ([2], [7]) := by decide +kernel

/-! ### Errors, STATUS and the host's accesses (table X) -/

/-- Vector X1. -/
theorem test_reserved_word : after (fun s => s.status.toWord) (step (State.reset.withFetchWord 32 0x0000000D)) =
    some 0x00000100 := by decide +kernel

/-- Vector X2. -/
theorem test_overrun : after (fun s => (s.status.toWord, s.seqCmd, s.seqPhase))
    (step (hosting (.write 0x000 .word 0) (running 0x00000005 .two))) = some (0x00000801, 0x00000005, .two) := by decide +kernel

/-- Vector X3. -/
theorem test_chunk_len_busy : after (fun s => (s.status.errOverrun, s.chunkLen))
    (step (hosting (.write 0x00C .word 2) (chunkF1 (running 0x00000002 .two)))) = some (true, 8) := by decide +kernel

/-- Vector X4. -/
theorem test_write_one_to_clear : after (fun s => s.status.toWord)
    (step (hosting (.write 0x004 .word 0x00000500) { State.reset with
      status := { Status.reset with errIllegal := true, errArg := true, errSeq := true, errOverrun := true } })) =
    some 0x00000A00 := by decide +kernel

/-- R72, R74, R75: a halfword write of the chunk RAM, and the bytes it leaves. -/
theorem test_chunk_write : after (fun s => (s.chunkByte 6, s.chunkByte 7, s.mem.length))
    (step (hosting (.write 0x1006 .half 0xDDDD8034) State.reset)) = some (0x34, 0x80, 2) := by decide +kernel

/-- R76: a misaligned access has no step. -/
theorem test_misaligned : after (fun s => s.hostScript.length) (step (hosting (.write 0x1001 .half 1) State.reset)) =
    some 1 := by decide +kernel

/-- R40: the host reads BUF_WORDS. -/
theorem test_buf_words : after (fun s => s.hostSeen) (step (hosting (.read 0x01C .word) State.reset)) = some [4] := by
  decide +kernel

/-- R210: the channel's four registers stand at offsets 0x0, 0x4, 0x8 and 0xC from `DMA_CH_BASE`. -/
theorem test_dma_registers : [0x50000000, 0x50000004, 0x50000008, 0x5000000C, 0x50000010].map
    (DmaReg.atAddress 0x50000000) = [some .readAddr, some .writeAddr, some .transCount, some .ctrlTrig, none] := by decide

/-- R72, R75: a halfword read of the chunk's last bytes, and a word read past it. -/
theorem test_chunk_read : (chunkF1 State.reset).apertureRead .host 0x1006 .half = some 0x00008000 ∧
    (chunkF1 State.reset).apertureRead .host 0x1008 .word = some 0 := by decide +kernel

/-- R275, U15: before SSTEP writes RESULT, a read of it returns the old value. -/
theorem test_result_while_busy :
    ({ running 0x0000000C .three with result := 3, resultBefore := 3 } : State).apertureRead .host 0x008 .word = some 3 := by
  simp [State.apertureRead, aligned, Width.bytes, State.regRead, State.resultRead]

/-- A launch whose host issues CODEC 0x7FFF and polls, once SEQ has moved. -/
def codecRun : State :=
  { State.reset with hostScript := issue (.codec 0x7F 0xFF), turns := [.host, .seq, .host] }

/-- R279: the poll ends the run; before it, after the command has ended, the machine is at rest and the run is not over. -/
theorem test_run_over : codecRun.Over 3 ∧ (codecRun.nth 2).AtRest ∧ ¬ codecRun.Over 2 := by
  refine ⟨⟨⟨rfl, rfl, rfl, rfl, rfl, rfl, rfl, rfl, rfl, rfl, rfl, rfl, rfl, by decide⟩,
      ⟨by decide +kernel, by decide +kernel, by decide +kernel, by decide +kernel, by decide +kernel⟩,
      2, by decide, by decide +kernel, by decide +kernel, by decide +kernel, [], .inl (by decide +kernel)⟩,
    ⟨by decide +kernel, by decide +kernel, by decide +kernel, by decide +kernel, by decide +kernel⟩, fun h => ?_⟩
  obtain ⟨k, hk, hi, hn, -, -⟩ := h.seen
  have h0 : ¬ ∀ a ∈ (codecRun.nth 0).hostScript, a.isCommand = false := by decide +kernel
  have h1 : (codecRun.nth 1).nextAgent = .seq := by decide +kernel
  interval_cases k
  · exact h0 hi
  · rw [h1] at hn; cases hn

/-- R279, vector C3: what the run shows at its end. -/
theorem test_observation : (codecRun.nth 3).observation.result = 510 ∧ (codecRun.nth 3).observation.status = 0 ∧
    (codecRun.nth 3).observation.dacOut = [] ∧ (codecRun.nth 3).observation.buffers.1.length = 4 := by decide +kernel

/-! ### Memory -/

/-- Writes keep the addresses rising, in whatever order they come, and the last one of an address counts. -/
theorem test_memory : Memory.write (Memory.write (Memory.write [] 5 1) 3 2) 5 9 = [(3, 2), (5, 9)] := by decide

/-! ### Witnesses: encoding and the step -/

theorem witness_EncodeOfDecode : decodeWord 0x00040013 = .ok (.start 1 4) ∧ encode (.start 1 4) = 0x00040013 := by decide

theorem witness_ReservedEncodingsAreIllegal :
    0xD ≤ ((0x0000000D : Word).extractLsb' 0 4).toNat ∧
    ((0x04000006 : Word).extractLsb' 0 4 = 0x6 ∧ (0x04000006 : Word) &&& 0xFC00FFFF ≠ 0x00000006) ∧
    ((0x03FF0006 : Word).extractLsb' 0 4 = 0x6 ∧ (0x03FF0006 : Word) &&& 0xFC00FFFF = 0x00000006) := by decide

/-- A line inside its range and a line outside it. -/
theorem witness_AssemblerProducesItsCommands :
    (AsmLine.start 1 65535).assemble = some [0xFFFF0013] ∧ (AsmLine.start 1 65536).assemble = none ∧
    (AsmLine.voice 7 65535).assemble = some [0xFFFF0078, 0x00000079] := by decide

theorem witness_StepRunsTheDecodedCommand :
    let s := running 0x00040013 .two
    s.params.admitted = true ∧ s.nextAgent = .seq ∧ s.seqPhase ≠ .idle ∧ decodeWord s.seqCmd = .ok (.start 1 4) := by decide

theorem witness_PlacedWordIsTheNextToRun :
    State.reset.params.admitted = true ∧ decodeWord 0x00040013 = .ok (.start 1 4) := by decide

theorem witness_StepOfEachOtherAgent : State.reset.params.admitted = true ∧
    ({ State.reset with turns := [.host] } : State).nextAgent = .host ∧
    ({ State.reset with turns := [.dma] } : State).nextAgent = .dma ∧
    ({ State.reset with turns := [.out] } : State).nextAgent = .out ∧
    ({ State.reset with turns := [.platform] } : State).nextAgent = .platform ∧
    ({ State.reset with turns := [.seq] } : State).nextAgent = .seq ∧ State.reset.seqPhase = .idle := by decide

/-- The two ends of R9's ranges, and a control word with each of R211's fields wrong in turn. -/
theorem witness_BadLaunchIsRefused :
    (({ referenceParams with bufWords := 0 } : Params).admitted = false ∧
      ({ referenceParams with bufWords := 1025 } : Params).admitted = false ∧
      ({ referenceParams with bufWords := 1024 } : Params).admitted = true ∧
      ({ referenceParams with outFifoDepth := 0 } : Params).admitted = false ∧
      ({ referenceParams with blockBase := 0x40002000 } : Params).admitted = false ∧
      ({ referenceParams with dmaChBase := 0x50000002 } : Params).admitted = false ∧
      ({ referenceParams with outTxfAddr := 0x50200011 } : Params).admitted = false ∧
      ({ referenceParams with dmaChannel := 1 } : Params).admitted = false) ∧
    ∀ c ∈ [0x0020001A, 0x00200019, 0x00200017, 0x0020000B, 0x0020003B, 0x0020005B, 0x0020041B, 0x0020081B, 0x0020801B,
        0x0000001B, 0x0060001B, 0x8020001B],
      ({ referenceParams with dmaCtrlWord := c } : Params).admitted = false := by
  simp only [List.forall_mem_cons]
  refine ⟨?_, ?_⟩
  · decide
  · refine ⟨?_, ?_, ?_, ?_, ?_, ?_, ?_, ?_, ?_, ?_, ?_, ?_, fun _ h => absurd h List.not_mem_nil⟩ <;> decide

/-! ### Witnesses: errors and holds -/

theorem witness_IllegalWordRaisesErrIllegal :
    let s := running 0x04000006 .one
    s.params.admitted = true ∧ s.nextAgent = .seq ∧ s.seqPhase = .one ∧ decodeWord s.seqCmd = .error .fixedBits := by decide

theorem witness_ArgumentAndSequenceErrors :
    let s := running 0 .one
    s.seqPhase = .one ∧ (5 : BitVec 16).toNat > s.params.bufWords ∧ (9 : BitVec 4).toNat > 8 ∧
    ({ s with chunkLen := 9 } : State).chunkLen.toNat > 2 * s.params.bufWords ∧ s.status.streamState ≠ .active ∧
    (streaming 0 { s with chunkLen := 9 }).status.streamState = .active := by decide

theorem witness_ChecksPassToPhaseTwo :
    let s := streaming 0 (chunkF1 (running 0 .one))
    s.seqPhase = .one ∧ (4 : BitVec 16) ≠ 0 ∧ (4 : BitVec 16).toNat ≤ s.params.bufWords ∧
    s.chunkLen.toNat ≤ 2 * s.params.bufWords ∧ s.status.streamState = .active := by decide

/-- A hold on the channel, a hold on OUTQ alone, and a hold of SSTEP's third phase. -/
theorem witness_HoldsLeaveTheStateAlone :
    ((drained 3 (running 0 .two)).seqPhase = .two ∧ (drained 3 (running 0 .two)).dma.count ≠ 0 ∧
      (drained 3 (running 0 .two)).status.drainValid = true ∧ (drained 3 (running 0 .two)).status.drainBuf = 0 ∧
      (drained 3 (running 0 .two)).status.drainBuf = (drained 3 (running 0 .two)).status.curBuf) ∧
    ((full (running 0 .four)).seqPhase = .four ∧
      (full (running 0 .four)).params.outFifoDepth ≤ (full (running 0 .four)).outq.length) ∧
    (({ drained 3 (running 0 .three) with seqCount := 1 } : State).seqPhase = .three ∧
      ({ drained 3 (running 0 .three) with seqCount := 1 } : State).seqCount ≠ 0) := by decide

/-! ### Witnesses: codec, oscillator, buffers -/

/-- v at its two ends: 1024 for FF FF, and 1023, the last v of the second clause, for FF DF. -/
theorem witness_CodecClosedForm :
    4 * (0xFF : Byte).toNat + ((0xFF : Byte).toNat + 32) / 64 = 1024 ∧
    4 * (0xFF : Byte).toNat + ((0xDF : Byte).toNat + 32) / 64 = 1023 := by decide

theorem witness_CodecWritesTheCode : (running 0x12340001 .one).seqPhase = .one := by decide

theorem witness_TickAdvancesMixesAndPushes :
    let s := voices 1 1 0 0xFFFF 0 0x01 (running 0x00000007 .two)
    s.seqPhase = .two ∧ s.dma.count = 0 ∧ s.outq.length < s.params.outFifoDepth := by decide

theorem witness_SilentTickPushesZero :
    let s := chorus 3 16384 0xF8 (running 0x00000007 .two)
    s.seqPhase = .two ∧ s.dma.count = 0 ∧ s.outq.length < s.params.outFifoDepth ∧
    (∀ v : Fin 8, v.val < s.nvoices.toNat → s.keyDraw.getLsbD v.val = false) := by decide

theorem witness_PhasePeriod :
    let s := voices 1 1802 0 0 0 0x01 State.reset
    (0 : Fin 8).val < s.nvoices.toNat ∧ (0x01 : BitVec 8).getLsbD (0 : Fin 8).val = true ∧
    65536 / Nat.gcd 65536 (s.inc[(0 : Fin 8)]).toNat = 32768 := by decide

theorem witness_VoiceCommandsWriteTheirRegister :
    (running 0x0008000A .one).seqPhase = .one ∧ (8 : BitVec 4).toNat ≤ 8 := by decide

/-- Nothing drains; and the other buffer drains. -/
theorem witness_FillWritesTheChunk :
    let s := chunkF1 (running 0x00000002 .two)
    let t := drained 3 (chunkF1 (running 0x00000012 .two))
    (s.params.admitted = true ∧ s.seqPhase = .two ∧
      ¬ (s.status.drainValid = true ∧ s.status.drainBuf = 0 ∧ s.dma.count ≠ 0) ∧
      s.chunkLen.toNat ≤ 2 * s.params.bufWords ∧ 3 < s.chunkLen.toNat / 2) ∧
    (t.seqPhase = .two ∧ ¬ (t.status.drainValid = true ∧ t.status.drainBuf = 1 ∧ t.dma.count ≠ 0) ∧
      t.chunkLen.toNat ≤ 2 * t.params.bufWords) := by decide

theorem witness_SbeginStartsAStream : (running 0x0000000B .one).seqPhase = .one := by decide

theorem witness_SstepFills :
    let s := drained 3 (streaming 1 (chunkF1 (running 0x0000000C .two)))
    s.params.admitted = true ∧ s.seqPhase = .two ∧
    ¬ (s.status.drainValid = true ∧ s.status.drainBuf = s.status.curBuf ∧ s.dma.count ≠ 0) ∧
    s.chunkLen.toNat ≤ 2 * s.params.bufWords ∧ 3 < s.chunkLen.toNat / 2 := by decide

/-- A full buffer, a short one, and an empty one while the channel is busy. -/
theorem witness_SstepSubmitsAndSwaps :
    let s := { streaming 1 (running 0x0000000C .three) with seqCount := 4 }
    let t := { streaming 1 (running 0x0000000C .three) with seqCount := 3 }
    let u := drained 3 (streaming 1 (running 0x0000000C .three))
    (s.seqPhase = .three ∧ (s.seqCount = 0 ∨ s.dma.count = 0) ∧ s.seqCount ≠ 0 ∧ s.seqCount.toNat = s.params.bufWords) ∧
    (t.seqPhase = .three ∧ (t.seqCount = 0 ∨ t.dma.count = 0) ∧ t.seqCount ≠ 0 ∧ t.seqCount.toNat ≠ t.params.bufWords) ∧
    (u.seqPhase = .three ∧ (u.seqCount = 0 ∨ u.dma.count = 0) ∧ u.seqCount = 0) := by decide

theorem witness_SstepEndsTheStream :
    let s := streaming 0 (running 0x0000000C .four)
    s.seqPhase = .four ∧ s.dma.count = 0 ∧ s.outq.length < s.params.outFifoDepth := by decide

/-! ### Witnesses: transfers and the external agents -/

theorem witness_StartSubmits :
    let s := running 0x00030013 .two
    s.seqPhase = .two ∧ s.dma.count = 0 := by decide

theorem witness_BufferAddresses : referenceParams.admitted = true ∧ referenceParams.bufAddr 0 = 0x40002000 ∧
    referenceParams.bufAddr 1 = 0x40002010 := by decide

theorem witness_StartOfNothing : (running 0x00000003 .one).seqPhase = .one := by decide

theorem witness_BusyWaitPushNop :
    (running 0x00000004 .one).seqPhase = .one ∧
    ((running 0x02000006 .two).seqPhase = .two ∧ (running 0x02000006 .two).dma.count = 0 ∧
      (running 0x02000006 .two).outq.length < (running 0x02000006 .two).params.outFifoDepth) := by decide

/-- The last word of buffer 0; an idle channel; a full queue. -/
theorem witness_ChannelMovesOneWord :
    let s := { drained 1 State.reset with dma := ⟨0x4000200C, 0x50200010, 1, 0x0020001B⟩ }
    (s.params.admitted = true ∧ s.status.drainValid = true ∧ s.status.drainBuf = 0 ∧ 3 < s.params.bufWords ∧
      s.dma.readAddr = s.params.bufAddr 0 + BitVec.ofNat 32 (4 * 3) ∧ s.dma.count ≠ 0 ∧
      s.outq.length < s.params.outFifoDepth) ∧
    State.reset.dma.count = 0 ∧ (full s).params.outFifoDepth ≤ (full s).outq.length := by decide

theorem witness_TransferKeepsTheOrder :
    let s := { drained 4 State.reset with turns := [.dma, .dma, .dma, .dma, .out] }
    s.params.admitted = true ∧ s.status.drainValid = true ∧ s.status.drainBuf = 0 ∧
    s.dma.readAddr = s.params.bufAddr 0 ∧ s.dma.count.toNat ≤ s.params.bufWords ∧
    s.outq.length + s.dma.count.toNat ≤ s.params.outFifoDepth ∧
    s.turns = List.replicate s.dma.count.toNat .dma ++ [.out] := by decide

theorem witness_OutputTakesTheHead :
    (full State.reset).outActive = true ∧ (full State.reset).outq = 1 :: [2, 3, 4] ∧
    ({ full State.reset with outActive := false } : State).outActive = false ∧ State.reset.outq = [] := by decide

/-- A state with three words in flight and a full queue meets the invariant, whoever moves next. -/
theorem witness_inv_drained (l : List Agent) : ({ full (drained 3 State.reset) with turns := l } : State).Inv :=
  have h : (full (drained 3 State.reset)).Inv :=
    ⟨.nil, fun _ h => absurd h List.not_mem_nil, by decide, .inl rfl, by decide, by decide, trivial, by
      show (3 : Word) ≠ 0 → _; decide, .inl rfl⟩
  ⟨h.memCanonical, h.memInRam, h.busy, h.phaseLegal, h.voices, h.queueBound, h.checked, h.drain, h.resultKept⟩

/-- A running FILL with its chunk in RAM meets the invariant. -/
theorem witness_inv_filling : (chunkF1 (running 0x00000002 .two)).Inv :=
  ⟨by decide, by unfold Params.inRam; decide, by decide, .inr (.inr ⟨.fill 0, by decide, by decide⟩), by decide, by decide,
    (by decide : ¬ (chunkF1 (running 0x00000002 .two)).ChunkTooLong), fun h => absurd rfl h,
    .inr (.inr rfl)⟩

/-- WAIT held while one word of buffer 0 is in flight; DMA, OUT and SEQ then move in turn. -/
def heldRun : State := { drained 1 (running 0x00000005 .two) with turns := [.dma, .out, .seq] }

theorem heldRun_inv : heldRun.Inv :=
  ⟨.nil, fun _ h => absurd h List.not_mem_nil, by decide, .inr (.inr ⟨.wait, by decide, by decide⟩), by decide, by decide,
    (trivial : True), by show (1 : Word) ≠ 0 → _; decide, .inr (.inr rfl)⟩

/-- The run's three turns bring it to rest: the transfer drains and WAIT ends. -/
theorem heldRun_atRest : (heldRun.nth 3).AtRest ∧ (heldRun.nth 3).params.admitted = true :=
  ⟨⟨by decide +kernel, by decide +kernel, by decide +kernel, by decide +kernel, by decide +kernel⟩, by decide +kernel⟩

/-- The alternation, with a full queue; and a weakly fair run that starts at a hold. -/
theorem witness_FairTurnsReleaseEveryHold :
    let s := { full (drained 3 State.reset) with turns := [.out, .dma, .out, .dma, .out, .dma] }
    (s.Inv ∧ s.params.admitted = true ∧ s.outActive = true ∧
      s.turns = (List.replicate s.dma.count.toNat [Agent.out, Agent.dma]).flatten ++ []) ∧
    (heldRun.Inv ∧ heldRun.params.admitted = true ∧ heldRun.outActive = true ∧ heldRun.WeaklyFair) :=
  ⟨⟨witness_inv_drained _, by decide, by decide, by decide⟩,
    heldRun_inv, by decide, by decide, State.weaklyFair_of_atRest heldRun_atRest.1 heldRun_atRest.2⟩

theorem witness_SingleWriterOfTheQueue :
    after (fun s => s.outq) (step (running 0x02000006 .two)) = some [0x00000200] ∧
    after (fun s => s.outq) (step { full State.reset with turns := [.out] }) = some [2, 3, 4] := by decide +kernel

/-! ### Witnesses: the host's accesses -/

theorem witness_CommandWrites :
    let s := hosting (.write 0x000 .word 0x00000005) State.reset
    let t := hosting (.write 0x000 .word 0x00000005) (running 0x00000005 .two)
    (s.hostScript = .write 0x000 .word 0x00000005 :: [] ∧ s.status.cmdBusy = false) ∧
    (t.hostScript = .write 0x000 .word 0x00000005 :: [] ∧ t.status.cmdBusy = true) := by decide

theorem witness_ChunkLengthWrites :
    let s := hosting (.write 0x00C .word 8) State.reset
    let t := hosting (.write 0x00C .word 8) (running 0x00000005 .two)
    (s.hostScript = .write 0x00C .word 8 :: [] ∧ s.status.cmdBusy = false) ∧
    (t.hostScript = .write 0x00C .word 8 :: [] ∧ t.status.cmdBusy = true) := by decide

/-- The last bytes of the chunk RAM, a busy engine, and the first offset past it. -/
theorem witness_ChunkWrites :
    let s := hosting (.write (BitVec.ofNat 14 (0x1000 + 6)) .half 0x8034) State.reset
    let t := hosting (.write (BitVec.ofNat 14 (0x1000 + 6)) .half 0x8034) (running 0x00000005 .two)
    let u := hosting (.write (BitVec.ofNat 14 (0x1000 + 8)) .word 0) State.reset
    (6 % Width.half.bytes = 0 ∧ 6 < 2 * s.params.bufWords ∧ s.status.cmdBusy = false ∧
      s.hostScript = .write (BitVec.ofNat 14 (0x1000 + 6)) .half 0x8034 :: []) ∧
    (6 < 2 * t.params.bufWords ∧ t.status.cmdBusy = true ∧
      t.hostScript = .write (BitVec.ofNat 14 (0x1000 + 6)) .half 0x8034 :: []) ∧
    (8 % Width.word.bytes = 0 ∧ 2 * u.params.bufWords ≤ 8 ∧
      u.hostScript = .write (BitVec.ofNat 14 (0x1000 + 8)) .word 0 :: []) := by decide

theorem witness_StatusWritesClearErrors :
    (hosting (.write 0x004 .word 0x00000500) State.reset).hostScript = .write 0x004 .word 0x00000500 :: [] := by decide

/-- A host write of STATUS clears a set bit 8; so does a reset. -/
theorem witness_ErrorBitsAreSticky :
    let s := hosting (.write 0x004 .word 0x00000100) { State.reset with status := { Status.reset with errIllegal := true } }
    s.status.toWord.getLsbD 8 = true ∧ after (fun t => t.status.toWord.getLsbD 8) (step s) = some false ∧
    after (fun t => t.status.toWord.getLsbD 8) (step { s with turns := [.platform] }) = some false := by decide +kernel

/-- No command runs; FILL runs in its fill phase; and a CMD write is allowed. -/
theorem witness_RegisterReads :
    let s := State.reset
    let t := chunkF1 (running 0x00000002 .two)
    (s.status.cmdBusy = false ∧ (s.apertureWrite 0x000 .word 0x00000005).isSome = true) ∧
    (t.Inv ∧ t.seqPhase ≠ .four ∧ t.status.cmdBusy = true) :=
  ⟨by decide, witness_inv_filling, by decide, by decide⟩

/-- The first and the last reserved offset of each range, and the first and the last read-only one. -/
theorem witness_ReservedAndReadOnlyOffsets :
    (∀ n ∈ [0x020, 0x03C, 0x080, 0xFFC],
      (BitVec.ofNat 14 n).toNat < 0x1000 ∧ (BitVec.ofNat 14 n).toNat % 4 = 0 ∧
      ((0x020 ≤ (BitVec.ofNat 14 n).toNat ∧ (BitVec.ofNat 14 n).toNat < 0x040) ∨ 0x080 ≤ (BitVec.ofNat 14 n).toNat)) ∧
    (∀ n ∈ [0x008, 0x010, 0x01C, 0x040, 0x07C],
      (BitVec.ofNat 14 n).toNat < 0x1000 ∧ (BitVec.ofNat 14 n).toNat % 4 = 0 ∧
      ((BitVec.ofNat 14 n).toNat = 0x008 ∨ (0x010 ≤ (BitVec.ofNat 14 n).toNat ∧ (BitVec.ofNat 14 n).toNat < 0x020) ∨
        (0x040 ≤ (BitVec.ofNat 14 n).toNat ∧ (BitVec.ofNat 14 n).toNat < 0x080))) := by
  decide

/-- A halfword at the chunk's last two bytes, a word past it, a byte at the window's end, and the first word past the buffers. -/
theorem witness_ChunkAndUnusedWindowReads :
    (6 < 0x1000 ∧ 6 % Width.half.bytes = 0 ∧ 8 % Width.word.bytes = 0 ∧ 0xFFF < 0x1000 ∧ 0xFFF % Width.byte.bytes = 0 ∧
      6 + 1 < 2 * State.reset.params.bufWords ∧ ¬ 8 < 2 * State.reset.params.bufWords) ∧
    (State.reset.params.bufWords ≤ 1024 ∧ 0x2000 + 8 * State.reset.params.bufWords ≤ (0x2020 : BitVec 14).toNat ∧
      (0x2020 : BitVec 14).toNat % 4 = 0) := by decide

/-- The last word of buffer 1. -/
theorem witness_BufferWindow :
    State.reset.params.admitted = true ∧ 3 < State.reset.params.bufWords ∧
    (0x201C : BitVec 14).toNat = 0x2000 + 4 * State.reset.params.bufWords * (1 : BufId).toNat + 4 * 3 ∧
    State.reset.fillTarget ≠ some 1 := by decide

/-- A misaligned halfword read and a byte write of the register aperture have no step. -/
theorem witness_DisallowedAccessesHaveNoStep :
    let s := hosting (.read 0x1001 .half) State.reset
    let t := hosting (.write 0x00C .byte 1) State.reset
    (s.hostScript = .read 0x1001 .half :: [] ∧ s.apertureRead .host 0x1001 .half = none) ∧
    (t.hostScript = .write 0x00C .byte 1 :: [] ∧ (t.apertureWrite 0x00C .byte 1).isNone = true) := by decide +kernel

theorem witness_ReadsHaveNoSideEffect :
    (hosting (.read 0x008 .word) State.reset).hostScript = .read 0x008 .word :: [] := by decide

/-! ### Witnesses: reset and the whole machine -/

theorem witness_ResetSetsTheEngine :
    let s := { drained 3 (running 0x00000005 .two) with turns := [.platform] }
    s.params.admitted = true ∧ s.nextAgent = .platform := by decide

theorem witness_ResetSparesTheExternalAgents :
    let s := { full (drained 3 (running 0x00000005 .two)) with turns := [.platform] }
    s.params.admitted = true ∧ s.nextAgent = .platform := by decide

theorem witness_LaunchesAreClean : referenceParams.admitted = true := by decide

theorem witness_InvariantKept : (chunkF1 (running 0x00000002 .two)).Inv ∧
    (after (fun _ => ()) (step (chunkF1 (running 0x00000002 .two)))).isSome = true :=
  ⟨witness_inv_filling, by decide +kernel⟩

theorem witness_StepsNeverStop :
    (chunkF1 (running 0x00000002 .two)).Inv ∧ (chunkF1 (running 0x00000002 .two)).params.admitted = true :=
  ⟨witness_inv_filling, by decide⟩

/-- Three words of buffer 0 are still to be read when the channel moves. -/
theorem witness_NoStepWritesADrainingBuffer :
    let s := { full (drained 3 State.reset) with turns := [.dma] }
    s.Inv ∧ s.OwnTransfers ∧ (after (fun _ => ()) (step s)).isSome = true ∧ s.nextAgent ≠ .platform ∧
    s.dma.readAddr.toNat ≤ 0x4000200B ∧ 0x4000200B < s.dma.readAddr.toNat + 4 * s.dma.count.toNat :=
  ⟨witness_inv_drained _, fun _ => rfl, by decide +kernel, by decide, by decide, by decide⟩

theorem witness_OwnTransfersKept :
    let s := { full (drained 3 State.reset) with turns := [.dma] }
    s.OwnTransfers ∧ (after (fun _ => ()) (step s)).isSome = true ∧ s.nextAgent ≠ .platform :=
  ⟨fun _ => rfl, by decide +kernel, by decide⟩

theorem witness_ParametersAreConstant : (after (fun _ => ()) (step (running 0x00000005 .one))).isSome = true := by
  decide +kernel

theorem witness_OnlyStreamCommandsMoveTheStream :
    after (fun s => s.status.streamState) (step (running 0x0000000B .one)) = some .active := by decide +kernel

/-- SETNV, SETINC and SETPH each move their register. -/
theorem witness_WritersOfTheVoiceRegisters : (running 0x0008000A .one).nextAgent ≠ .platform ∧
    after (fun s => s.nvoices) (step (running 0x0008000A .one)) = some 8 ∧
    after (fun s => s.inc[0]) (step (running 0x070A0008 .one)) = some 1802 ∧
    after (fun s => s.phase[0]) (step (running 0x40000009 .one)) = some 0x4000 := by decide +kernel

theorem witness_ResultIsLeftByTheOthers :
    (after (fun _ => ()) (exec .nop (running 0 .one))).isSome = true ∧
    after (fun s => s.status.errSeq) (exec .sstep (running 0x0000000C .one)) = some true := by decide +kernel

theorem witness_FrameOfTheCommands : (after (fun _ => ()) (exec .wait (running 0x00000005 .two))).isSome = true := by
  decide +kernel

end Sys2Proof.Tests
end

/-! # Proofs of the scope statements: the step, holds, parameters, progress and the invariant -/

namespace Sys2Proof.Machine

variable {s t : State}

/-! ### SEQ's turn and the step of each agent -/

/-- A running legal command's turn is that command's own step (R21, R104). -/
theorem seqTurn_of_decode {i : Instr} (hp : s.seqPhase ≠ .idle) (hd : decodeWord s.seqCmd = .ok i) :
    seqTurn s = exec i s := by
  cases hq : s.seqPhase with
  | idle => exact absurd hq hp
  | one | two | three | four => simp only [seqTurn, hq, hd]

/-- With no command running SEQ leaves the state alone (R46). -/
theorem seqTurn_of_idle (hp : s.seqPhase = .idle) : seqTurn s = .next s := by
  simp only [seqTurn, hp]

/-- In phase 1 an illegal word raises ERR_ILLEGAL (R104, R241). -/
theorem seqTurn_of_illegal {e : Illegal} (hp : s.seqPhase = .one) (hd : decodeWord s.seqCmd = .error e) :
    seqTurn s = .next (s.raise .illegal) := by
  simp only [seqTurn, hp, hd]

theorem step_seq (ha : s.params.admitted = true) (hn : s.nextAgent = .seq) : step s = seqTurn s.takeTurn := by
  simp only [step, ha, hn, if_true]

theorem step_host (ha : s.params.admitted = true) (hn : s.nextAgent = .host) :
    step s = .next s.takeTurn.hostTurn := by
  simp only [step, ha, hn, if_true]

theorem step_dma (ha : s.params.admitted = true) (hn : s.nextAgent = .dma) :
    step s = .next s.takeTurn.dmaTurn := by
  simp only [step, ha, hn, if_true]

theorem step_out (ha : s.params.admitted = true) (hn : s.nextAgent = .out) :
    step s = .next s.takeTurn.outTurn := by
  simp only [step, ha, hn, if_true]

theorem step_platform (ha : s.params.admitted = true) (hn : s.nextAgent = .platform) :
    step s = .next s.takeTurn.engineReset := by
  simp only [step, ha, hn, if_true]

/-- Settles O6: the step is SEQ's turn, and that is the running command's. -/
theorem stepRunsTheDecodedCommand : Obligations.StepRunsTheDecodedCommand := by
  intro s i ha hn hp hd
  rw [step_seq ha hn]
  exact seqTurn_of_decode hp hd

/-- Settles O8: one equation of `step` per agent. -/
theorem stepOfEachOtherAgent : Obligations.StepOfEachOtherAgent := by
  intro s ha
  refine ⟨step_host ha, step_dma ha, step_out ha, step_platform ha, fun hn hp => ?_⟩
  rw [step_seq ha hn]
  exact seqTurn_of_idle hp

/-! ### Every phase a command has takes a next step -/

/-- A choice between two next states is a next state. -/
theorem exists_next_ite {c : Prop} [Decidable c] {a b : Host.Outcome State Fault Refusal}
    (ha : ∃ t, a = .next t) (hb : ∃ t, b = .next t) : ∃ t, (if c then a else b) = .next t := by
  split
  · exact ha
  · exact hb

theorem exec_one_next (i : Instr) (hp : s.seqPhase = .one) : ∃ t, exec i s = .next t := by
  cases i with
  | nop | codec | busy | wait | push | tick | setinc | setph | sbegin =>
    simp only [exec, execNop, execCodec, execBusy, execWait, execPush, execTick, execSetinc, execSetph, execSbegin, hp]
    exact ⟨_, rfl⟩
  | setnv | fill =>
    simp only [exec, execSetnv, execFill, hp]
    exact exists_next_ite ⟨_, rfl⟩ ⟨_, rfl⟩
  | start | sstep =>
    simp only [exec, execStart, execSstep, hp]
    exact exists_next_ite ⟨_, rfl⟩ (exists_next_ite ⟨_, rfl⟩ ⟨_, rfl⟩)

theorem exec_two_next {i : Instr} (hp : s.seqPhase = .two) (hi : 2 ≤ i.phases) : ∃ t, exec i s = .next t := by
  cases i with
  | nop | codec | busy | setinc | setph | setnv | sbegin => exact absurd hi (by simp [Instr.phases])
  | wait | push | tick | fill | start | sstep =>
    simp only [exec, execWait, execPush, execTick, execFill, execStart, execSstep, hp]
    exact exists_next_ite ⟨_, rfl⟩ ⟨_, rfl⟩

/-- Only SSTEP has more than two phases (R110). -/
theorem eq_sstep_of_three_le_phases {i : Instr} (hi : 3 ≤ i.phases) : i = .sstep := by
  cases i with
  | sstep => rfl
  | _ => exact absurd hi (by simp [Instr.phases])

/-- A phase that the command has answers a next state: no fault and no refusal (R6, R110). -/
theorem exec_next {i : Instr} (hp : s.seqPhase ≠ .idle) (hi : s.seqPhase.num ≤ i.phases) :
    ∃ t, exec i s = .next t := by
  cases hq : s.seqPhase with
  | idle => exact absurd hq hp
  | one => exact exec_one_next i hq
  | two => rw [hq] at hi; exact exec_two_next hq hi
  | three =>
    rw [hq] at hi
    obtain rfl := eq_sstep_of_three_le_phases hi
    simp only [exec, execSstep, hq]
    exact exists_next_ite (exists_next_ite ⟨_, rfl⟩ ⟨_, rfl⟩) ⟨_, rfl⟩
  | four =>
    rw [hq] at hi
    obtain rfl := eq_sstep_of_three_le_phases (Nat.le_of_succ_le hi)
    simp only [exec, execSstep, hq]
    exact exists_next_ite ⟨_, rfl⟩ ⟨_, rfl⟩

/-- SEQ never stops from a legal phase: the invariant's phase clause is what rules the fault out. -/
theorem seqTurn_next (h : s.seqPhase = .idle ∨ s.seqPhase = .one ∨
    ∃ i, decodeWord s.seqCmd = .ok i ∧ s.seqPhase.num ≤ i.phases) : ∃ t, seqTurn s = .next t := by
  by_cases hp : s.seqPhase = .idle
  · exact ⟨s, seqTurn_of_idle hp⟩
  obtain h0 | h1 | ⟨i, hd, hi⟩ := h
  · exact absurd h0 hp
  · cases hd : decodeWord s.seqCmd with
    | error e => exact ⟨_, seqTurn_of_illegal h1 hd⟩
    | ok i =>
      rw [seqTurn_of_decode hp hd]
      exact exec_one_next i h1
  · rw [seqTurn_of_decode hp hd]
    exact exec_next hp hi

/-- Settles O53: every other agent's step is total, and SEQ's is by the invariant's phase clause. -/
theorem stepsNeverStop : Obligations.StepsNeverStop := by
  intro s h ha
  cases hn : s.nextAgent with
  | host => exact ⟨_, step_host ha hn⟩
  | dma => exact ⟨_, step_dma ha hn⟩
  | out => exact ⟨_, step_out ha hn⟩
  | platform => exact ⟨_, step_platform ha hn⟩
  | seq =>
    rw [step_seq ha hn]
    exact seqTurn_next h.phaseLegal

/-! ### Holds -/

/-- While the hold of its phase is not over, a command's step leaves the whole state alone (R12, R254). -/
theorem exec_of_held {i : Instr} {p : SeqPhase} (hp : s.seqPhase = p) (hi : p.num ≤ i.phases)
    (hh : ¬ s.HoldOverOf i p) : exec i s = .next s := by
  subst hp
  have h0 : s.seqPhase ≠ .idle := fun h0 => hh (by simp only [State.HoldOverOf, h0])
  obtain ⟨t, ht⟩ := exec_next h0 hi
  obtain ⟨-, rfl⟩ | ⟨ho, -⟩ := exec_hold ht
  · exact ht
  · exact absurd ho hh

/-- A busy channel or a full OUTQ holds a push (R110). -/
theorem State.not_canPush (h : s.dma.count ≠ 0 ∨ s.params.outFifoDepth ≤ s.outq.length) : ¬ s.CanPush := by
  rintro ⟨hc, hq⟩
  obtain h | h := h
  · exact h hc
  · exact absurd hq (Nat.not_lt.2 h)

/-- Settles O13: each clause is one phase whose hold is not over. -/
theorem holdsLeaveTheStateAlone : Obligations.HoldsLeaveTheStateAlone := by
  intro s
  refine ⟨fun hp hc => ?wait, fun b n hp hc => ?start, fun c hp hq => ?push, fun hp hq => ?tick,
    fun b hp hv hb hc => ?fill, fun hp hv hb hc => ?sstepFill, fun hp hn hc => ?sstepSubmit, fun hp hq => ?sstepEnd⟩
  case wait => exact exec_of_held hp (le_refl 2) hc
  case start => exact exec_of_held hp (le_refl 2) hc
  case push => exact exec_of_held hp (le_refl 2) (State.not_canPush hq)
  case tick => exact exec_of_held hp (le_refl 2) (State.not_canPush hq)
  case fill => exact exec_of_held hp (le_refl 2) (not_not_intro ⟨⟨hv, hb⟩, hc⟩)
  case sstepFill => exact exec_of_held hp (by decide) (not_not_intro ⟨⟨hv, hb⟩, hc⟩)
  case sstepSubmit => exact exec_of_held hp (by decide) fun h => (h rfl).elim hn hc
  case sstepEnd => exact exec_of_held hp (le_refl 4) fun h => State.not_canPush hq (h rfl)

/-! ### The parameters -/

theorem exec_params {i : Instr} (h : exec i s = .next t) : t.params = s.params := by
  cases i with
  | nop => obtain ⟨-, rfl⟩ := execNop_cases h; simp
  | codec => obtain ⟨-, rfl⟩ := execCodec_cases h; simp
  | busy => obtain ⟨-, rfl⟩ := execBusy_cases h; simp
  | setinc => obtain ⟨-, rfl⟩ := execSetinc_cases h; simp
  | setph => obtain ⟨-, rfl⟩ := execSetph_cases h; simp
  | sbegin => obtain ⟨-, rfl⟩ := execSbegin_cases h; simp
  | setnv => obtain ⟨-, ⟨-, rfl⟩ | ⟨-, rfl⟩⟩ := execSetnv_cases h <;> simp
  | fill => obtain ⟨-, -, rfl⟩ | ⟨-, -, rfl⟩ | ⟨-, -, rfl⟩ | ⟨-, -, rfl⟩ := execFill_cases h <;> simp
  | start =>
    obtain ⟨-, -, rfl⟩ | ⟨-, -, rfl⟩ | ⟨-, -, -, rfl⟩ | ⟨-, -, rfl⟩ | ⟨-, -, rfl⟩ := execStart_cases h <;> simp
  | wait => obtain ⟨-, rfl⟩ | ⟨-, -, rfl⟩ | ⟨-, -, rfl⟩ := execWait_cases h <;> simp
  | push => obtain ⟨-, rfl⟩ | ⟨-, -, rfl⟩ | ⟨-, -, rfl⟩ := execPush_cases h <;> simp
  | tick => obtain ⟨-, rfl⟩ | ⟨-, -, rfl⟩ | ⟨-, -, rfl⟩ := execTick_cases h <;> simp
  | sstep =>
    rcases execSstep_cases h with ⟨-, -, rfl⟩ | ⟨-, -, -, rfl⟩ | ⟨-, -, -, rfl⟩ | ⟨-, -, rfl⟩ | ⟨-, -, rfl⟩ | ⟨-, -, rfl⟩ |
      ⟨-, -, -, rfl⟩ | ⟨-, -, -, rfl⟩ | ⟨-, -, rfl⟩ | ⟨-, -, rfl⟩ <;> simp

theorem seqTurn_params (h : seqTurn s = .next t) : t.params = s.params := by
  obtain ⟨-, rfl⟩ | ⟨-, i, -, he⟩ | ⟨-, -, rfl⟩ := seqTurn_cases h
  · rfl
  · exact exec_params he
  · rfl

@[simp] theorem State.hostTurn_params (s : State) : s.hostTurn.params = s.params := by
  obtain ⟨_, _, e⟩ | ⟨-, _, _, e⟩ | ⟨-, _, e⟩ | ⟨_, _, -, e⟩ | ⟨-, _, _, e⟩ | ⟨-, _, _, _, _, e⟩ := s.hostTurn_cases <;>
    rw [e] <;> rfl

@[simp] theorem State.dmaTurn_params (s : State) : s.dmaTurn.params = s.params := by
  obtain e | ⟨-, -, _, -, e⟩ := s.dmaTurn_cases <;> rw [e]

@[simp] theorem State.outTurn_params (s : State) : s.outTurn.params = s.params := by
  obtain e | ⟨_, _, -, e⟩ := s.outTurn_cases <;> rw [e]

/-- Settles O56: no agent's step writes a parameter. -/
theorem parametersAreConstant : Obligations.ParametersAreConstant := by
  intro s t h
  obtain ⟨-, ⟨-, rfl⟩ | ⟨-, h⟩ | ⟨-, rfl⟩ | ⟨-, rfl⟩ | ⟨-, rfl⟩⟩ := step_cases h
  · exact s.takeTurn.hostTurn_params
  · exact seqTurn_params (s := s.takeTurn) h
  · exact s.takeTurn.dmaTurn_params
  · exact s.takeTurn.outTurn_params
  · exact s.takeTurn.engineReset_params

/-! ### The two halves of the invariant -/

/-- The clauses of the invariant that do not speak of the running command: the RAMs, NVOICES, OUTQ and a recorded
transfer. -/
structure State.DataInv (s : State) : Prop where
  memCanonical : Memory.wf s.mem
  memInRam : ∀ c ∈ s.mem, s.params.inRam c.1
  voices : s.nvoices.toNat ≤ maxVoices
  queueBound : s.outq.length ≤ s.params.outFifoDepth
  drain : s.DrainInBuffer

/-- The clauses of the invariant that speak of the running command. -/
structure State.SeqInv (s : State) : Prop where
  busy : s.status.cmdBusy = true ↔ s.seqPhase ≠ .idle
  phaseLegal : s.seqPhase = .idle ∨ s.seqPhase = .one ∨
    ∃ i, decodeWord s.seqCmd = .ok i ∧ s.seqPhase.num ≤ i.phases
  checked : s.ArgsChecked
  resultKept : s.seqPhase = .idle ∨ s.seqPhase = .four ∨ s.resultBefore = s.result

theorem State.inv_iff : s.Inv ↔ s.DataInv ∧ s.SeqInv := by
  constructor
  · intro h
    exact ⟨⟨h.memCanonical, h.memInRam, h.voices, h.queueBound, h.drain⟩, h.busy, h.phaseLegal, h.checked, h.resultKept⟩
  · rintro ⟨d, q⟩
    exact ⟨d.memCanonical, d.memInRam, q.busy, q.phaseLegal, d.voices, d.queueBound, q.checked, d.drain, q.resultKept⟩

theorem State.Inv.data (h : s.Inv) : s.DataInv := (State.inv_iff.1 h).1

theorem State.Inv.seq (h : s.Inv) : s.SeqInv := (State.inv_iff.1 h).2

/-! ### The data half -/

/-- A recorded transfer is judged by the channel, the record and the parameters alone. -/
theorem State.DrainInBuffer.congr (h : s.DrainInBuffer) (hp : t.params = s.params := by simp)
    (hd : t.dma = s.dma := by simp) (hv : t.status.drainValid = s.status.drainValid := by simp)
    (hb : t.status.drainBuf = s.status.drainBuf := by simp) : t.DrainInBuffer := by
  simpa only [State.DrainInBuffer, hp, hd, hv, hb] using h

theorem State.DataInv.congr (h : s.DataInv) (hp : t.params = s.params := by simp) (hm : t.mem = s.mem := by simp)
    (hn : t.nvoices = s.nvoices := by simp) (hq : t.outq = s.outq := by simp) (hd : t.dma = s.dma := by simp)
    (hv : t.status.drainValid = s.status.drainValid := by simp)
    (hb : t.status.drainBuf = s.status.drainBuf := by simp) : t.DataInv where
  memCanonical := hm ▸ h.memCanonical
  memInRam := by rw [hm, hp]; exact h.memInRam
  voices := hn ▸ h.voices
  queueBound := by rw [hq, hp]; exact h.queueBound
  drain := h.drain.congr hp hd hv hb

/-- After the argument check a fill keeps to its buffer (R182). -/
theorem State.DataInv.fill (h : s.DataInv) (b : BufId) (hc : ¬ s.ChunkTooLong) : (s.fill b).DataInv where
  memCanonical := State.fillWords_wf b _ h.memCanonical
  memInRam := by
    intro c hm
    obtain ⟨h1, h2⟩ | hm := State.mem_fillWords hm
    · have hle := State.fillCount_le hc
      have e := s.params.bufWordAddr_eq b s.fillCount
      have e0 := s.params.bufWordAddr_eq 0 (2 * s.params.bufWords)
      have eb := s.params.bufWordAddr_zero 0
      obtain ⟨hlo, hhi⟩ := s.params.bufWordAddr_bounds b
      exact .inr (by simp only [State.fill_params]; omega)
    · exact h.memInRam c hm
  voices := h.voices
  queueBound := h.queueBound
  drain := h.drain.congr

/-- A submit of at most BUF_WORDS words programs a transfer inside its buffer (R212, R213). -/
theorem State.DataInv.submit (h : s.DataInv) (ha : s.params.admitted = true) (b : BufId) {n : Word}
    (hn : n.toNat ≤ s.params.bufWords) : (s.submit b n).DataInv where
  memCanonical := h.memCanonical
  memInRam := h.memInRam
  voices := h.voices
  queueBound := h.queueBound
  drain := by
    intro _
    simp only [State.submit_dma, State.submit_status, State.submit_params, BitVec.sub_self]
    refine ⟨?_, fun _ => by simpa using hn⟩
    obtain ⟨-, -, -, hbase⟩ := Params.admitted_ranges ha
    rw [Params.bufAddr_toNat ha]
    simp only [Params.bufWordAddr]
    rw [Nat.mul_assoc]
    omega

/-- Widening or cutting a word never raises its value. -/
theorem toNat_setWidth_le {m : Nat} (x : BitVec m) (n : Nat) : (x.setWidth n).toNat ≤ x.toNat := by
  rw [BitVec.toNat_setWidth]
  exact Nat.mod_le ..

/-- SSTEP submits at most the counted words, and none for an empty buffer (R186 phase 3). -/
theorem State.DataInv.submitAndSwap (h : s.DataInv) (ha : s.params.admitted = true)
    (hn : s.seqCount.toNat ≤ s.params.bufWords) : s.submitAndSwap.DataInv := by
  unfold State.submitAndSwap
  split
  · exact h.congr
  · exact (h.submit ha s.status.curBuf ((toNat_setWidth_le ..).trans hn)).congr

/-- A push while OUTQ has room keeps its bound (R51). -/
theorem State.DataInv.outPush (h : s.DataInv) (hq : s.OutqRoom) (c : Code) : (s.outPush c).DataInv where
  memCanonical := h.memCanonical
  memInRam := h.memInRam
  voices := h.voices
  queueBound := by simpa using hq
  drain := h.drain.congr

/-- A host write to the chunk RAM keeps to it (R72). -/
theorem State.DataInv.chunkStore (h : s.DataInv) (i : Nat) (v : Word) (n : Nat) :
    ({ s with mem := s.chunkStore i v n } : State).DataInv where
  memCanonical := State.chunkStore_wf i v n h.memCanonical
  memInRam c hm := (State.mem_chunkStore hm).elim .inl (h.memInRam c)
  voices := h.voices
  queueBound := h.queueBound
  drain := h.drain.congr

/-- The channel's advance past one word leaves the rest of a recorded transfer in its buffer (R220). -/
theorem State.DrainInBuffer.advance (h : s.DrainInBuffer) (ha : s.params.admitted = true) (hc : s.dma.count ≠ 0)
    (q : List Word) : ({ s with
      outq := q
      dma := { s.dma with readAddr := s.dma.readAddr + 4, count := s.dma.count - 1 } } : State).DrainInBuffer := by
  intro _
  obtain ⟨hal, hin⟩ := h hc
  obtain ⟨-, hb, -, -⟩ := Params.admitted_ranges ha
  refine ⟨?_, fun hv => ?_⟩
  · bv_omega
  · have hi := hin hv
    generalize s.params.bufAddr s.status.drainBuf = a at hi ⊢
    bv_omega

/-- DMA's word goes where OUTQ has room for it (R220). -/
theorem State.DataInv.dmaTurn (h : s.DataInv) (ha : s.params.admitted = true) : s.dmaTurn.DataInv := by
  obtain e | ⟨hc, hq, w, -, e⟩ := s.dmaTurn_cases
  · rw [e]; exact h
  · rw [e]
    exact ⟨h.memCanonical, h.memInRam, h.voices, by simpa using hq, h.drain.advance ha hc _⟩

theorem State.DataInv.outTurn (h : s.DataInv) : s.outTurn.DataInv := by
  obtain e | ⟨w, rest, hq, e⟩ := s.outTurn_cases
  · rw [e]; exact h
  · have hl := h.queueBound
    rw [hq, List.length_cons] at hl
    rw [e]
    exact ⟨h.memCanonical, h.memInRam, h.voices, Nat.le_of_succ_le hl, h.drain.congr⟩

/-- A reset leaves the channel, and with it the alignment of its transfer, but drops the record (R260, R261). -/
theorem State.DataInv.engineReset (h : s.DataInv) : s.engineReset.DataInv where
  memCanonical := .nil
  memInRam _ hm := absurd hm List.not_mem_nil
  voices := Nat.zero_le _
  queueBound := h.queueBound
  drain hc := ⟨(h.drain hc).1, fun hv => absurd hv Bool.false_ne_true⟩

/-! ### The command half -/

/-- What phase 1 has checked, phase by phase (R183, R186, R214). -/
theorem State.argsChecked_fill {b : BufId} (hp : s.seqPhase = .two) (hd : decodeWord s.seqCmd = .ok (.fill b)) :
    s.ArgsChecked ↔ ¬ s.ChunkTooLong := by
  simp only [State.ArgsChecked, hp, hd]

theorem State.argsChecked_start {b : BufId} {n : BitVec 16} (hp : s.seqPhase = .two)
    (hd : decodeWord s.seqCmd = .ok (.start b n)) : s.ArgsChecked ↔ n ≠ 0 ∧ n.toNat ≤ s.params.bufWords := by
  simp only [State.ArgsChecked, hp, hd]

theorem State.argsChecked_sstep_two (hp : s.seqPhase = .two) (hd : decodeWord s.seqCmd = .ok .sstep) :
    s.ArgsChecked ↔ s.status.streamState = .active ∧ ¬ s.ChunkTooLong := by
  simp only [State.ArgsChecked, hp, hd]

theorem State.argsChecked_sstep_three (hp : s.seqPhase = .three) (hd : decodeWord s.seqCmd = .ok .sstep) :
    s.ArgsChecked ↔ s.status.streamState = .active ∧ s.seqCount.toNat ≤ s.params.bufWords := by
  simp only [State.ArgsChecked, hp, hd]

theorem State.argsChecked_sstep_four (hp : s.seqPhase = .four) (hd : decodeWord s.seqCmd = .ok .sstep) :
    s.ArgsChecked ↔ s.status.streamState = .active ∧ s.seqCount.toNat < s.params.bufWords := by
  simp only [State.ArgsChecked, hp, hd]

theorem State.argsChecked_idle (hp : s.seqPhase = .idle) : s.ArgsChecked := by
  simp only [State.ArgsChecked, hp]

theorem State.argsChecked_one (hp : s.seqPhase = .one) : s.ArgsChecked := by
  simp only [State.ArgsChecked, hp]

/-- The checks look at the command, its count, the stream, the chunk's length and the parameters alone. -/
theorem State.ArgsChecked.congr (h : s.ArgsChecked) (hp : t.params = s.params) (hl : t.chunkLen = s.chunkLen)
    (hq : t.seqPhase = s.seqPhase) (hc : t.seqCmd = s.seqCmd) (hn : t.seqCount = s.seqCount)
    (hs : t.status.streamState = s.status.streamState) : t.ArgsChecked := by
  unfold State.ArgsChecked State.ChunkTooLong at *
  rw [hp, hl, hq, hc, hn, hs]
  exact h

theorem State.SeqInv.congr (h : s.SeqInv) (hp : t.params = s.params := by simp) (hl : t.chunkLen = s.chunkLen := by simp)
    (hq : t.seqPhase = s.seqPhase := by simp) (hc : t.seqCmd = s.seqCmd := by simp)
    (hn : t.seqCount = s.seqCount := by simp) (hs : t.status.streamState = s.status.streamState := by simp)
    (hb : t.status.cmdBusy = s.status.cmdBusy := by simp) (hr : t.result = s.result := by simp)
    (ho : t.resultBefore = s.resultBefore := by simp) : t.SeqInv where
  busy := by rw [hb, hq]; exact h.busy
  phaseLegal := by rw [hq, hc]; exact h.phaseLegal
  checked := h.checked.congr hp hl hq hc hn hs
  resultKept := by rw [hq, hr, ho]; exact h.resultKept

/-- With no command running the command half asks nothing but CMD_BUSY = 0. -/
theorem State.inv_of_idle (h : s.DataInv) (hp : s.seqPhase = .idle := by simp)
    (hb : s.status.cmdBusy = false := by simp) : s.Inv :=
  State.inv_iff.2 ⟨h, by simp [hb, hp], .inl hp, State.argsChecked_idle hp, .inl hp⟩

/-- A command that the host starts has its first phase to run, and RESULT is as before it (R33). -/
theorem State.startCommand_inv (h : s.DataInv) (w : Word) : (s.startCommand w).Inv :=
  State.inv_iff.2 ⟨h.congr, by simp, .inr (.inl rfl), State.argsChecked_one rfl, .inr (.inr rfl)⟩

/-- A running command goes on to phase `p`, which it has and whose arguments are checked. -/
theorem State.toPhase_inv {p : SeqPhase} {i : Instr} (h : s.DataInv) (hb : s.status.cmdBusy = true) (h0 : p ≠ .idle)
    (hd : decodeWord s.seqCmd = .ok i) (hi : p.num ≤ i.phases) (hc : (s.toPhase p).ArgsChecked)
    (hr : p = .four ∨ s.resultBefore = s.result) : (s.toPhase p).Inv :=
  State.inv_iff.2 ⟨h.congr, by simp [hb, h0], .inr (.inr ⟨i, hd, hi⟩), hc, .inr hr⟩

/-- RESULT is as it was before the command in each phase but the last of SSTEP. -/
theorem State.Inv.resultBefore_eq (h : s.Inv) (h0 : s.seqPhase ≠ .idle) (h4 : s.seqPhase ≠ .four) :
    s.resultBefore = s.result :=
  (h.resultKept.resolve_left h0).resolve_left h4

/-- Phase 1 of a command with a second phase passes its checks. -/
theorem State.Inv.toPhase_two {i : Instr} (h : s.Inv) (hp : s.seqPhase = .one) (hd : decodeWord s.seqCmd = .ok i)
    (hi : 2 ≤ i.phases) (hc : (s.toPhase .two).ArgsChecked) : (s.toPhase .two).Inv :=
  State.toPhase_inv h.data (h.busy.2 (by simp [hp])) (by decide) hd hi hc
    (.inr (h.resultBefore_eq (by simp [hp]) (by simp [hp])))

/-! ### Every step keeps the invariant -/

theorem State.Inv.takeTurn (h : s.Inv) : s.takeTurn.Inv := State.inv_iff.2 ⟨h.data.congr, h.seq.congr⟩

@[simp] theorem Status.clearErrors_cmdBusy (st : Status) (w : Word) : (st.clearErrors w).cmdBusy = st.cmdBusy := rfl
@[simp] theorem Status.clearErrors_streamState (st : Status) (w : Word) :
    (st.clearErrors w).streamState = st.streamState := rfl
@[simp] theorem Status.clearErrors_drainValid (st : Status) (w : Word) :
    (st.clearErrors w).drainValid = st.drainValid := rfl
@[simp] theorem Status.clearErrors_drainBuf (st : Status) (w : Word) : (st.clearErrors w).drainBuf = st.drainBuf := rfl

theorem State.Inv.seqPhase_idle (h : s.Inv) (hb : s.status.cmdBusy = false) : s.seqPhase = .idle :=
  by_contra fun hp => Bool.false_ne_true (hb.symm.trans (h.busy.2 hp))

theorem State.Inv.hostTurn (h : s.Inv) : s.hostTurn.Inv := by
  obtain ⟨_, _, e⟩ | ⟨-, v, _, e⟩ | ⟨-, _, e⟩ | ⟨_, _, -, e⟩ | ⟨hb, _, _, e⟩ | ⟨hb, i, v, w, _, e⟩ := s.hostTurn_cases <;>
    rw [e]
  · exact State.inv_iff.2 ⟨h.data.congr, h.seq.congr⟩
  · have hs := State.startCommand_inv h.data v
    exact State.inv_iff.2 ⟨hs.data.congr, hs.seq.congr⟩
  · exact State.inv_iff.2 ⟨h.data.congr, h.seq.congr⟩
  · exact State.inv_iff.2 ⟨h.data.congr, h.seq.congr⟩
  · exact State.inv_of_idle h.data.congr (h.seqPhase_idle hb) hb
  · exact State.inv_of_idle (h.data.chunkStore i v w.bytes).congr (h.seqPhase_idle hb) hb

theorem State.Inv.dmaTurn (h : s.Inv) (ha : s.params.admitted = true) : s.dmaTurn.Inv := by
  refine State.inv_iff.2 ⟨h.data.dmaTurn ha, ?_⟩
  obtain e | ⟨-, -, _, -, e⟩ := s.dmaTurn_cases <;> rw [e]
  · exact h.seq
  · exact h.seq.congr

theorem State.Inv.outTurn (h : s.Inv) : s.outTurn.Inv := by
  refine State.inv_iff.2 ⟨h.data.outTurn, ?_⟩
  obtain e | ⟨_, _, -, e⟩ := s.outTurn_cases <;> rw [e]
  · exact h.seq
  · exact h.seq.congr

theorem State.Inv.engineReset (h : s.Inv) : s.engineReset.Inv :=
  State.inv_of_idle h.data.engineReset rfl rfl

theorem execSetnv_inv {nv : BitVec 4} (h : s.Inv) (he : execSetnv nv s = .next t) : t.Inv := by
  obtain ⟨-, ⟨-, rfl⟩ | ⟨hn, rfl⟩⟩ := execSetnv_cases he
  · exact State.inv_of_idle h.data.congr
  · have hs : ({ s with nvoices := nv } : State).DataInv :=
      ⟨h.memCanonical, h.memInRam, hn, h.queueBound, h.drain.congr⟩
    exact State.inv_of_idle hs.congr

theorem execFill_inv {b : BufId} (h : s.Inv) (hd : decodeWord s.seqCmd = .ok (.fill b))
    (he : execFill b s = .next t) : t.Inv := by
  obtain ⟨-, -, rfl⟩ | ⟨hp, hc, rfl⟩ | ⟨-, -, rfl⟩ | ⟨hp, -, rfl⟩ := execFill_cases he
  · exact State.inv_of_idle h.data.congr
  · exact h.toPhase_two hp hd (le_refl 2) (Iff.mpr (State.argsChecked_fill rfl hd) hc)
  · exact h
  · have hc := (State.argsChecked_fill hp hd).1 h.checked
    exact State.inv_of_idle (h.data.fill b hc).congr

theorem execStart_inv {b : BufId} {n : BitVec 16} (h : s.Inv) (ha : s.params.admitted = true)
    (hd : decodeWord s.seqCmd = .ok (.start b n)) (he : execStart b n s = .next t) : t.Inv := by
  obtain ⟨-, -, rfl⟩ | ⟨-, -, rfl⟩ | ⟨hp, hn, h0, rfl⟩ | ⟨-, -, rfl⟩ | ⟨hp, -, rfl⟩ := execStart_cases he
  · exact State.inv_of_idle h.data.congr
  · exact State.inv_of_idle h.data.congr
  · exact h.toPhase_two hp hd (le_refl 2) (Iff.mpr (State.argsChecked_start rfl hd) ⟨h0, hn⟩)
  · exact h
  · obtain ⟨-, hn⟩ := (State.argsChecked_start hp hd).1 h.checked
    exact State.inv_of_idle (h.data.submit ha b ((toNat_setWidth_le ..).trans hn)).congr

theorem execWait_inv (h : s.Inv) (hd : decodeWord s.seqCmd = .ok .wait) (he : execWait s = .next t) : t.Inv := by
  obtain ⟨hp, rfl⟩ | ⟨-, -, rfl⟩ | ⟨-, -, rfl⟩ := execWait_cases he
  · exact h.toPhase_two hp hd (le_refl 2) (by simp [State.ArgsChecked, hd])
  · exact h
  · exact State.inv_of_idle h.data.congr

theorem execPush_inv {c : Code} (h : s.Inv) (hd : decodeWord s.seqCmd = .ok (.push c)) (he : execPush c s = .next t) :
    t.Inv := by
  obtain ⟨hp, rfl⟩ | ⟨-, -, rfl⟩ | ⟨-, ⟨-, hq⟩, rfl⟩ := execPush_cases he
  · exact h.toPhase_two hp hd (le_refl 2) (by simp [State.ArgsChecked, hd])
  · exact h
  · exact State.inv_of_idle (h.data.outPush hq c).congr

theorem execTick_inv (h : s.Inv) (hd : decodeWord s.seqCmd = .ok .tick) (he : execTick s = .next t) : t.Inv := by
  obtain ⟨hp, rfl⟩ | ⟨-, -, rfl⟩ | ⟨-, ⟨-, hq⟩, rfl⟩ := execTick_cases he
  · exact h.toPhase_two hp hd (le_refl 2) (by simp [State.ArgsChecked, hd])
  · exact h
  · exact State.inv_of_idle (h.data.outPush hq (s.mixCode s.keyDraw)).congr

/-- SSTEP's fill leaves a count of at most BUF_WORDS, and RESULT alone (R186 phase 2). -/
theorem State.Inv.sstepFill (h : s.Inv) (hp : s.seqPhase = .two) (hd : decodeWord s.seqCmd = .ok .sstep) :
    (State.toPhase { s.fill s.status.curBuf with seqCount := BitVec.ofNat 11 s.fillCount } .three).Inv := by
  obtain ⟨hs, hc⟩ := (State.argsChecked_sstep_two hp hd).1 h.checked
  have hn : (BitVec.ofNat 11 s.fillCount).toNat ≤ s.params.bufWords :=
    (Nat.mod_le ..).trans (State.fillCount_le hc)
  refine State.toPhase_inv (h.data.fill s.status.curBuf hc).congr (h.busy.2 (by simp [hp])) (by decide) hd (by decide) ?_
    (.inr (h.resultBefore_eq (by simp [hp]) (by simp [hp])))
  exact Iff.mpr (State.argsChecked_sstep_three rfl hd) ⟨hs, hn⟩

/-- After a short count SSTEP goes on to its last phase, with the stream still active (R186 phase 3). -/
theorem State.Inv.sstepSubmit (h : s.Inv) (ha : s.params.admitted = true) (hp : s.seqPhase = .three)
    (hd : decodeWord s.seqCmd = .ok .sstep) (hne : s.seqCount.toNat ≠ s.params.bufWords) :
    (s.submitAndSwap.toPhase .four).Inv := by
  obtain ⟨hs, hn⟩ := (State.argsChecked_sstep_three hp hd).1 h.checked
  have hd' : decodeWord s.submitAndSwap.seqCmd = .ok .sstep := by rwa [State.submitAndSwap_seqCmd]
  exact State.toPhase_inv (h.data.submitAndSwap ha hn) (by simpa using h.busy.2 (by simp [hp])) (by decide) hd' (le_refl 4)
    (Iff.mpr (State.argsChecked_sstep_four rfl hd') ⟨by simpa using hs, by simpa using lt_of_le_of_ne hn hne⟩) (.inl rfl)

theorem execSstep_inv (h : s.Inv) (ha : s.params.admitted = true) (hd : decodeWord s.seqCmd = .ok .sstep)
    (he : execSstep s = .next t) : t.Inv := by
  obtain ⟨-, -, rfl⟩ | ⟨-, -, -, rfl⟩ | ⟨hp, hs, hc, rfl⟩ | ⟨-, -, rfl⟩ | ⟨hp, -, rfl⟩ | ⟨-, -, rfl⟩ |
    ⟨hp, -, -, rfl⟩ | ⟨hp, -, hne, rfl⟩ | ⟨-, -, rfl⟩ | ⟨-, ⟨-, hq⟩, rfl⟩ := execSstep_cases he
  · exact State.inv_of_idle h.data.congr
  · exact State.inv_of_idle h.data.congr
  · exact h.toPhase_two hp hd (by decide) (Iff.mpr (State.argsChecked_sstep_two rfl hd) ⟨hs, hc⟩)
  · exact h
  · exact h.sstepFill hp hd
  · exact h
  · obtain ⟨-, hn⟩ := (State.argsChecked_sstep_three hp hd).1 h.checked
    exact State.inv_of_idle (h.data.submitAndSwap ha hn).congr
  · exact h.sstepSubmit ha hp hd hne
  · exact h
  · exact State.inv_of_idle (h.data.outPush hq idleCode).congr

theorem exec_inv {i : Instr} (h : s.Inv) (ha : s.params.admitted = true) (hd : decodeWord s.seqCmd = .ok i)
    (he : exec i s = .next t) : t.Inv := by
  cases i with
  | nop => obtain ⟨-, rfl⟩ := execNop_cases he; exact State.inv_of_idle h.data.congr
  | codec => obtain ⟨-, rfl⟩ := execCodec_cases he; exact State.inv_of_idle h.data.congr
  | busy => obtain ⟨-, rfl⟩ := execBusy_cases he; exact State.inv_of_idle h.data.congr
  | setinc => obtain ⟨-, rfl⟩ := execSetinc_cases he; exact State.inv_of_idle h.data.congr
  | setph => obtain ⟨-, rfl⟩ := execSetph_cases he; exact State.inv_of_idle h.data.congr
  | sbegin => obtain ⟨-, rfl⟩ := execSbegin_cases he; exact State.inv_of_idle h.data.congr
  | setnv => exact execSetnv_inv h he
  | fill => exact execFill_inv h hd he
  | start => exact execStart_inv h ha hd he
  | wait => exact execWait_inv h hd he
  | push => exact execPush_inv h hd he
  | tick => exact execTick_inv h hd he
  | sstep => exact execSstep_inv h ha hd he

theorem seqTurn_inv (h : s.Inv) (ha : s.params.admitted = true) (he : seqTurn s = .next t) : t.Inv := by
  obtain ⟨-, rfl⟩ | ⟨-, i, hd, he⟩ | ⟨-, -, rfl⟩ := seqTurn_cases he
  · exact h
  · exact exec_inv h ha hd he
  · exact State.inv_of_idle h.data.congr

/-- Settles O52: one lemma per agent, and for SEQ one per command. -/
theorem invariantKept : Obligations.InvariantKept := by
  intro s t h hs
  obtain ⟨ha, ⟨-, rfl⟩ | ⟨-, he⟩ | ⟨-, rfl⟩ | ⟨-, rfl⟩ | ⟨-, rfl⟩⟩ := step_cases hs
  · exact h.takeTurn.hostTurn
  · exact seqTurn_inv h.takeTurn ha he
  · exact h.takeTurn.dmaTurn ha
  · exact h.takeTurn.outTurn
  · exact h.takeTurn.engineReset

end Sys2Proof.Machine

/-! # Proofs of the state statements: registers, the writers of each register, and the frame of the commands -/

namespace Sys2Proof.Machine

variable {s t : State}

/-! ### What a command writes, without its phases and holds -/

/-- The updates a step of each command can make. A held phase, an error, a check passed and a plain end are open to any
command; every other update belongs to one command. -/
inductive ExecEffect (s : State) : Instr → State → Prop
  | hold {i} : ExecEffect s i s
  | raise {i} (e : ErrorBit) : ExecEffect s i (s.raise e)
  | toPhase {i} (p : SeqPhase) : ExecEffect s i (s.toPhase p)
  | endCommand {i} : ExecEffect s i s.endCommand
  | codec (hi lo : Byte) : ExecEffect s (.codec hi lo) (s.setResult ((codec lo hi).setWidth 32)).endCommand
  | busy : ExecEffect s .busy (s.setResult (if s.ChannelIdle then 0 else 1)).endCommand
  | setinc (v : BitVec 3) (x : BitVec 16) :
      ExecEffect s (.setinc v x) (State.endCommand { s with inc := s.inc.set v.toNat x v.isLt })
  | setph (v : BitVec 3) (x : BitVec 16) :
      ExecEffect s (.setph v x) (State.endCommand { s with phase := s.phase.set v.toNat x v.isLt })
  | setnv (nv : BitVec 4) : ExecEffect s (.setnv nv) (State.endCommand { s with nvoices := nv })
  | sbegin : ExecEffect s .sbegin
      (State.endCommand { s with status := { s.status with streamState := .active, curBuf := 0 } })
  | fill (b : BufId) : ExecEffect s (.fill b) ((s.fill b).setResult (BitVec.ofNat 32 s.fillCount)).endCommand
  | start (b : BufId) (n : BitVec 16) : ExecEffect s (.start b n) (s.submit b (n.setWidth 32)).endCommand
  | push (c : Code) : ExecEffect s (.push c) (s.outPush c).endCommand
  | tick : ExecEffect s .tick (s.tick s.keyDraw)
  | sstepFill : ExecEffect s .sstep
      (State.toPhase { s.fill s.status.curBuf with seqCount := BitVec.ofNat 11 s.fillCount } .three)
  | sstepFull : ExecEffect s .sstep s.submitAndSwap.endCommand
  | sstepShort : ExecEffect s .sstep (s.submitAndSwap.toPhase .four)
  | sstepEnd : ExecEffect s .sstep s.endStream

/-- A command's step makes one of its updates. -/
theorem exec_effect {i : Instr} (h : exec i s = .next t) : ExecEffect s i t := by
  cases i with
  | nop => obtain ⟨-, rfl⟩ := execNop_cases h; exact .endCommand
  | codec hi lo => obtain ⟨-, rfl⟩ := execCodec_cases h; exact .codec hi lo
  | busy => obtain ⟨-, rfl⟩ := execBusy_cases h; exact .busy
  | setinc v x => obtain ⟨-, rfl⟩ := execSetinc_cases h; exact .setinc v x
  | setph v x => obtain ⟨-, rfl⟩ := execSetph_cases h; exact .setph v x
  | sbegin => obtain ⟨-, rfl⟩ := execSbegin_cases h; exact .sbegin
  | setnv nv =>
    obtain ⟨-, ⟨-, rfl⟩ | ⟨-, rfl⟩⟩ := execSetnv_cases h
    · exact .raise .arg
    · exact .setnv nv
  | fill b =>
    obtain ⟨-, -, rfl⟩ | ⟨-, -, rfl⟩ | ⟨-, -, rfl⟩ | ⟨-, -, rfl⟩ := execFill_cases h
    · exact .raise .arg
    · exact .toPhase .two
    · exact .hold
    · exact .fill b
  | start b n =>
    obtain ⟨-, -, rfl⟩ | ⟨-, -, rfl⟩ | ⟨-, -, -, rfl⟩ | ⟨-, -, rfl⟩ | ⟨-, -, rfl⟩ := execStart_cases h
    · exact .raise .arg
    · exact .endCommand
    · exact .toPhase .two
    · exact .hold
    · exact .start b n
  | wait =>
    obtain ⟨-, rfl⟩ | ⟨-, -, rfl⟩ | ⟨-, -, rfl⟩ := execWait_cases h
    · exact .toPhase .two
    · exact .hold
    · exact .endCommand
  | push c =>
    obtain ⟨-, rfl⟩ | ⟨-, -, rfl⟩ | ⟨-, -, rfl⟩ := execPush_cases h
    · exact .toPhase .two
    · exact .hold
    · exact .push c
  | tick =>
    obtain ⟨-, rfl⟩ | ⟨-, -, rfl⟩ | ⟨-, -, rfl⟩ := execTick_cases h
    · exact .toPhase .two
    · exact .hold
    · exact .tick
  | sstep =>
    obtain ⟨-, -, rfl⟩ | ⟨-, -, -, rfl⟩ | ⟨-, -, -, rfl⟩ | ⟨-, -, rfl⟩ | ⟨-, -, rfl⟩ | ⟨-, -, rfl⟩ | ⟨-, -, -, rfl⟩ |
      ⟨-, -, -, rfl⟩ | ⟨-, -, rfl⟩ | ⟨-, -, rfl⟩ := execSstep_cases h
    · exact .raise .seq
    · exact .raise .arg
    · exact .toPhase .two
    · exact .hold
    · exact .sstepFill
    · exact .hold
    · exact .sstepFull
    · exact .sstepShort
    · exact .hold
    · exact .sstepEnd

section Writers

variable {i : Instr} (e : ExecEffect s i t)
include e

theorem ExecEffect.writer_of_mem (h : t.mem ≠ s.mem) : (∃ b, i = .fill b) ∨ i = .sstep := by
  cases e with
  | fill b => exact .inl ⟨b, rfl⟩
  | sstepFill => exact .inr rfl
  | _ => exact absurd (by simp) h

theorem ExecEffect.writer_of_channel (h : ¬ (t.dma = s.dma ∧ t.status.drainValid = s.status.drainValid ∧
    t.status.drainBuf = s.status.drainBuf)) : (∃ b n, i = .start b n) ∨ i = .sstep := by
  cases e with
  | start b n => exact .inl ⟨b, n, rfl⟩
  | sstepFull | sstepShort => exact .inr rfl
  | _ => exact absurd (by simp) h

theorem ExecEffect.writer_of_outq (h : t.outq ≠ s.outq) : (∃ c, i = .push c) ∨ i = .tick ∨ i = .sstep := by
  cases e with
  | push c => exact .inl ⟨c, rfl⟩
  | tick => exact .inr (.inl rfl)
  | sstepEnd => exact .inr (.inr rfl)
  | _ => exact absurd (by simp) h

theorem ExecEffect.writer_of_stream
    (h : t.status.streamState ≠ s.status.streamState ∨ t.status.curBuf ≠ s.status.curBuf) :
    i = .sbegin ∨ i = .sstep := by
  cases e with
  | sbegin => exact .inl rfl
  | sstepFull | sstepShort | sstepEnd => exact .inr rfl
  | _ => exact absurd h (by simp)

theorem ExecEffect.writer_of_nvoices (h : t.nvoices ≠ s.nvoices) : ∃ nv, i = .setnv nv := by
  cases e with
  | setnv nv => exact ⟨nv, rfl⟩
  | _ => exact absurd (by simp) h

theorem ExecEffect.writer_of_inc (h : t.inc ≠ s.inc) : ∃ v x, i = .setinc v x := by
  cases e with
  | setinc v x => exact ⟨v, x, rfl⟩
  | _ => exact absurd (by simp) h

theorem ExecEffect.writer_of_phase (h : t.phase ≠ s.phase) : i = .tick ∨ ∃ v x, i = .setph v x := by
  cases e with
  | tick => exact .inl rfl
  | setph v x => exact .inr ⟨v, x, rfl⟩
  | _ => exact absurd (by simp) h

/-- What no command writes (R36, R46, R52): the fields outside a command's reach. -/
theorem ExecEffect.frame : t.dacOut = s.dacOut ∧ t.chunkLen = s.chunkLen ∧ t.params = s.params ∧
    t.outActive = s.outActive ∧ t.seqCmd = s.seqCmd ∧ t.resultBefore = s.resultBefore ∧
    t.hostScript = s.hostScript ∧ t.hostSeen = s.hostSeen ∧ t.turns = s.turns ∧ t.clock = s.clock ∧
    t.resets = s.resets := by
  cases e <;> simp

end Writers

/-- Settles O60: the fields no command writes, and the writers of the RAM, of the channel and of OUTQ. -/
theorem frameOfTheCommands : Obligations.FrameOfTheCommands := by
  intro i s t h
  have e := exec_effect h
  obtain ⟨-, -, -, -, -, -, -, -, -, -, hr⟩ := e.frame
  refine ⟨fun h1 h2 a => ?ram, fun h1 h2 => ?channel, fun h1 h2 h3 => ?outq, e.frame⟩
  case ram =>
    refine State.ramByte_congr (by_contra fun hm => ?_) hr a
    obtain ⟨b, hi⟩ | hi := e.writer_of_mem hm
    · exact h1 b hi
    · exact h2 hi
  case channel =>
    refine by_contra fun hd => ?_
    obtain ⟨b, n, hi⟩ | hi := e.writer_of_channel hd
    · exact h1 b n hi
    · exact h2 hi
  case outq =>
    refine by_contra fun hq => ?_
    obtain ⟨c, hi⟩ | hi | hi := e.writer_of_outq hq
    · exact h1 c hi
    · exact h2 hi
    · exact h3 hi

/-! ### Only SEQ and a reset reach the stream and the voices -/

/-- The stream state, CUR_BUF, NVOICES, the increments and the phases of `t` are those of `s`. -/
structure State.SameStreamAndVoices (s t : State) : Prop where
  streamState : t.status.streamState = s.status.streamState
  curBuf : t.status.curBuf = s.status.curBuf
  nvoices : t.nvoices = s.nvoices
  inc : t.inc = s.inc
  phase : t.phase = s.phase

theorem State.hostTurn_sameStreamAndVoices (s : State) : s.SameStreamAndVoices s.hostTurn := by
  obtain ⟨_, _, e⟩ | ⟨-, _, _, e⟩ | ⟨-, _, e⟩ | ⟨_, _, -, e⟩ | ⟨-, _, _, e⟩ | ⟨-, _, _, _, _, e⟩ := s.hostTurn_cases <;>
    rw [e] <;> exact ⟨rfl, rfl, rfl, rfl, rfl⟩

theorem State.dmaTurn_sameStreamAndVoices (s : State) : s.SameStreamAndVoices s.dmaTurn := by
  obtain e | ⟨-, -, _, -, e⟩ := s.dmaTurn_cases <;> rw [e] <;> exact ⟨rfl, rfl, rfl, rfl, rfl⟩

theorem State.outTurn_sameStreamAndVoices (s : State) : s.SameStreamAndVoices s.outTurn := by
  obtain e | ⟨_, _, -, e⟩ := s.outTurn_cases <;> rw [e] <;> exact ⟨rfl, rfl, rfl, rfl, rfl⟩

/-- A step that is neither a reset nor a legal command's leaves the stream and the voices (R37, R41, R42, R47). -/
theorem step_command_or_sameStreamAndVoices (h : step s = .next t) (hn : s.nextAgent ≠ .platform) :
    (s.nextAgent = .seq ∧ ∃ i, decodeWord s.seqCmd = .ok i ∧ ExecEffect s.takeTurn i t) ∨
      s.SameStreamAndVoices t := by
  obtain ⟨-, ⟨-, rfl⟩ | ⟨ha, h⟩ | ⟨-, rfl⟩ | ⟨-, rfl⟩ | ⟨ha, -⟩⟩ := step_cases h
  · obtain ⟨h1, h2, h3, h4, h5⟩ := s.takeTurn.hostTurn_sameStreamAndVoices
    exact .inr ⟨h1, h2, h3, h4, h5⟩
  · obtain ⟨-, rfl⟩ | ⟨-, i, hd, he⟩ | ⟨-, -, rfl⟩ := seqTurn_cases h
    · exact .inr ⟨rfl, rfl, rfl, rfl, rfl⟩
    · exact .inl ⟨ha, i, hd, exec_effect he⟩
    · exact .inr ⟨rfl, rfl, rfl, rfl, rfl⟩
  · obtain ⟨h1, h2, h3, h4, h5⟩ := s.takeTurn.dmaTurn_sameStreamAndVoices
    exact .inr ⟨h1, h2, h3, h4, h5⟩
  · obtain ⟨h1, h2, h3, h4, h5⟩ := s.takeTurn.outTurn_sameStreamAndVoices
    exact .inr ⟨h1, h2, h3, h4, h5⟩
  · exact absurd ha hn

/-- Settles O57: a step that moves the stream is a reset or a command's, and of the commands only SBEGIN and SSTEP move it. -/
theorem onlyStreamCommandsMoveTheStream : Obligations.OnlyStreamCommandsMoveTheStream := by
  intro s t h hne
  by_cases hn : s.nextAgent = .platform
  · exact .inl hn
  obtain ⟨ha, i, hd, e⟩ | hsame := step_command_or_sameStreamAndVoices h hn
  · obtain rfl | rfl := e.writer_of_stream hne
    · exact .inr ⟨ha, .inl hd⟩
    · exact .inr ⟨ha, .inr hd⟩
  · exact hne.elim (absurd hsame.streamState) (absurd hsame.curBuf)

/-- Settles O58: each register of the voices has its own writers among the commands, and no other agent. -/
theorem writersOfTheVoiceRegisters : Obligations.WritersOfTheVoiceRegisters := by
  intro s t h hn
  obtain ⟨ha, i, hd, e⟩ | hsame := step_command_or_sameStreamAndVoices h hn
  · refine ⟨fun hne => ?nvoices, fun hne => ?inc, fun hne => ?phase⟩
    case nvoices =>
      obtain ⟨nv, rfl⟩ := e.writer_of_nvoices hne
      exact ⟨nv, ha, hd⟩
    case inc =>
      obtain ⟨v, x, rfl⟩ := e.writer_of_inc hne
      exact ⟨v, x, ha, hd⟩
    case phase =>
      obtain rfl | ⟨v, x, rfl⟩ := e.writer_of_phase hne
      · exact ⟨ha, .inl hd⟩
      · exact ⟨ha, .inr ⟨v, x, hd⟩⟩
  · exact ⟨absurd hsame.nvoices, absurd hsame.inc, absurd hsame.phase⟩

/-! ### A placed word -/

/-- Settles O7: the placed word is the running command's in phase 1, and the turn it is given is SEQ's. -/
theorem placedWordIsTheNextToRun : Obligations.PlacedWordIsTheNextToRun := by
  intro s w i ha hd
  have hw : BitVec.ofNat 32 (w.toNat % 2 ^ 32) = w := by
    rw [Nat.mod_eq_of_lt w.isLt, BitVec.ofNat_toNat, BitVec.setWidth_eq]
  have hc : (s.withFetchWord 32 w.toNat).seqCmd = w := hw
  rw [stepRunsTheDecodedCommand (s.withFetchWord 32 w.toNat) i ha rfl (by simp [State.withFetchWord]) (by rwa [hc])]
  simp only [State.withFetchWord, hw]
  rfl

/-! ### The STATUS word -/

/-- Each bit of STATUS, by field (R34). -/
theorem Status.toWord_getLsbD (st : Status) (i : Nat) : st.toWord.getLsbD i =
    match i with
    | 0 => st.cmdBusy
    | 2 => st.streamState.bits.getLsbD 0
    | 3 => st.streamState.bits.getLsbD 1
    | 4 => st.curBuf.getLsbD 0
    | 5 => st.drainValid
    | 6 => st.drainBuf.getLsbD 0
    | 8 => st.errIllegal
    | 9 => st.errArg
    | 10 => st.errSeq
    | 11 => st.errOverrun
    | _ => false := by
  simp only [Status.toWord, BitVec.getLsbD_append]
  obtain hi | hi := Nat.lt_or_ge i 12
  · interval_cases i <;> simp
  · obtain ⟨k, rfl⟩ := Nat.exists_eq_add_of_le' hi
    simp

/-- Settles O41: each clause reads its bits off the word. -/
theorem statusWordFields : Obligations.StatusWordFields := by
  intro st
  have hs : st.toWord.extractLsb' 2 2 = st.streamState.bits := by
    apply BitVec.eq_of_getLsbD_eq
    intro i hi
    rw [BitVec.getLsbD_extractLsb', Status.toWord_getLsbD]
    interval_cases i <;> simp
  have hbit (k : Nat) (b : BufId) (hk : st.toWord.getLsbD k = b.getLsbD 0) : st.toWord.extractLsb' k 1 = b := by
    apply BitVec.eq_of_getLsbD_eq
    intro i hi
    interval_cases i
    simpa using hk
  refine ⟨st.toWord_getLsbD 0, ?_, hbit 4 _ (st.toWord_getLsbD 4), st.toWord_getLsbD 5, hbit 6 _ (st.toWord_getLsbD 6),
    st.toWord_getLsbD 8, st.toWord_getLsbD 9, st.toWord_getLsbD 10, st.toWord_getLsbD 11, ?_⟩
  · rw [hs]
    cases st.streamState <;> rfl
  · apply BitVec.eq_of_getLsbD_eq
    intro i hi
    rw [BitVec.getLsbD_and, Status.toWord_getLsbD]
    interval_cases i <;> simp

/-- A write to STATUS takes from the word the error bits of the value written (R244). -/
theorem Status.toWord_clearErrors (st : Status) (w : Word) :
    (st.clearErrors w).toWord = st.toWord &&& ~~~ (w &&& 0x00000F00) := by
  apply BitVec.eq_of_getLsbD_eq
  intro i hi
  rw [BitVec.getLsbD_and, Status.toWord_getLsbD, Status.toWord_getLsbD]
  interval_cases i <;> simp [Status.clearErrors, ErrorBit.code]

/-! ### The registers, read and written -/

/-- HOST's aligned 32-bit write to the register aperture. -/
theorem State.hostTurn_regWrite {off : BitVec 14} {n : Nat} {v : Word} {rest : List HostAct}
    (h : s.hostScript = .write off .word v :: rest) (e : off.toNat = n) (h1 : n < 0x1000) (h2 : n % 4 = 0) :
    s.hostTurn = { s.regWrite n v with hostScript := rest } := by
  simp only [State.hostTurn, h, State.apertureWrite_reg v e h1 h2]

/-- Only CMD, STATUS and CHUNK_LEN take a write (R32). -/
theorem State.regWrite_of_readOnly {n : Nat} (v : Word) (h0 : n ≠ 0x000) (h1 : n ≠ 0x004) (h2 : n ≠ 0x00C) :
    s.regWrite n v = s := by
  unfold State.regWrite
  split
  · exact absurd rfl h0
  · exact absurd rfl h1
  · exact absurd rfl h2
  · rfl

theorem State.regWrite_cmd (v : Word) (hb : s.status.cmdBusy = false) : s.regWrite 0x000 v = s.startCommand v := by
  simp [State.regWrite, hb]

theorem State.regWrite_cmd_busy (v : Word) (hb : s.status.cmdBusy = true) : s.regWrite 0x000 v = s.overrun := by
  simp [State.regWrite, hb]

theorem State.regWrite_chunkLen (v : Word) (hb : s.status.cmdBusy = false) :
    s.regWrite 0x00C v = { s with chunkLen := v.setWidth 16 } := by
  simp [State.regWrite, hb]

theorem State.regWrite_chunkLen_busy (v : Word) (hb : s.status.cmdBusy = true) : s.regWrite 0x00C v = s.overrun := by
  simp [State.regWrite, hb]

/-- An offset that the register map does not list reads 0 (R49, R71). -/
theorem State.regRead_of_reserved {n : Nat} (h : (0x020 ≤ n ∧ n < 0x040) ∨ 0x080 ≤ n) : s.regRead n = 0 := by
  unfold State.regRead
  rw [dif_neg (by omega), dif_neg (by omega)]
  split
  case h_8 => rfl
  all_goals omega

theorem State.regRead_inc (s : State) (v : Fin 8) : s.regRead (0x040 + 4 * v.val) = (s.inc[v]).setWidth 32 := by
  have hv : (0x040 + 4 * v.val - 0x040) / 4 = v.val := by omega
  simp only [State.regRead, hv]
  rw [dif_pos (by omega)]
  rfl

theorem State.regRead_phase (s : State) (v : Fin 8) : s.regRead (0x060 + 4 * v.val) = (s.phase[v]).setWidth 32 := by
  have hv : (0x060 + 4 * v.val - 0x060) / 4 = v.val := by omega
  simp only [State.regRead, hv]
  rw [dif_neg (by omega), dif_pos (by omega)]
  rfl

/-- Settles O36: HOST's write is the register's, which starts the command or overruns. -/
theorem commandWrites : Obligations.CommandWrites := by
  intro s v rest h
  have e : s.hostTurn = { s.regWrite 0x000 v with hostScript := rest } :=
    State.hostTurn_regWrite h rfl (by decide) (by decide)
  refine ⟨fun hb => ?start, fun hb => ?dropped, fun m => State.apertureRead_reg rfl (by decide) (by decide)⟩
  case start =>
    rw [e, State.regWrite_cmd v hb]
    rfl
  case dropped =>
    rw [e, State.regWrite_cmd_busy v hb]
    rfl

/-- Settles O37: HOST's write is the register's, which stores the low half or overruns. -/
theorem chunkLengthWrites : Obligations.ChunkLengthWrites := by
  intro s v rest h
  have e : s.hostTurn = { s.regWrite 0x00C v with hostScript := rest } :=
    State.hostTurn_regWrite h rfl (by decide) (by decide)
  refine ⟨fun hb => ?stored, fun hb => ?dropped⟩
  case stored => rw [e, State.regWrite_chunkLen v hb, BitVec.setWidth_eq_extractLsb' (by decide)]
  case dropped =>
    rw [e, State.regWrite_chunkLen_busy v hb]
    rfl

/-- Settles O39: HOST's write is the register's, which clears bits of STATUS whether or not a command runs. -/
theorem statusWritesClearErrors : Obligations.StatusWritesClearErrors := by
  intro s w rest h
  have e : s.hostTurn = { s with status := s.status.clearErrors w, hostScript := rest } :=
    State.hostTurn_regWrite h rfl (by decide) (by decide)
  rw [e]
  exact ⟨Status.toWord_clearErrors _ w, rfl⟩

/-! ### Reads of RESULT -/

theorem State.resultRead_of_not_busy (hb : s.status.cmdBusy = false) : s.resultRead = s.result := by
  simp [State.resultRead, hb]

/-- A read of RESULT returns the register or the value from before the command (R275). -/
theorem State.resultRead_eq_or (s : State) : s.resultRead = s.result ∨ s.resultRead = s.resultBefore := by
  unfold State.resultRead
  split
  · exact .inr rfl
  · exact .inl rfl

/-- Before SSTEP's last phase the two values are one. -/
theorem State.Inv.resultRead_eq (h : s.Inv) (h4 : s.seqPhase ≠ .four) : s.resultRead = s.result := by
  by_cases h0 : s.seqPhase = .idle
  · exact State.resultRead_of_not_busy (by simpa [h0] using h.busy)
  · obtain e | e := s.resultRead_eq_or
    · exact e
    · rw [e, h.resultBefore_eq h0 h4]

/-- An aligned 32-bit read of the register at `n`. -/
theorem State.apertureRead_ofNat (s : State) (m : Master) {n : Nat} (h1 : n < 0x1000) (h2 : n % 4 = 0) :
    s.apertureRead m (BitVec.ofNat 14 n) .word = some (s.regRead n) :=
  State.apertureRead_reg (by rw [BitVec.toNat_ofNat, Nat.mod_eq_of_lt (by omega)]) h1 h2

/-- Settles O42: an aligned read of the register aperture is `regRead`, which gives each register's value. -/
theorem registerReads : Obligations.RegisterReads := by
  intro s m
  have hr : s.apertureRead m 0x008 .word = some s.resultRead := s.apertureRead_ofNat m (by decide) (by decide)
  rw [hr]
  refine ⟨s.apertureRead_ofNat m (by decide) (by decide), s.apertureRead_ofNat m (by decide) (by decide),
    s.apertureRead_ofNat m (by decide) (by decide), s.apertureRead_ofNat m (by decide) (by decide),
    s.apertureRead_ofNat m (by decide) (by decide), s.apertureRead_ofNat m (by decide) (by decide),
    s.apertureRead_ofNat m (by decide) (by decide), fun v => ⟨?inc, ?phase⟩,
    fun hb => congrArg some (State.resultRead_of_not_busy hb), s.resultRead_eq_or.imp (congrArg some) (congrArg some),
    fun h h4 => congrArg some (h.resultRead_eq h4), fun v t hb ht => ?before⟩
  case inc => rw [s.apertureRead_ofNat m (by omega) (by omega), State.regRead_inc]
  case phase => rw [s.apertureRead_ofNat m (by omega) (by omega), State.regRead_phase]
  case before =>
    rw [State.apertureWrite_reg (n := 0x000) v rfl (by decide) (by decide), State.regWrite_cmd v hb] at ht
    cases ht
    rfl

/-- Settles O43: a reserved offset reads 0, and `regWrite` gives no other offset than CMD, STATUS and CHUNK_LEN a meaning. -/
theorem reservedAndReadOnlyOffsets : Obligations.ReservedAndReadOnlyOffsets := by
  intro s off h1 h2
  have hw (h0 : off.toNat ≠ 0x000) (h4 : off.toNat ≠ 0x004) (hc : off.toNat ≠ 0x00C) (v : Word) :
      s.apertureWrite off .word v = some s := by
    rw [State.apertureWrite_reg v rfl h1 h2, State.regWrite_of_readOnly v h0 h4 hc]
  refine ⟨fun h => ⟨fun m => ?_, hw (by omega) (by omega) (by omega)⟩, fun h => hw (by omega) (by omega) (by omega)⟩
  rw [State.apertureRead_reg rfl h1 h2, State.regRead_of_reserved h]

/-! ### The launch -/

/-- Settles O51: nothing is stored, queued or in flight, and no command runs. -/
theorem invariantAtLaunch : Obligations.InvariantAtLaunch := by
  intro p
  have hd : (State.launch p).DataInv :=
    { memCanonical := State.launch_wf p
      memInRam := fun _ hm => absurd hm List.not_mem_nil
      voices := Nat.zero_le _
      queueBound := Nat.zero_le _
      drain := fun hc => absurd rfl hc }
  exact State.inv_of_idle hd rfl rfl

end Sys2Proof.Machine

/-! # Proofs of the memory statements: transfers, and the windows of the aperture -/

namespace Sys2Proof.Machine

variable {s : State}

/-! ### A recorded transfer -/

/-- A read of the channel in the buffer that the engine's record names is never open: the hold keeps the fill out (R89,
R183). -/
theorem State.bufOpen_dma_of_tracks {b : BufId} (h : s.Tracks b) : s.bufOpen b .dma = false :=
  decide_eq_false fun ho => ho.1 h

/-- The channel at word `k` of the recorded buffer fetches that word (R73, R213, R220). -/
theorem State.dmaFetch_bufWord {b : BufId} {k : Nat} (ha : s.params.admitted = true) (ht : s.Tracks b)
    (hk : k < s.params.bufWords) (hr : s.dma.readAddr = s.params.bufAddr b + BitVec.ofNat 32 (4 * k)) :
    s.dmaFetch = some (s.bufWord b k) := by
  obtain ⟨-, hle, -, -⟩ := Params.admitted_ranges ha
  have hmul : s.params.bufWords * b.toNat ≤ s.params.bufWords := by
    simpa using Nat.mul_le_mul_left s.params.bufWords (Nat.le_of_lt_succ b.isLt)
  have hoff : (s.dma.readAddr - s.params.blockBase).toNat = 0x2000 + 4 * (s.params.bufWords * b.toNat + k) := by
    have hfit := Params.aperture_fits ha
    have haddr := Params.bufAddr_toNat ha b
    simp only [Params.bufWordAddr, Nat.mul_assoc] at haddr
    rw [hr]
    generalize s.params.bufAddr b = a at haddr ⊢
    generalize s.params.bufWords * b.toNat = j at haddr hmul ⊢
    bv_omega
  have hlt : (s.dma.readAddr - s.params.blockBase).toNat < 0x4000 := by omega
  have hcut : ((s.dma.readAddr - s.params.blockBase).setWidth 14).toNat =
      0x2000 + 4 * (s.params.bufWords * b.toNat + k) := by
    rw [BitVec.toNat_setWidth, Nat.mod_eq_of_lt hlt, hoff]
  simp only [State.dmaFetch]
  rw [if_pos hlt, State.apertureRead_window hcut, State.windowRead_buf hk (State.bufOpen_dma_of_tracks ht)]

/-- DMA's step where it is enabled and its read is allowed (R220). -/
theorem State.dmaTurn_of_fetch {w : Word} (hc : s.dma.count ≠ 0) (hq : s.OutqRoom) (hw : s.dmaFetch = some w) :
    s.dmaTurn = { s with
      outq := s.outq ++ [w]
      dma := { s.dma with readAddr := s.dma.readAddr + 4, count := s.dma.count - 1 } } := by
  simp only [State.dmaTurn, hw]
  rw [if_pos ⟨hc, hq⟩]

/-- A recorded transfer of buffer `b`, with the words before word `k` moved, `n` words left to move and room in OUTQ for all
of them. -/
structure State.Transfer (s : State) (b : BufId) (k n : Nat) : Prop where
  admitted : s.params.admitted = true
  tracks : s.Tracks b
  readAddr : s.dma.readAddr = s.params.bufAddr b + BitVec.ofNat 32 (4 * k)
  count : s.dma.count.toNat = n
  inBuffer : k + n ≤ s.params.bufWords
  room : s.outq.length + n ≤ s.params.outFifoDepth

/-- The state after DMA has moved the next word of a transfer, word `k` of buffer `b`. -/
def State.afterWord (s : State) (b : BufId) (k : Nat) : State :=
  { s.takeTurn with
    outq := s.outq ++ [s.bufWord b k]
    dma := { s.dma with readAddr := s.dma.readAddr + 4, count := s.dma.count - 1 } }

variable {b : BufId} {k n : Nat}

theorem State.Transfer.step_eq (h : s.Transfer b k (n + 1)) (hn : s.nextAgent = .dma) :
    step s = .next (s.afterWord b k) := by
  obtain ⟨ha, ht, hr, hc, hk, hq⟩ := h
  have hw : s.takeTurn.dmaFetch = some (s.bufWord b k) :=
    State.dmaFetch_bufWord (s := s.takeTurn) ha ht (by rw [State.takeTurn_params]; omega) hr
  have hne : s.takeTurn.dma.count ≠ 0 := fun h0 => by simp [show s.dma.count = 0 from h0] at hc
  have hroom : s.takeTurn.OutqRoom := by
    simp only [State.OutqRoom, State.takeTurn_outq, State.takeTurn_params]
    omega
  rw [step_dma ha hn, State.dmaTurn_of_fetch hne hroom hw]
  rfl

theorem State.Transfer.afterWord (h : s.Transfer b k (n + 1)) : (s.afterWord b k).Transfer b (k + 1) n := by
  obtain ⟨ha, ht, hr, hc, hk, hq⟩ := h
  refine ⟨ha, ht, ?_, ?_, ?_, ?_⟩
  · show s.dma.readAddr + 4 = s.params.bufAddr b + BitVec.ofNat 32 (4 * (k + 1))
    rw [hr, Nat.mul_succ, BitVec.ofNat_add, ← BitVec.add_assoc]
    rfl
  · show (s.dma.count - 1).toNat = n
    bv_omega
  · show k + 1 + n ≤ s.params.bufWords
    omega
  · show (s.outq ++ [s.bufWord b k]).length + n ≤ s.params.outFifoDepth
    rw [List.length_append, List.length_singleton]
    omega

/-- A run's first step, and the rest of it from there. -/
theorem run_succ_of_step {t : State} (h : step s = .next t) :
    Host.Core.run Sys2Proof.core (n + 1) s = Host.Core.run Sys2Proof.core n t := by
  have hc : Sys2Proof.core.step s = .next t := h
  simp only [Host.Core.run, hc]

/-- One turn of DMA for each word left moves the rest of the buffer's words to OUTQ, in order. -/
theorem State.Transfer.run_eq (h : s.Transfer b k n) {rest : List Agent}
    (ht : s.turns = List.replicate n .dma ++ rest) :
    ∃ t : State, Host.Core.run Sys2Proof.core n s = .next t ∧
      t.outq = s.outq ++ (List.range n).map (fun j => s.bufWord b (k + j)) ∧ t.dma.count = 0 ∧ t.mem = s.mem ∧
      t.status = s.status ∧ t.turns = rest := by
  induction n generalizing s k with
  | zero => exact ⟨s, rfl, by simp, BitVec.eq_of_toNat_eq h.count, rfl, rfl, ht⟩
  | succ n ih =>
    rw [List.replicate_succ, List.cons_append] at ht
    have hs : step s = .next (s.afterWord b k) := h.step_eq (by simp only [State.nextAgent, ht])
    obtain ⟨t, hrun, hq, hc, hm, hst, hts⟩ := ih h.afterWord (congrArg List.tail ht)
    refine ⟨t, ?_, ?_, hc, hm, hst, hts⟩
    · rw [run_succ_of_step hs, hrun]
    · have hword (j : Nat) : (s.afterWord b k).bufWord b (k + 1 + j) = s.bufWord b (k + (j + 1)) := by
        rw [Nat.add_assoc, Nat.add_comm 1 j]
        exact State.bufWord_congr rfl rfl rfl b _
      have hout : (s.afterWord b k).outq = s.outq ++ [s.bufWord b k] := rfl
      simp [hq, hout, hword, List.range_succ_eq_map]

/-- Settles O32: the state after a submit is a transfer with no word moved. -/
theorem transferKeepsTheOrder : Obligations.TransferKeepsTheOrder := by
  intro s b rest ha hv hb hr hc hq ht
  have h : s.Transfer b 0 s.dma.count.toNat :=
    ⟨ha, ⟨hv, hb⟩, by simpa using hr, rfl, by simpa using hc, hq⟩
  simpa using h.run_eq ht

/-! ### Allowed accesses (R76) -/

/-- Whether R76 allows an access: aligned to its size, and a word unless it lies in the chunk window. -/
def AccessAllowed (off : BitVec 14) (w : Width) : Prop :=
  aligned off.toNat w ∧ (w = .word ∨ (0x1000 ≤ off.toNat ∧ off.toNat < 0x2000))

/-- An access that is answered in the register window by `reg`, in the chunk window by `chunk` and in the buffer window by
`buf`, as R76 admits widths there, is left unanswered exactly when it is not allowed. -/
theorem answer_eq_none_iff {α : Type} (off : BitVec 14) (w : Width) (reg chunk buf : α) :
    (if aligned off.toNat w then
      if off.toNat < 0x1000 then if w = .word then some reg else none
      else if off.toNat < 0x2000 then some chunk
      else if w = .word then some buf else none
    else none) = none ↔ ¬ AccessAllowed off w := by
  unfold AccessAllowed
  by_cases hal : aligned off.toNat w
  case neg => simp [hal]
  case pos =>
    obtain h | ⟨h1, h2⟩ | h :
        off.toNat < 0x1000 ∨ (0x1000 ≤ off.toNat ∧ off.toNat < 0x2000) ∨ 0x2000 ≤ off.toNat := by omega
    · simp [h, Nat.not_le.2 h]
    · simp [hal, h1, h2, Nat.not_lt.2 h1]
    · simp [Nat.not_lt.2 h, show ¬ off.toNat < 0x1000 by omega]

theorem State.apertureRead_eq_none_iff (s : State) (m : Master) (off : BitVec 14) (w : Width) :
    s.apertureRead m off w = none ↔ ¬ AccessAllowed off w :=
  answer_eq_none_iff ..

theorem State.apertureWrite_eq_none_iff (s : State) (off : BitVec 14) (w : Width) (v : Word) :
    s.apertureWrite off w v = none ↔ ¬ AccessAllowed off w :=
  answer_eq_none_iff ..

/-! ### HOST's step at a read or a write -/

variable {off : BitVec 14} {w : Width} {v : Word} {rest : List HostAct}

theorem State.hostTurn_read {d : Word} (h : s.hostScript = .read off w :: rest)
    (hd : s.apertureRead .host off w = some d) :
    s.hostTurn = { s with hostScript := rest, hostSeen := s.hostSeen ++ [d] } := by
  simp only [State.hostTurn, h, hd]

theorem State.hostTurn_read_none (h : s.hostScript = .read off w :: rest) (hd : s.apertureRead .host off w = none) :
    s.hostTurn = s := by
  simp only [State.hostTurn, h, hd]

theorem State.hostTurn_write {t : State} (h : s.hostScript = .write off w v :: rest)
    (ht : s.apertureWrite off w v = some t) : s.hostTurn = { t with hostScript := rest } := by
  simp only [State.hostTurn, h, ht]

theorem State.hostTurn_write_none (h : s.hostScript = .write off w v :: rest) (ht : s.apertureWrite off w v = none) :
    s.hostTurn = s := by
  simp only [State.hostTurn, h, ht]

/-- Settles O46: the two accesses follow one rule, and HOST stays at one that it does not allow. -/
theorem disallowedAccessesHaveNoStep : Obligations.DisallowedAccessesHaveNoStep := by
  intro s m off w v
  exact ⟨⟨s.apertureRead_eq_none_iff m off w, s.apertureWrite_eq_none_iff off w v⟩,
    fun _ => State.hostTurn_read_none, fun _ => State.hostTurn_write_none⟩

/-- Settles O47: an allowed read moves HOST on, any other leaves the whole state. -/
theorem readsHaveNoSideEffect : Obligations.ReadsHaveNoSideEffect := by
  intro s off w rest h
  cases hd : s.apertureRead .host off w with
  | some d => rw [State.hostTurn_read h hd]
  | none => rw [State.hostTurn_read_none h hd]

/-! ### The chunk window -/

/-- The bus offset of chunk byte `i` in the window (R72). -/
theorem toNat_chunkOffset {i : Nat} (h : i < 0x1000) : (BitVec.ofNat 14 (0x1000 + i)).toNat = 0x1000 + i := by
  rw [BitVec.toNat_ofNat, Nat.mod_eq_of_lt (by omega)]

/-- The chunk window starts at a multiple of every access size. -/
theorem aligned_chunkOffset {i : Nat} (h : i % w.bytes = 0) : aligned (0x1000 + i) w := by
  cases w <;> simp only [aligned, Width.bytes] at * <;> omega

theorem State.chunkWrite_idle {i : Nat} (w : Width) (v : Word) (hi : i < 2 * s.params.bufWords)
    (hb : s.status.cmdBusy = false) : s.chunkWrite i w v = { s with mem := s.chunkStore i v w.bytes } := by
  simp [State.chunkWrite, hi, hb]

theorem State.chunkWrite_busy {i : Nat} (w : Width) (v : Word) (hi : i < 2 * s.params.bufWords)
    (hb : s.status.cmdBusy = true) : s.chunkWrite i w v = s.overrun := by
  simp [State.chunkWrite, hi, hb]

theorem State.chunkWrite_past {i : Nat} (w : Width) (v : Word) (hi : 2 * s.params.bufWords ≤ i) :
    s.chunkWrite i w v = s := by
  simp [State.chunkWrite, Nat.not_lt.2 hi]

/-- A byte of the RAM outside the bytes a chunk write covers (R75). -/
theorem State.ramByte_chunkStore_other (s : State) {i n a : Nat} (v : Word)
    (h : a < s.params.chunkAddr i ∨ s.params.chunkAddr (i + n) ≤ a) :
    ({ s with mem := s.chunkStore i v n } : State).ramByte a = s.ramByte a := by
  rw [State.ramByte_chunkStore, if_neg (by omega)]

/-- A byte of the chunk RAM after a chunk write (R75, R90). -/
theorem State.chunkByte_chunkStore (s : State) {i n j : Nat} (v : Word) (hj : j < 2 * s.params.bufWords) :
    ({ s with mem := s.chunkStore i v n } : State).chunkByte j =
      if i ≤ j ∧ j < i + n then wordByte v (j - i) else s.chunkByte j := by
  have hpos := s.params.chunkAddr_eq
  simp only [State.chunkByte, State.ramByte_chunkStore, hpos i, hpos (i + n), hpos j, hpos (2 * s.params.bufWords)]
  by_cases hij : i ≤ j ∧ j < i + n
  · rw [if_pos (by omega), if_pos hij, Nat.add_sub_add_left]
  · rw [if_neg (by omega), if_neg hij]

/-- Settles O38: HOST's write is the chunk window's, which stores, overruns or is ignored. -/
theorem chunkWrites : Obligations.ChunkWrites := by
  intro s i w v rest hi hal h
  have e : s.hostTurn = { s.chunkWrite i w v with hostScript := rest } :=
    State.hostTurn_write h (State.apertureWrite_chunk v (toNat_chunkOffset hi) hi (aligned_chunkOffset hal))
  refine ⟨fun hlt hb => ?stored, fun hlt hb => ?dropped, fun hle => ?past⟩
  case stored =>
    rw [State.chunkWrite_idle w v hlt hb] at e
    rw [e]
    exact ⟨fun j hj => s.chunkByte_chunkStore v hj, fun a ha => s.ramByte_chunkStore_other v ha, rfl⟩
  case dropped =>
    rw [e, State.chunkWrite_busy w v hlt hb]
    rfl
  case past => rw [e, State.chunkWrite_past w v hle]

/-- Each byte of a word that is put together from four (R74). -/
theorem wordByte_wordOfBytes (f : Nat → Byte) {j : Nat} (hj : j < 4) :
    wordByte (wordOfBytes (f 0) (f 1) (f 2) (f 3)) j = f j := by
  apply BitVec.eq_of_getLsbD_eq
  intro i hi
  simp only [wordOfBytes, wordByte, BitVec.getLsbD_append, BitVec.getLsbD_extractLsb']
  interval_cases j
  · simp [hi]
  · simp [hi]
  · simp [hi, show ¬ 16 + i < 8 by omega, show ¬ 16 + i - 8 < 8 by omega, show 16 + i - 8 - 8 = i by omega]
  · simp [hi, show ¬ 24 + i < 8 by omega, show ¬ 24 + i - 8 < 8 by omega, show ¬ 24 + i - 8 - 8 < 8 by omega,
      show 24 + i - 8 - 8 - 8 = i by omega]

/-- Byte `j` of a chunk read: the window's where the access covers it, and 0 above its width (R72, R75). -/
theorem State.wordByte_chunkRead (s : State) (i : Nat) (w : Width) {j : Nat} (hj : j < 4) :
    wordByte (s.chunkRead i w) j = if j < w.bytes then s.chunkWindow (i + j) else 0 := by
  rw [← wordByte_wordOfBytes (fun j => if j < w.bytes then s.chunkWindow (i + j) else 0) hj]
  cases w <;> rfl

theorem State.windowRead_past {m : Master} {j : Nat} (h : 2 * s.params.bufWords ≤ j) : s.windowRead m j = 0 := by
  simp [State.windowRead, Nat.not_lt.2 h]

/-- Settles O44: the chunk window byte by byte, and the buffer window past its last word. -/
theorem chunkAndUnusedWindowReads : Obligations.ChunkAndUnusedWindowReads := by
  intro s m
  refine ⟨fun i w hi hal => ⟨s.chunkRead i w, ?_, fun j hj => ?_⟩, fun off _ hlo hal => ?_⟩
  · exact State.apertureRead_chunk (toNat_chunkOffset hi) hi (aligned_chunkOffset hal)
  · rw [ite_and]
    exact s.wordByte_chunkRead i w hj
  · have hoff : off.toNat = 0x2000 + 4 * ((off.toNat - 0x2000) / 4) := by omega
    rw [State.apertureRead_window hoff, State.windowRead_past (by omega)]

/-! ### The buffer window -/

/-- An aligned word write of the buffer window changes nothing (R73). -/
theorem State.apertureWrite_window {j : Nat} (v : Word) (e : off.toNat = 0x2000 + 4 * j) :
    s.apertureWrite off .word v = some s := by
  have hal : aligned (0x2000 + 4 * j) .word := by simp only [aligned, Width.bytes]; omega
  simp [State.apertureWrite, e, hal, show ¬ 0x2000 + 4 * j < 0x1000 by omega, show ¬ 0x2000 + 4 * j < 0x2000 by omega]

/-- Settles O45: the window's word is the buffer's, and a write there is answered by the state as it is. -/
theorem bufferWindow : Obligations.BufferWindow := by
  intro s b k off _ hk hoff
  have hoff' : off.toNat = 0x2000 + 4 * (s.params.bufWords * b.toNat + k) := by rw [hoff]; ring
  refine ⟨fun hf => ?_, fun v => State.apertureWrite_window v hoff'⟩
  have ho : s.bufOpen b .host = false := decide_eq_false hf
  rw [State.apertureRead_window hoff', State.windowRead_buf hk ho]

end Sys2Proof.Machine

/-! # Proofs of the encoding statements: the decoder's rows, the assembler's words, and the first phase of a command -/

namespace Sys2Proof

/-! ### The row of a word -/

/-- The command of the row that a word's `OP` selects, with the word's operand fields, whether or not the fixed bits match;
none for a reserved `OP` (R102, R103, R107). -/
def rowCommand (w : Word) : Option Instr :=
  match (w.extractLsb' 0 4).toNat with
  | 0x0 => some .nop
  | 0x1 => some (.codec (w.extractLsb' 24 8) (w.extractLsb' 16 8))
  | 0x2 => some (.fill (w.extractLsb' 4 1))
  | 0x3 => some (.start (w.extractLsb' 4 1) (w.extractLsb' 16 16))
  | 0x4 => some .busy
  | 0x5 => some .wait
  | 0x6 => some (.push (w.extractLsb' 16 10))
  | 0x7 => some .tick
  | 0x8 => some (.setinc (w.extractLsb' 4 3) (w.extractLsb' 16 16))
  | 0x9 => some (.setph (w.extractLsb' 4 3) (w.extractLsb' 16 16))
  | 0xA => some (.setnv (w.extractLsb' 16 4))
  | 0xB => some .sbegin
  | 0xC => some .sstep
  | _ => none

/-- The decoder selects the row by `OP`, then tests its fixed bits (R107). -/
theorem decodeWord_eq (w : Word) :
    decodeWord w = (rowCommand w).elim (.error .reservedOp) fun i => checkRow w i.mask i.pattern i := by
  have hop : (w.extractLsb' 0 4).toNat < 16 := (w.extractLsb' 0 4).isLt
  unfold decodeWord rowCommand
  generalize (w.extractLsb' 0 4).toNat = op at hop
  interval_cases op <;> rfl

theorem checkRow_eq_ok_iff {w mask pattern : Word} {i j : Instr} :
    checkRow w mask pattern i = .ok j ↔ w &&& mask = pattern ∧ i = j := by
  unfold checkRow
  split <;> simp [*]

/-- A word is legal exactly when the fixed bits of its row match, and then it decodes to its row's command (R104). -/
theorem decodeWord_eq_ok_iff {w : Word} {i : Instr} :
    decodeWord w = .ok i ↔ rowCommand w = some i ∧ w &&& i.mask = i.pattern := by
  rw [decodeWord_eq]
  cases rowCommand w with
  | none => simp
  | some j =>
    rw [Option.elim_some, checkRow_eq_ok_iff, Option.some_inj, and_comm]
    exact and_congr_right fun hij => by rw [hij]

/-- A word of a row whose fixed bits differ from it is illegal for that (R105). -/
theorem decodeWord_of_fixedBits {w : Word} {i : Instr} (hr : rowCommand w = some i) (hm : w &&& i.mask ≠ i.pattern) :
    decodeWord w = .error .fixedBits := by
  rw [decodeWord_eq, hr, Option.elim_some, checkRow, if_neg hm]

theorem rowCommand_of_reserved {w : Word} (h : 0xD ≤ (w.extractLsb' 0 4).toNat) : rowCommand w = none := by
  have hop : (w.extractLsb' 0 4).toNat < 16 := (w.extractLsb' 0 4).isLt
  unfold rowCommand
  generalize (w.extractLsb' 0 4).toNat = op at h hop
  interval_cases op <;> rfl

/-! ### The encoder and the decoder are inverse -/

/-- The fields of a command's word are read back as its operands (R101, R102). -/
theorem rowCommand_encode (i : Instr) : rowCommand (encode i) = some i := by
  have hop : (encode i).extractLsb' 0 4 = i.op := packWord_op ..
  have hsel (n : Nat) (hn : n ≤ 4) : (encode i).extractLsb' 4 n = i.sel.setWidth n := packWord_sel _ _ _ hn
  have himm (n : Nat) : (encode i).extractLsb' 16 n = i.imm.extractLsb' 0 n := packWord_imm _ _ _ 0 n
  have hhi : (encode i).extractLsb' 24 8 = i.imm.extractLsb' 8 8 := packWord_imm _ _ _ 8 8
  unfold rowCommand
  rw [hop]
  cases i with
  | nop | busy | wait | tick | sbegin | sstep => rfl
  | fill b => simp [Instr.op, hsel, Instr.sel]
  | start b n => simp [Instr.op, hsel, himm, Instr.sel, Instr.imm]
  | push c => simp [Instr.op, himm, Instr.imm, BitVec.extractLsb'_setWidth_of_le]
  | setinc v x | setph v x => simp [Instr.op, hsel, himm, Instr.sel, Instr.imm]
  | setnv nv => simp [Instr.op, himm, Instr.imm, BitVec.extractLsb'_setWidth_of_le]
  | codec hi lo =>
    have hlo : (hi ++ lo).extractLsb' 0 8 = lo := BitVec.extractLsb'_append_eq_right
    have hhi' : (hi ++ lo).extractLsb' 8 8 = hi := BitVec.extractLsb'_append_eq_left
    simp [Instr.op, himm, hhi, Instr.imm, hlo, hhi']

/-- Every command's word has the fixed bits of its row (R104). -/
theorem legalWord (i : Instr) : Laws.LegalWord.Statement i := by
  cases i with
  | nop => exact Laws.LegalWord.nop
  | codec hi lo => exact Laws.LegalWord.codec hi lo
  | fill b => exact Laws.LegalWord.fill b
  | start b n => exact Laws.LegalWord.start b n
  | busy => exact Laws.LegalWord.busy
  | wait => exact Laws.LegalWord.wait
  | push c => exact Laws.LegalWord.push c
  | tick => exact Laws.LegalWord.tick
  | setinc v x => exact Laws.LegalWord.setinc v x
  | setph v x => exact Laws.LegalWord.setph v x
  | setnv nv => exact Laws.LegalWord.setnv nv
  | sbegin => exact Laws.LegalWord.sbegin
  | sstep => exact Laws.LegalWord.sstep

/-- Settles O1: the fields read back, and the fixed bits match. -/
theorem decodeOfEncode : Obligations.DecodeOfEncode :=
  fun i => decodeWord_eq_ok_iff.2 ⟨rowCommand_encode i, legalWord i⟩

/-- The operand bits of a word, where its row's MASK is 0, are those of its row's command's word (R102, R104): the two words
are compared bit by bit, and MASK leaves only the bits of the operand fields. -/
theorem getLsbD_encode_of_rowCommand {w : Word} {i : Instr} (hr : rowCommand w = some i) {k : Nat} (hk : k < 32)
    (hm : i.mask.getLsbD k = false) : (encode i).getLsbD k = w.getLsbD k := by
  unfold rowCommand at hr
  split at hr <;> cases hr
  all_goals
    simp only [encode, packWord_getLsbD, Instr.op, Instr.sel, Instr.imm,
      BitVec.extractLsb'_append_extractLsb'_eq_extractLsb']
    interval_cases k <;> simp [Instr.mask] at hm ⊢

/-- Settles O2: the two words agree on the fixed bits, by the row, and on the operand bits. -/
theorem encodeOfDecode : Obligations.EncodeOfDecode := by
  intro w i h
  obtain ⟨hr, hw⟩ := decodeWord_eq_ok_iff.1 h
  have hfixed : encode i &&& i.mask = w &&& i.mask := (legalWord i).trans hw.symm
  apply BitVec.eq_of_getLsbD_eq
  intro k hk
  cases hm : i.mask.getLsbD k with
  | false => exact getLsbD_encode_of_rowCommand hr hk hm
  | true => simpa [hm] using congrArg (·.getLsbD k) hfixed

/-- Settles O3: no row for a reserved `OP`, and for each other `OP` the row whose MASK and MATCH the table lists. -/
theorem reservedEncodingsAreIllegal : Obligations.ReservedEncodingsAreIllegal := by
  refine ⟨fun w h => by rw [decodeWord_eq, rowCommand_of_reserved h, Option.elim_none], fun r hr w hop => ?_⟩
  obtain ⟨i, hi, hmask, hpattern⟩ : ∃ i, rowCommand w = some i ∧ i.mask = r.2.1 ∧ i.pattern = r.2.2 := by
    unfold rowCommand
    rw [hop]
    simp only [List.mem_cons, List.not_mem_nil, or_false] at hr
    obtain rfl | rfl | rfl | rfl | rfl | rfl | rfl | rfl | rfl | rfl | rfl | rfl | rfl := hr <;> exact ⟨_, rfl, rfl, rfl⟩
  rw [← hmask, ← hpattern]
  exact ⟨fun hm => ⟨i, decodeWord_eq_ok_iff.2 ⟨hi, hm⟩⟩, decodeWord_of_fixedBits hi⟩

/-! ### The assembler's words -/

/-- The word of three fields, `(IMM << 16) | (SEL << 4) | OP`, as R101 writes it. -/
theorem packWord_ofNat (x : Nat) {y z : Nat} (hy : y < 16) (hz : z < 16) :
    packWord (BitVec.ofNat 16 x) (BitVec.ofNat 4 y) (BitVec.ofNat 4 z) = BitVec.ofNat 32 (x <<< 16 ||| y <<< 4 ||| z) := by
  apply BitVec.eq_of_getLsbD_eq
  intro k hk
  have bit_ge {n j : Nat} (hn : n < 16) (hj : 4 ≤ j) : n.testBit j = false :=
    Nat.testBit_lt_two_pow (lt_of_lt_of_le hn (Nat.pow_le_pow_right (by decide) hj : 2 ^ 4 ≤ 2 ^ j))
  rw [packWord_getLsbD]
  simp only [BitVec.getLsbD_ofNat, Nat.testBit_or, Nat.testBit_shiftLeft, hk, decide_true, Bool.true_and]
  obtain h | h | h | h : k < 4 ∨ (4 ≤ k ∧ k < 8) ∨ (8 ≤ k ∧ k < 16) ∨ 16 ≤ k := by omega
  · simp [h, show ¬ 16 ≤ k by omega, show ¬ 4 ≤ k by omega]
  · simp [h, show ¬ 16 ≤ k by omega, show ¬ k < 4 by omega, show k - 4 < 4 by omega, bit_ge hz h.1]
  · simp [h, show ¬ 16 ≤ k by omega, show ¬ k < 4 by omega, show ¬ k < 8 by omega,
      bit_ge hz (show 4 ≤ k by omega), bit_ge hy (show 4 ≤ k - 4 by omega)]
  · simp [h, show ¬ k < 4 by omega, show ¬ k < 8 by omega, show ¬ k < 16 by omega, show k - 16 < 16 by omega,
      bit_ge hz (show 4 ≤ k by omega), bit_ge hy (show 4 ≤ k - 4 by omega)]

/-- A line's words, from its operand range and the words of its commands in that range (R108). -/
theorem AsmLine.assemble_eq {l : AsmLine} {p : Prop} [Decidable p] {ws : List Word} (hw : p → l.commands.map encode = ws)
    (hp : l.wellFormed = true ↔ p := by simp [AsmLine.wellFormed, Nat.lt_succ_iff]) :
    l.assemble = if p then some ws else none := by
  unfold AsmLine.assemble
  by_cases h : p
  · rw [if_pos (hp.2 h), if_pos h, hw h]
  · rw [if_neg (mt hp.1 h), if_neg h]

/-- The two bytes of a number, joined (R102). -/
theorem ofNat_byte_append (x : Nat) : BitVec.ofNat 8 (x / 256) ++ BitVec.ofNat 8 x = BitVec.ofNat 16 x := by
  apply BitVec.eq_of_toNat_eq
  simp only [BitVec.toNat_append, BitVec.toNat_ofNat]
  rw [← Nat.shiftLeft_add_eq_or_of_lt (Nat.mod_lt _ (by decide)), Nat.shiftLeft_eq]
  omega

/-- A command whose three fields are numbers has the word of those numbers. -/
theorem encode_eq_ofNat {i : Instr} {x y z : Nat} (himm : i.imm = BitVec.ofNat 16 x) (hsel : i.sel = BitVec.ofNat 4 y)
    (hop : i.op = BitVec.ofNat 4 z) (hy : y < 16) (hz : z < 16) :
    encode i = BitVec.ofNat 32 (x <<< 16 ||| y <<< 4 ||| z) := by
  rw [encode, himm, hsel, hop, packWord_ofNat x hy hz]

section Words

variable {b v : Nat}

theorem encode_codec_ofNat (imm : Nat) :
    encode (.codec (BitVec.ofNat 8 (imm / 256)) (BitVec.ofNat 8 imm)) = BitVec.ofNat 32 (imm <<< 16 ||| 0x1) := by
  simpa using encode_eq_ofNat (i := .codec _ _) (y := 0) (z := 0x1) (ofNat_byte_append imm) rfl rfl (by decide) (by decide)

theorem encode_fill_ofNat (hb : b < 2) : encode (.fill (BitVec.ofNat 1 b)) = BitVec.ofNat 32 (b <<< 4 ||| 0x2) := by
  have hsel : (BitVec.ofNat 1 b).setWidth 4 = BitVec.ofNat 4 b := BitVec.setWidth_ofNat_of_le_of_lt (by decide) hb
  simpa using encode_eq_ofNat (i := .fill _) (x := 0) (z := 0x2) rfl hsel rfl (by omega) (by decide)

theorem encode_start_ofNat (hb : b < 2) (n : Nat) :
    encode (.start (BitVec.ofNat 1 b) (BitVec.ofNat 16 n)) = BitVec.ofNat 32 (n <<< 16 ||| b <<< 4 ||| 0x3) :=
  encode_eq_ofNat rfl (BitVec.setWidth_ofNat_of_le_of_lt (by decide) hb) rfl (by omega) (by decide)

theorem encode_push_ofNat {c : Nat} (hc : c < 1024) :
    encode (.push (BitVec.ofNat 10 c)) = BitVec.ofNat 32 (c <<< 16 ||| 0x6) := by
  have himm : (BitVec.ofNat 10 c).setWidth 16 = BitVec.ofNat 16 c := BitVec.setWidth_ofNat_of_le_of_lt (by decide) hc
  simpa using encode_eq_ofNat (i := .push _) (y := 0) (z := 0x6) himm rfl rfl (by decide) (by decide)

theorem encode_setinc_ofNat (hv : v < 8) (x : Nat) :
    encode (.setinc (BitVec.ofNat 3 v) (BitVec.ofNat 16 x)) = BitVec.ofNat 32 (x <<< 16 ||| v <<< 4 ||| 0x8) :=
  encode_eq_ofNat rfl (BitVec.setWidth_ofNat_of_le_of_lt (by decide) hv) rfl (by omega) (by decide)

theorem encode_setph_ofNat (hv : v < 8) (x : Nat) :
    encode (.setph (BitVec.ofNat 3 v) (BitVec.ofNat 16 x)) = BitVec.ofNat 32 (x <<< 16 ||| v <<< 4 ||| 0x9) :=
  encode_eq_ofNat rfl (BitVec.setWidth_ofNat_of_le_of_lt (by decide) hv) rfl (by omega) (by decide)

theorem encode_setnv_ofNat {nv : Nat} (hn : nv < 16) :
    encode (.setnv (BitVec.ofNat 4 nv)) = BitVec.ofNat 32 (nv <<< 16 ||| 0xA) := by
  have himm : (BitVec.ofNat 4 nv).setWidth 16 = BitVec.ofNat 16 nv := BitVec.setWidth_ofNat_of_le_of_lt (by decide) hn
  simpa using encode_eq_ofNat (i := .setnv _) (y := 0) (z := 0xA) himm rfl rfl (by decide) (by decide)

end Words

/-- `CODECB lo, hi` stands for `CODEC (hi << 8 | lo)` (R109). -/
theorem AsmLine.assemble_codecb {lo hi : Nat} (hlo : lo < 256) (hhi : hi < 256) :
    (AsmLine.codecb lo hi).assemble = (AsmLine.codec (hi <<< 8 ||| lo)).assemble := by
  rw [← Nat.shiftLeft_add_eq_or_of_lt hlo, Nat.shiftLeft_eq]
  have hdiv : (hi * 2 ^ 8 + lo) / 256 = hi := by omega
  have hmod : BitVec.ofNat 8 (hi * 2 ^ 8 + lo) = BitVec.ofNat 8 lo := BitVec.eq_of_toNat_eq (by simp)
  have hlt : hi * 2 ^ 8 + lo < 65536 := by omega
  simp only [AsmLine.assemble, AsmLine.wellFormed, AsmLine.commands, hlo, hhi, hlt, hdiv, hmod, decide_true, Bool.and_self]

/-- The words of a line decode to its commands, since each is a command's word. -/
theorem AsmLine.decode_assemble {l : AsmLine} {ws : List Word} (h : l.assemble = some ws) :
    ws.map decodeWord = l.commands.map .ok := by
  unfold AsmLine.assemble at h
  split at h
  · cases h
    rw [List.map_map]
    exact List.map_congr_left fun i _ => decodeOfEncode i
  · cases h

/-- Settles O5: for each line its range and the words of its commands. -/
theorem assemblerProducesItsCommands : Obligations.AssemblerProducesItsCommands := by
  refine ⟨?fixed, fun imm => ?codec, fun b => ?fill, fun b n => ?start, fun c => ?push, fun v x => ?setinc,
    fun v x => ?setph, fun nv => ?setnv, ?idle, fun lo hi => ?codecb, fun v x => ?voice, ?drain,
    fun l ws h => AsmLine.decode_assemble h⟩
  case fixed => decide
  case idle => decide
  case drain => decide
  case codec => exact AsmLine.assemble_eq fun _ => congrArg ([·]) (encode_codec_ofNat imm)
  case fill => exact AsmLine.assemble_eq fun h => congrArg ([·]) (encode_fill_ofNat (by omega))
  case start => exact AsmLine.assemble_eq fun h => congrArg ([·]) (encode_start_ofNat (by omega) n)
  case push => exact AsmLine.assemble_eq fun h => congrArg ([·]) (encode_push_ofNat (by omega))
  case setinc => exact AsmLine.assemble_eq fun h => congrArg ([·]) (encode_setinc_ofNat (by omega) x)
  case setph => exact AsmLine.assemble_eq fun h => congrArg ([·]) (encode_setph_ofNat (by omega) x)
  case setnv => exact AsmLine.assemble_eq fun h => congrArg ([·]) (encode_setnv_ofNat (by omega))
  case codecb =>
    split
    next h => exact AsmLine.assemble_codecb (by omega) (by omega)
    next h => exact if_neg (by simpa [AsmLine.wellFormed, Nat.lt_succ_iff] using h)
  case voice =>
    refine AsmLine.assemble_eq fun h => ?_
    have hph : encode (.setph (BitVec.ofNat 3 v) 0) = BitVec.ofNat 32 (v <<< 4 ||| 0x9) := by
      simpa using encode_setph_ofNat (v := v) (by omega) 0
    exact congrArg₂ (fun w u => [w, u]) (encode_setinc_ofNat (by omega) x) hph

end Sys2Proof

namespace Sys2Proof.Machine

variable {s t : State}

/-! ### The first phase -/

/-- Settles O10: SEQ's turn on an illegal word is the raise alone. -/
theorem illegalWordRaisesErrIllegal : Obligations.IllegalWordRaisesErrIllegal := by
  intro s e ha hn hp hd
  rw [step_seq ha hn, seqTurn_of_illegal (s := s.takeTurn) hp hd]
  rfl

/-- Settles O12: past the checks of its first phase a command with a hold goes on to the second. -/
theorem checksPassToPhaseTwo : Obligations.ChecksPassToPhaseTwo := by
  intro s hp
  refine ⟨?wait, fun c => ?push, ?tick, fun b n h0 hn => ?start, fun b hc => ?fill, fun hs hc => ?sstep⟩
  case wait => simp only [exec, execWait, hp, State.toPhase]
  case push => simp only [exec, execPush, hp, State.toPhase]
  case tick => simp only [exec, execTick, hp, State.toPhase]
  case start => simp only [exec, execStart, hp, if_neg (Nat.not_lt.2 hn), if_neg h0, State.toPhase]
  case fill =>
    have h : ¬ s.ChunkTooLong := Nat.not_lt.2 hc
    simp only [exec, execFill, hp, if_neg h, State.toPhase]
  case sstep =>
    have h : ¬ s.ChunkTooLong := Nat.not_lt.2 hc
    simp only [exec, execSstep, hp, if_neg h, if_neg (not_not_intro hs), State.toPhase]

/-! ### RESULT -/

/-- The commands that report in RESULT (R111). -/
theorem ExecEffect.writer_of_result {i : Instr} (e : ExecEffect s i t) (h : t.result ≠ s.result) :
    (∃ hi lo, i = .codec hi lo) ∨ (∃ b, i = .fill b) ∨ i = .busy ∨ i = .tick ∨ i = .sstep := by
  cases e with
  | codec hi lo => exact .inl ⟨hi, lo, rfl⟩
  | fill b => exact .inr (.inl ⟨b, rfl⟩)
  | busy => exact .inr (.inr (.inl rfl))
  | tick => exact .inr (.inr (.inr (.inl rfl)))
  | sstepFull | sstepShort => exact .inr (.inr (.inr (.inr rfl)))
  | _ => exact absurd (by simp) h

/-- Only a raise changes ERR_ARG or ERR_SEQ in a command's step (R240, R241). -/
theorem ExecEffect.raise_of_error {i : Instr} (e : ExecEffect s i t)
    (h : t.status.errArg ≠ s.status.errArg ∨ t.status.errSeq ≠ s.status.errSeq) : ∃ b, t = s.raise b := by
  cases e with
  | raise b => exact ⟨b, rfl⟩
  | _ => exact absurd h (by simp)

/-- Settles O59: the eight commands are not among the writers of RESULT, and a raise leaves it. -/
theorem resultIsLeftByTheOthers : Obligations.ResultIsLeftByTheOthers := by
  intro i s t h
  have e := exec_effect h
  refine ⟨fun hi => by_contra fun hr => ?_, fun herr => ?_⟩
  · obtain ⟨_, _, rfl⟩ | ⟨_, rfl⟩ | rfl | rfl | rfl := e.writer_of_result hr <;> simp at hi
  · obtain ⟨b, rfl⟩ := e.raise_of_error herr
    exact s.raise_result b

end Sys2Proof.Machine

/-! # Proofs of the codec statements (spec/40_codec.md) -/

namespace Sys2Proof.Machine

/-! ### The codec in closed form -/

/-- The intermediate value without shifts (R130). -/
theorem codecSum_eq (lo hi : Byte) : codecSum lo hi = 4 * lo.toNat + (hi.toNat + 32) / 64 := by
  simp only [codecSum, codecLshift, codecBias, codecRshift, Nat.shiftLeft_eq, Nat.shiftRight_eq_div_pow]
  omega

theorem codecSum_le (lo hi : Byte) : codecSum lo hi ≤ 1024 := by
  rw [codecSum_eq]
  omega

/-- The two branches of R130 agree modulo 1024, so a code is the intermediate value with the offset added (R132). -/
theorem codec_eq_ofNat (lo hi : Byte) : codec lo hi = BitVec.ofNat 10 (codecSum lo hi + 512) := by
  by_cases h : codecSum lo hi < codecMid
  · exact if_pos h
  · refine (if_neg h).trans (BitVec.eq_of_toNat_eq ?_)
    simp only [codecMid, BitVec.toNat_ofNat] at h ⊢
    omega

theorem codec_toNat (lo hi : Byte) : (codec lo hi).toNat = (codecSum lo hi + 512) % 1024 := by
  rw [codec_eq_ofNat, BitVec.toNat_ofNat]

/-- To add the offset is to invert the top bit of a code: the carry out of bit 9 is lost. -/
theorem ofNat_add_mid_eq_xor (v : Nat) : BitVec.ofNat 10 (v + 512) = BitVec.ofNat 10 v ^^^ 0x200#10 := by
  apply BitVec.eq_of_getLsbD_eq
  intro k hk
  have hmid : (0x200#10).getLsbD k = decide (9 = k) := BitVec.getLsbD_twoPow (w := 10) 9 k
  rw [Nat.add_comm, BitVec.getLsbD_xor, hmid, BitVec.getLsbD_ofNat, BitVec.getLsbD_ofNat]
  obtain h | rfl : k < 9 ∨ k = 9 := by omega
  · have hbit : (512 + v).testBit k = v.testBit k := Nat.testBit_two_pow_add_gt h v
    simp [hbit, h.ne']
  · have hbit : (512 + v).testBit 9 = !v.testBit 9 := Nat.testBit_two_pow_add_eq v 9
    simp [hbit]

/-- Settles O14: the closed form of the code, as a number and as a bit inverted. -/
theorem codecClosedForm : Obligations.CodecClosedForm := by
  rintro lo hi _ rfl
  rw [← codecSum_eq]
  exact ⟨codecSum_le lo hi, codec_toNat lo hi, fun _ => (codec_eq_ofNat lo hi).trans (ofNat_add_mid_eq_xor _)⟩

/-! ### The codec's values -/

/-- Every intermediate value below 1024 has a pair: its upper bits in the low byte, its two low bits at the top of the high
byte. -/
theorem exists_codecSum_eq {v : Nat} (hv : v < 1024) : ∃ lo hi : Byte, codecSum lo hi = v := by
  refine ⟨BitVec.ofNat 8 (v / 4), BitVec.ofNat 8 (64 * (v % 4)), ?_⟩
  rw [codecSum_eq, BitVec.toNat_ofNat, BitVec.toNat_ofNat]
  omega

/-- Every code occurs (R133): the intermediate value is the code with the offset taken back. -/
theorem codec_surjective (c : Code) : ∃ lo hi : Byte, codec lo hi = c := by
  obtain ⟨lo, hi, h⟩ := exists_codecSum_eq (v := (c.toNat + 512) % 1024) (Nat.mod_lt _ (by decide))
  refine ⟨lo, hi, BitVec.eq_of_toNat_eq ?_⟩
  rw [codec_toNat, h]
  omega

/-- The code 512 comes from the two ends of the intermediate value's range, 0 and 1024 (R133). -/
theorem codec_eq_mid_iff (lo hi : Byte) :
    codec lo hi = 512 ↔ (lo.toNat = 0 ∧ hi.toNat < 32) ∨ (lo.toNat = 255 ∧ 224 ≤ hi.toNat) := by
  rw [← BitVec.toNat_inj, codec_toNat, codecSum_eq, show (512 : Code).toNat = 512 from rfl]
  omega

/-- A predicate true exactly on the first `a` and the last `b` of the numbers below `a + (m + b)`. -/
theorem count_ends {p : Nat → Prop} [DecidablePred p] {a m b : Nat} (hfirst : ∀ n < a, p n) (hmid : ∀ n < m, ¬ p (a + n))
    (hlast : ∀ n < b, p (a + (m + n))) : Nat.count p (a + (m + b)) = a + b := by
  rw [Nat.count_add, Nat.count_add, Nat.count_of_forall hfirst, Nat.count_of_forall_not hmid, Nat.count_of_forall hlast,
    Nat.zero_add]

/-- The pairs with code 512, numbered `256 * lo + hi`, are the first 32 and the last 32 of the 65536. -/
theorem midPairs_length :
    ((List.range 65536).filter fun n =>
      (n / 256 = 0 ∧ n % 256 < 32) ∨ (n / 256 = 255 ∧ 224 ≤ n % 256)).length = 64 := by
  rw [← List.countP_eq_length_filter]
  exact count_ends (a := 32) (m := 65472) (b := 32) (by omega) (by omega) (by omega)

/-- Settles O15: the range is the code's width; each code has a pair, and the pairs with code 512 are counted. -/
theorem codecRangeAndPreimages : Obligations.CodecRangeAndPreimages :=
  ⟨fun lo hi => Nat.le_of_lt_succ (codec lo hi).isLt, codec_surjective, codec_eq_mid_iff, midPairs_length⟩

/-! ### The command -/

/-- A code's value by the formula's two cases (R130). -/
theorem codec_toNat_cases (lo hi : Byte) : (codec lo hi).toNat =
    if codecSum lo hi < 512 then codecSum lo hi + 512 else codecSum lo hi - 512 := by
  have hle := codecSum_le lo hi
  rw [codec_toNat]
  split <;> omega

/-- Settles O16: phase 1 writes the code to RESULT and ends the command. -/
theorem codecWritesTheCode : Obligations.CodecWritesTheCode := by
  intro s hi lo hp
  refine ⟨codec lo hi, ?_, ?_⟩
  · rw [← codecSum_eq]
    exact codec_toNat_cases lo hi
  · simp only [exec, execCodec, hp, State.setResult, State.endCommand]

end Sys2Proof.Machine

/-! # Proofs of the oscillator statements (spec/41_oscillator.md) -/

namespace Sys2Proof.Machine

variable {s : State} {keys : BitVec 8} {v : Fin 8}

/-! ### Voices -/

/-- The index is the phase's top nine bits (R153). -/
theorem romIndex_eq_extractLsb' (ph : BitVec 16) : romIndex ph = ph.extractLsb' 7 9 := by
  apply BitVec.eq_of_toNat_eq
  simp [romIndex, romIndexShift]

theorem State.tickPhase_of_active (h : s.VoiceActive keys v) : s.tickPhase keys v = s.phase[v] + s.inc[v] := if_pos h

@[simp] theorem State.tick_phase_getElem (s : State) (keys : BitVec 8) (v : Fin 8) :
    (s.tick keys).phase[v] = s.tickPhase keys v := by
  rw [State.tick_phase, Fin.getElem_fin, Vector.getElem_ofFn]

/-- A voice adds at most one full-scale entry (R156). -/
theorem State.voiceLevel_le (s : State) (keys : BitVec 8) (v : Fin 8) : s.voiceLevel keys v ≤ 1023 := by
  unfold State.voiceLevel
  split
  · exact Nat.le_of_lt_succ (BitVec.isLt _)
  · exact Nat.zero_le _

/-! ### The mixer -/

theorem State.mixSum_eq_sum (s : State) (keys : BitVec 8) : s.mixSum keys = ∑ v, s.voiceLevel keys v :=
  (Fin.sum_univ_def _).symm

/-- Eight full-scale voices bound the sum (R156). -/
theorem State.mixSum_le (s : State) (keys : BitVec 8) : s.mixSum keys ≤ 8184 := by
  rw [State.mixSum_eq_sum]
  exact Finset.sum_le_card_nsmul Finset.univ _ 1023 fun v _ => s.voiceLevel_le keys v

/-- The shifted sum fits ten bits, so that the code keeps all of it (R156). -/
theorem State.mixCode_toNat (s : State) (keys : BitVec 8) : (s.mixCode keys).toNat = s.mixSum keys / 8 := by
  have hle := s.mixSum_le keys
  rw [State.mixCode, mixShift, BitVec.toNat_ofNat, Nat.shiftRight_eq_div_pow]
  omega

/-- Settles O19: each of the eight voices adds at most 1023, and an eighth of the sum fits the code. -/
theorem mixerNeverClips : Obligations.MixerNeverClips :=
  fun s keys => ⟨s.mixSum_le keys, s.mixCode_toNat keys⟩

/-! ### TICK -/

theorem exec_tick_of_canPush (hp : s.seqPhase = .two) (h : s.CanPush) : exec .tick s = .next (s.tick s.keyDraw) := by
  simp only [exec, execTick, hp, if_pos h]

/-- Settles O17: the tick's phases, its code and its frame, each read off the state it leaves. -/
theorem tickAdvancesMixesAndPushes : Obligations.TickAdvancesMixesAndPushes := by
  intro s hp hc hq
  refine ⟨s.tick s.keyDraw, exec_tick_of_canPush hp ⟨hc, hq⟩, s.tick_phase_getElem s.keyDraw, ?mix, rfl⟩
  case mix =>
    simp only [← romIndex_eq_extractLsb', State.tick_phase_getElem, State.tick_mixLast]
    exact (s.mixCode_toNat _).trans (congrArg (· / 8) (s.mixSum_eq_sum _))

/-! ### The period -/

/-- With fixed keys `n` ticks add `n` increments to an active voice's phase. -/
theorem State.tick_iterate_phase (h : s.VoiceActive keys v) (n : Nat) :
    ((fun u : State => u.tick keys)^[n] s).phase[v] = s.phase[v] + BitVec.ofNat 16 n * s.inc[v] := by
  induction n generalizing s with
  | zero => simp
  | succ n ih =>
    have hn : (s.tick keys).VoiceActive keys v := h
    rw [Function.iterate_succ_apply, ih hn, State.tick_phase_getElem, State.tickPhase_of_active h, State.tick_inc,
      BitVec.ofNat_add, BitVec.add_mul, BitVec.one_mul, BitVec.add_assoc, BitVec.add_comm (s.inc[v])]

/-- A multiple of `x` is 0 modulo 2^16 when 65536 divides it, and `x` already has their common divisor. -/
theorem ofNat_mul_eq_zero_iff (n : Nat) (x : BitVec 16) :
    BitVec.ofNat 16 n * x = 0 ↔ 65536 / Nat.gcd 65536 x.toNat ∣ n := by
  have hpos : 0 < Nat.gcd 65536 x.toNat := Nat.gcd_pos_of_pos_left _ (by decide)
  calc BitVec.ofNat 16 n * x = 0
    _ ↔ 65536 ∣ x.toNat * n := by
      rw [← BitVec.toNat_inj, BitVec.toNat_mul, BitVec.toNat_ofNat, Nat.mod_mul_mod, Nat.mul_comm n]
      exact Nat.dvd_iff_mod_eq_zero.symm
    _ ↔ 65536 ∣ Nat.gcd 65536 x.toNat * n := Nat.dvd_gcd_mul_iff_dvd_mul.symm
    _ ↔ 65536 / Nat.gcd 65536 x.toNat ∣ n := (Nat.div_dvd_iff_dvd_mul (Nat.gcd_dvd_left _ _) hpos).symm

/-- Settles O20: `n` increments are 0 modulo 65536 exactly at the multiples of the period. -/
theorem phasePeriod : Obligations.PhasePeriod := by
  intro s keys v n hv hk
  rw [State.tick_iterate_phase ⟨hv, hk⟩, ← ofNat_mul_eq_zero_iff]
  exact add_eq_left

/-! ### SETINC, SETPH and SETNV -/

/-- A write to one voice's register, read at each voice. -/
theorem getElem_setVoice (regs : Vector (BitVec 16) 8) (w : BitVec 3) (x : BitVec 16) (u : Fin 8) :
    (regs.set w.toNat x w.isLt)[u] = if u.val = w.toNat then x else regs[u] := by
  simp only [Fin.getElem_fin, Vector.getElem_set, eq_comm]

theorem exec_setinc_of_one (hp : s.seqPhase = .one) (w : BitVec 3) (x : BitVec 16) :
    exec (.setinc w x) s = .next (State.endCommand { s with inc := s.inc.set w.toNat x w.isLt }) := by
  simp only [exec, execSetinc, hp]

theorem exec_setph_of_one (hp : s.seqPhase = .one) (w : BitVec 3) (x : BitVec 16) :
    exec (.setph w x) s = .next (State.endCommand { s with phase := s.phase.set w.toNat x w.isLt }) := by
  simp only [exec, execSetph, hp]

theorem exec_setnv_of_le (hp : s.seqPhase = .one) {nv : BitVec 4} (h : nv.toNat ≤ maxVoices) :
    exec (.setnv nv) s = .next (State.endCommand { s with nvoices := nv }) := by
  simp only [exec, execSetnv, hp, if_neg (Nat.not_lt.2 h)]

/-- Settles O21: the one phase of each command, its write read back at every voice. -/
theorem voiceCommandsWriteTheirRegister : Obligations.VoiceCommandsWriteTheirRegister := by
  intro s hp
  refine ⟨fun w x => ?setinc, fun w x => ?setph, fun nv h => ?setnv⟩
  case setinc => exact ⟨_, exec_setinc_of_one hp w x, getElem_setVoice s.inc w x, rfl⟩
  case setph => exact ⟨_, exec_setph_of_one hp w x, getElem_setVoice s.phase w x, rfl⟩
  case setnv => exact exec_setnv_of_le hp h

end Sys2Proof.Machine

/-! # Proofs of the double-buffer statements (spec/42_buffer.md) -/

namespace Sys2Proof

/-- Bus address `a` is a byte of buffer `b` (R73). -/
def Params.InBuffer (p : Params) (b : BufId) (a : Nat) : Prop :=
  p.bufWordAddr b 0 ≤ a ∧ a < p.bufWordAddr b 0 + 4 * p.bufWords

end Sys2Proof

namespace Sys2Proof.Machine

variable {s t : State} {b : BufId} {a : Nat}

/-! ### The bytes of a buffer, and what writes them -/

/-- The bytes that a recorded transfer has still to read are bytes of its buffer: none of their addresses wraps (R181,
R213). -/
theorem State.DrainInBuffer.inBuffer (h : s.DrainInBuffer) (ha : s.params.admitted = true) (hc : s.dma.count ≠ 0)
    (hv : s.status.drainValid = true) (hlo : s.dma.readAddr.toNat ≤ a)
    (hhi : a < s.dma.readAddr.toNat + 4 * s.dma.count.toNat) : s.params.InBuffer s.status.drainBuf a := by
  obtain ⟨-, hin⟩ := h hc
  have hlen := hin hv
  have hbase := Params.bufAddr_toNat ha s.status.drainBuf
  have hbounds := s.params.bufWordAddr_bounds s.status.drainBuf
  have hfit := Params.aperture_fits ha
  obtain ⟨-, hwords, -, -⟩ := Params.admitted_ranges ha
  unfold Params.InBuffer
  generalize s.params.bufAddr s.status.drainBuf = base at hlen hbase
  bv_omega

/-- A fill leaves the other buffer (R182). -/
theorem State.ramByte_fill_of_inBuffer {c : BufId} (hl : ¬ s.ChunkTooLong) (hne : b ≠ c)
    (hin : s.params.InBuffer c a) : (s.fill b).ramByte a = s.ramByte a := by
  obtain ⟨hlo, hhi⟩ := hin
  have hle := State.fillCount_le hl
  have hend := s.params.bufWordAddr_eq b s.fillCount
  have hdisj := s.params.bufWordAddr_disjoint hne
  exact (s.fill_ram b).2 a (by omega)

/-- A host write to the chunk RAM leaves both buffers (R72, R73). -/
theorem State.ramByte_chunkStore_of_inBuffer (ha : s.params.admitted = true) (hin : s.params.InBuffer b a) (i : Nat)
    (v : Word) (n : Nat) : ({ s with mem := s.chunkStore i v n } : State).ramByte a = s.ramByte a := by
  obtain ⟨hlo, -⟩ := hin
  obtain ⟨hbuf, -⟩ := s.params.bufWordAddr_bounds b
  obtain ⟨-, hwords, -, -⟩ := Params.admitted_ranges ha
  have hend : s.params.chunkAddr (2 * s.params.bufWords) = s.params.blockBase.toNat + 0x1000 + 2 * s.params.bufWords := rfl
  rw [State.ramByte_chunkStore, if_neg (by omega)]

/-- A command's step leaves the RAM or fills a buffer that is not being drained, its chunk's length checked (R183, R186). -/
theorem exec_mem_cases {i : Instr} (hk : s.ArgsChecked) (hd : decodeWord s.seqCmd = .ok i) (h : exec i s = .next t) :
    t.mem = s.mem ∨ ∃ b, ¬ s.ChunkTooLong ∧ ¬ s.Draining b ∧ t.mem = (s.fill b).mem := by
  by_cases hm : t.mem = s.mem
  · exact .inl hm
  obtain ⟨b, rfl⟩ | rfl := (exec_effect h).writer_of_mem hm
  · obtain ⟨-, -, rfl⟩ | ⟨-, -, rfl⟩ | ⟨-, -, rfl⟩ | ⟨hp, hn, rfl⟩ := execFill_cases h
    · exact .inl rfl
    · exact .inl rfl
    · exact .inl rfl
    · exact .inr ⟨b, (State.argsChecked_fill hp hd).1 hk, hn, rfl⟩
  · obtain ⟨-, -, rfl⟩ | ⟨-, -, -, rfl⟩ | ⟨-, -, -, rfl⟩ | ⟨-, -, rfl⟩ | ⟨hp, hn, rfl⟩ | ⟨-, -, rfl⟩ | ⟨-, -, -, rfl⟩ |
      ⟨-, -, -, rfl⟩ | ⟨-, -, rfl⟩ | ⟨-, -, rfl⟩ := execSstep_cases h
    on_goal 5 => exact .inr ⟨_, ((State.argsChecked_sstep_two hp hd).1 hk).2, hn, rfl⟩
    all_goals exact .inl (by simp)

/-! ### Each agent but the platform leaves a buffer that is being drained -/

theorem State.hostTurn_ramByte_of_inBuffer (ha : s.params.admitted = true) (hin : s.params.InBuffer b a) :
    s.hostTurn.ramByte a = s.ramByte a := by
  obtain ⟨_, _, e⟩ | ⟨-, _, _, e⟩ | ⟨-, _, e⟩ | ⟨_, _, -, e⟩ | ⟨-, _, _, e⟩ | ⟨-, i, v, w, _, e⟩ := s.hostTurn_cases
  case inr.inr.inr.inr.inr =>
    rw [e]
    exact State.ramByte_chunkStore_of_inBuffer ha hin i v w.bytes
  all_goals rw [e]; exact State.ramByte_congr rfl rfl a

theorem State.dmaTurn_ramByte (s : State) (a : Nat) : s.dmaTurn.ramByte a = s.ramByte a := by
  obtain e | ⟨-, -, _, -, e⟩ := s.dmaTurn_cases <;> rw [e]
  exact State.ramByte_congr rfl rfl a

theorem State.outTurn_ramByte (s : State) (a : Nat) : s.outTurn.ramByte a = s.ramByte a := by
  obtain e | ⟨_, _, -, e⟩ := s.outTurn_cases <;> rw [e]
  exact State.ramByte_congr rfl rfl a

/-- A command's step leaves a buffer that is being drained: a fill's hold is over for the other buffer alone (R183, R186,
R188). -/
theorem exec_ramByte_of_draining {i : Instr} (hk : s.ArgsChecked) (hd : decodeWord s.seqCmd = .ok i)
    (h : exec i s = .next t) (hdr : s.Draining b) (hin : s.params.InBuffer b a) : t.ramByte a = s.ramByte a := by
  obtain ⟨-, -, -, -, -, -, -, -, -, -, hr⟩ := (exec_effect h).frame
  obtain hm | ⟨c, hl, hn, hm⟩ := exec_mem_cases hk hd h
  · exact State.ramByte_congr hm hr a
  · have hne : c ≠ b := by
      rintro rfl
      exact hn hdr
    calc t.ramByte a = (s.fill c).ramByte a := State.ramByte_congr hm hr a
      _ = s.ramByte a := State.ramByte_fill_of_inBuffer hl hne hin

theorem seqTurn_ramByte_of_draining (hk : s.ArgsChecked) (h : seqTurn s = .next t) (hdr : s.Draining b)
    (hin : s.params.InBuffer b a) : t.ramByte a = s.ramByte a := by
  obtain ⟨-, rfl⟩ | ⟨-, i, hd, he⟩ | ⟨-, -, rfl⟩ := seqTurn_cases h
  · rfl
  · exact exec_ramByte_of_draining hk hd he hdr hin
  · exact State.ramByte_congr rfl rfl a

/-- Settles O54: the bytes still to be read lie in the recorded buffer, which a fill's hold keeps SEQ from, and no other agent
but the platform writes a buffer. -/
theorem noStepWritesADrainingBuffer : Obligations.NoStepWritesADrainingBuffer := by
  intro s t hinv hown h hn a hlo hhi
  have hc : s.dma.count ≠ 0 := by
    intro h0
    rw [h0] at hhi
    exact Nat.not_lt.2 hlo hhi
  have hv := hown hc
  obtain ⟨ha, h⟩ := step_cases h
  have hin := hinv.drain.inBuffer ha hc hv hlo hhi
  suffices ht : t.ramByte a = s.takeTurn.ramByte a from ht
  obtain ⟨-, rfl⟩ | ⟨-, h⟩ | ⟨-, rfl⟩ | ⟨-, rfl⟩ | ⟨hp, -⟩ := h
  · exact State.hostTurn_ramByte_of_inBuffer (s := s.takeTurn) ha hin
  · exact seqTurn_ramByte_of_draining (s := s.takeTurn) hinv.takeTurn.checked h ⟨⟨hv, rfl⟩, hc⟩ hin
  · exact State.dmaTurn_ramByte _ a
  · exact State.outTurn_ramByte _ a
  · exact absurd hp hn

/-! ### Transfers stay recorded -/

/-- Whether a transfer is recorded is judged by D_COUNT and DRAIN_VALID alone. -/
theorem State.OwnTransfers.congr (h : s.OwnTransfers) (hd : t.dma = s.dma := by simp)
    (hv : t.status.drainValid = s.status.drainValid := by simp) : t.OwnTransfers := by
  unfold State.OwnTransfers
  rw [hd, hv]
  exact h

theorem State.ownTransfers_of_drainValid (h : s.status.drainValid = true) : s.OwnTransfers := fun _ => h

/-- SSTEP's third phase submits, and records, or leaves channel and record (R186, R212). -/
theorem State.OwnTransfers.submitAndSwap (h : s.OwnTransfers) : s.submitAndSwap.OwnTransfers := by
  by_cases h0 : s.seqCount = 0
  · exact h.congr (by simp [h0]) (by simp [h0])
  · exact State.ownTransfers_of_drainValid (by simp only [State.submitAndSwap_status, if_neg h0])

/-- Of the commands only a submit starts a transfer, and it records the buffer (R212). -/
theorem ExecEffect.ownTransfers {i : Instr} (e : ExecEffect s i t) (h : s.OwnTransfers) : t.OwnTransfers := by
  cases e with
  | start => exact State.ownTransfers_of_drainValid rfl
  | sstepFull | sstepShort => exact h.submitAndSwap.congr
  | _ => exact h.congr

theorem State.OwnTransfers.hostTurn (h : s.OwnTransfers) : s.hostTurn.OwnTransfers := by
  obtain ⟨_, _, e⟩ | ⟨-, _, _, e⟩ | ⟨-, _, e⟩ | ⟨_, _, -, e⟩ | ⟨-, _, _, e⟩ | ⟨-, _, _, _, _, e⟩ := s.hostTurn_cases <;>
    rw [e] <;> exact h.congr

theorem State.OwnTransfers.dmaTurn (h : s.OwnTransfers) : s.dmaTurn.OwnTransfers := by
  obtain e | ⟨hc, -, _, -, e⟩ := s.dmaTurn_cases <;> rw [e]
  · exact h
  · exact State.ownTransfers_of_drainValid (h hc)

theorem State.OwnTransfers.outTurn (h : s.OwnTransfers) : s.outTurn.OwnTransfers := by
  obtain e | ⟨_, _, -, e⟩ := s.outTurn_cases <;> rw [e]
  · exact h
  · exact h.congr

theorem seqTurn_ownTransfers (h : s.OwnTransfers) (he : seqTurn s = .next t) : t.OwnTransfers := by
  obtain ⟨-, rfl⟩ | ⟨-, i, -, he⟩ | ⟨-, -, rfl⟩ := seqTurn_cases he
  · exact h
  · exact (exec_effect he).ownTransfers h
  · exact h.congr

/-- Settles O55: one lemma per agent but the platform. -/
theorem ownTransfersKept : Obligations.OwnTransfersKept := by
  intro s t h hs hn
  have ht : s.takeTurn.OwnTransfers := h.congr
  obtain ⟨-, ⟨-, rfl⟩ | ⟨-, he⟩ | ⟨-, rfl⟩ | ⟨-, rfl⟩ | ⟨hp, -⟩⟩ := step_cases hs
  · exact ht.hostTurn
  · exact seqTurn_ownTransfers ht he
  · exact ht.dmaTurn
  · exact ht.outTurn
  · exact absurd hp hn

/-! ### The phases of FILL, SBEGIN and SSTEP past their holds -/

theorem exec_fill_of_not_draining (hp : s.seqPhase = .two) (h : ¬ s.Draining b) :
    exec (.fill b) s = .next ((s.fill b).setResult (BitVec.ofNat 32 s.fillCount)).endCommand := by
  simp only [exec, execFill, hp, if_neg h]

theorem exec_sstep_of_not_draining (hp : s.seqPhase = .two) (h : ¬ s.Draining s.status.curBuf) : exec .sstep s =
    .next (State.toPhase { s.fill s.status.curBuf with seqCount := BitVec.ofNat 11 s.fillCount } .three) := by
  simp only [exec, execSstep, hp, if_neg h]

theorem exec_sstep_of_full (hp : s.seqPhase = .three) (h : s.seqCount = 0 ∨ s.ChannelIdle)
    (hf : s.seqCount.toNat = s.params.bufWords) : exec .sstep s = .next s.submitAndSwap.endCommand := by
  simp only [exec, execSstep, hp, if_pos h, if_pos hf]

theorem exec_sstep_of_short (hp : s.seqPhase = .three) (h : s.seqCount = 0 ∨ s.ChannelIdle)
    (hf : s.seqCount.toNat ≠ s.params.bufWords) : exec .sstep s = .next (s.submitAndSwap.toPhase .four) := by
  simp only [exec, execSstep, hp, if_pos h, if_neg hf]

theorem exec_sstep_of_canPush (hp : s.seqPhase = .four) (h : s.CanPush) : exec .sstep s = .next s.endStream := by
  simp only [exec, execSstep, hp, if_pos h]

/-- The engine's hold of a fill, in the registers it reads (R181). -/
theorem State.not_draining_iff : ¬ s.Draining b ↔
    ¬ (s.status.drainValid = true ∧ s.status.drainBuf = b ∧ s.dma.count ≠ 0) := by
  simp only [State.Draining, State.Tracks, and_assoc]

/-- The whole effect of a fill on the RAM, for any state that keeps the filled RAM (R182). -/
theorem State.fill_ram_of_mem (hp : t.params = s.params) (hm : t.mem = (s.fill b).mem) (hr : t.resets = s.resets) :
    (∀ k, k < s.chunkLen.toNat / 2 →
      t.bufWord b k = (codec (s.chunkByte (2 * k)) (s.chunkByte (2 * k + 1))).setWidth 32) ∧
    ∀ a, (a < s.params.bufWordAddr b 0 ∨ s.params.bufWordAddr b (s.chunkLen.toNat / 2) ≤ a) →
      t.ramByte a = s.ramByte a := by
  obtain ⟨hwords, hbytes⟩ := s.fill_ram b
  rw [State.fillCount_eq] at hwords hbytes
  exact ⟨fun k hk => (State.bufWord_congr (s := s.fill b) hp hm hr b k).trans (hwords k hk),
    fun a ha => (State.ramByte_congr (s := s.fill b) hm hr a).trans (hbytes a ha)⟩

/-- Settles O22: the fill's effect on the RAM, and the registers read off the state it leaves. -/
theorem fillWritesTheChunk : Obligations.FillWritesTheChunk := by
  intro s b _ hp hd _
  have he := exec_fill_of_not_draining hp (State.not_draining_iff.2 hd)
  rw [State.fillCount_eq] at he
  obtain ⟨hwords, hbytes⟩ := State.fill_ram_of_mem (s := s) (b := b)
    (t := ((s.fill b).setResult (BitVec.ofNat 32 (s.chunkLen.toNat / 2))).endCommand) rfl rfl rfl
  exact ⟨_, he, hwords, hbytes, rfl⟩

/-- Settles O24: the fill's effect on the RAM, and a count that fits its eleven bits. -/
theorem sstepFills : Obligations.SstepFills := by
  intro s ha hp hd hl
  obtain ⟨hwords, hbytes⟩ := State.fill_ram_of_mem (s := s) (b := s.status.curBuf)
    (t := State.toPhase { s.fill s.status.curBuf with seqCount := BitVec.ofNat 11 s.fillCount } .three) rfl rfl rfl
  refine ⟨_, exec_sstep_of_not_draining hp (State.not_draining_iff.2 hd), hwords, hbytes, ?count, rfl⟩
  case count =>
    obtain ⟨-, hle, -, -⟩ := Params.admitted_ranges ha
    rw [State.toPhase_seqCount, BitVec.toNat_ofNat, State.fillCount_eq, Nat.mod_eq_of_lt (by omega)]

/-- What SSTEP's third phase writes (R186, R212): the channel, the record of the drained buffer, CUR_BUF, RESULT and the
model's record of a racing fill. -/
theorem State.submitAndSwap_frame (s : State) : s.submitAndSwap = { s with
    result := s.submitAndSwap.result, dma := s.submitAndSwap.dma, fillRaced := s.submitAndSwap.fillRaced,
    status := { s.status with
      curBuf := s.submitAndSwap.status.curBuf, drainValid := s.submitAndSwap.status.drainValid,
      drainBuf := s.submitAndSwap.status.drainBuf, cmdBusy := s.submitAndSwap.status.cmdBusy } } := by
  unfold State.submitAndSwap
  split <;> rfl

theorem State.submitAndSwap_of_empty (h : s.seqCount = 0) :
    s.submitAndSwap.dma = s.dma ∧ s.submitAndSwap.status.drainValid = s.status.drainValid ∧
      s.submitAndSwap.status.drainBuf = s.status.drainBuf ∧ s.submitAndSwap.fillRaced = s.fillRaced := by
  simp [h]

theorem State.submitAndSwap_of_samples (h : s.seqCount ≠ 0) :
    s.submitAndSwap.dma.readAddr = s.params.bufAddr s.status.curBuf ∧
      s.submitAndSwap.dma.writeAddr = s.params.outTxfAddr ∧
      s.submitAndSwap.dma.count.toNat = s.seqCount.toNat ∧ s.submitAndSwap.dma.ctrl = s.params.dmaCtrlWord ∧
      s.submitAndSwap.status.drainValid = true ∧ s.submitAndSwap.status.drainBuf = s.status.curBuf ∧
      s.submitAndSwap.fillRaced = false := by
  have hcount : (s.seqCount.setWidth 32).toNat = s.seqCount.toNat := BitVec.toNat_setWidth_of_le (by decide)
  simp only [State.submitAndSwap_dma, State.submitAndSwap_status, State.submitAndSwap_fillRaced, if_neg h, hcount, and_self]

/-- Settles O25: what the phase writes with and without samples, and the end of the command by the count. -/
theorem sstepSubmitsAndSwaps : Obligations.SstepSubmitsAndSwaps := by
  intro s hp hh
  have hcur : s.submitAndSwap.status.curBuf = s.status.curBuf ^^^ 1 := by rw [State.submitAndSwap_status]
  by_cases hf : s.seqCount.toNat = s.params.bufWords
  · exact ⟨_, exec_sstep_of_full hp hh hf, hcur, rfl, State.submitAndSwap_of_empty, State.submitAndSwap_of_samples,
      fun _ => ⟨rfl, rfl⟩, absurd hf, congrArg State.endCommand s.submitAndSwap_frame⟩
  · have hbusy : s.submitAndSwap.status.cmdBusy = s.status.cmdBusy := by rw [State.submitAndSwap_status]
    exact ⟨_, exec_sstep_of_short hp hh hf, hcur, rfl, State.submitAndSwap_of_empty, State.submitAndSwap_of_samples,
      fun h => absurd h hf, fun _ => ⟨hbusy, rfl⟩, congrArg (State.toPhase · .four) s.submitAndSwap_frame⟩

/-- Settles O23: the one phase of SBEGIN. -/
theorem sbeginStartsAStream : Obligations.SbeginStartsAStream := by
  intro s hp
  simp only [exec, execSbegin, hp, State.endCommand]

/-- Settles O26: the hold is over, and the state it leaves. -/
theorem sstepEndsTheStream : Obligations.SstepEndsTheStream := by
  intro s hp hc hq
  rw [exec_sstep_of_canPush hp ⟨hc, hq⟩]
  rfl

end Sys2Proof.Machine

/-! # Proofs of the transfer statements (spec/43_transfer.md) -/

namespace Sys2Proof

/-- Settles O28: a buffer's address is that of its word 0, which the base's alignment makes a multiple of 4. -/
theorem bufferAddresses : Obligations.BufferAddresses := by
  intro p ha
  obtain ⟨-, -, -, hbase⟩ := Params.admitted_ranges ha
  have haddr := Params.bufAddr_toNat ha
  have h0 : (p.bufAddr 0).toNat = p.blockBase.toNat + 0x2000 := (haddr 0).trans (p.bufWordAddr_zero 0)
  have h1 : (p.bufAddr 1).toNat = p.blockBase.toNat + 0x2000 + 4 * p.bufWords := (haddr 1).trans (p.bufWordAddr_one 0)
  refine ⟨h0, h1, fun b => ⟨haddr b, ?aligned⟩⟩
  case aligned => obtain rfl | rfl := b.eq_zero_or_one <;> omega

end Sys2Proof

namespace Sys2Proof.Machine

variable {s t : State}

/-! ### The commands past their checks and holds -/

/-- The four writes of a submit leave the channel with the transfer's registers (R210, R212). -/
theorem State.submit_eq (s : State) (b : BufId) (n : Word) : s.submit b n = { s with
    dma := ⟨s.params.bufAddr b, s.params.outTxfAddr, n, s.params.dmaCtrlWord⟩
    fillRaced := false
    status := { s.status with drainValid := true, drainBuf := b } } := by
  rw [← s.submit_dma b n]
  rfl

theorem exec_start_of_idle (hp : s.seqPhase = .two) (hc : s.ChannelIdle) (b : BufId) (n : BitVec 16) :
    exec (.start b n) s = .next (s.submit b (n.setWidth 32)).endCommand := by
  simp only [exec, execStart, hp, if_pos hc]

theorem exec_busy_of_one (hp : s.seqPhase = .one) :
    exec .busy s = .next (s.setResult (if s.dma.count = 0 then 0 else 1)).endCommand := by
  simp [exec, execBusy, hp]

theorem exec_wait_of_idle (hp : s.seqPhase = .two) (hc : s.ChannelIdle) : exec .wait s = .next s.endCommand := by
  simp only [exec, execWait, hp, if_pos hc]

theorem exec_push_of_canPush (hp : s.seqPhase = .two) (h : s.CanPush) (c : Code) :
    exec (.push c) s = .next (s.outPush c).endCommand := by
  simp only [exec, execPush, hp, if_pos h]

theorem exec_nop_of_one (hp : s.seqPhase = .one) : exec .nop s = .next s.endCommand := by
  simp only [exec, execNop, hp]

/-- Settles O27: past its hold START submits and ends, and each register answers at its own offset. -/
theorem startSubmits : Obligations.StartSubmits := by
  refine ⟨fun s b n hp hc => ?submit, fun d base v => ?offsets⟩
  case submit =>
    rw [exec_start_of_idle hp hc, State.submit_eq]
    rfl
  case offsets =>
    exact ⟨d.portWrite_offset base .readAddr v, d.portWrite_offset base .writeAddr v,
      d.portWrite_offset base .transCount v, d.portWrite_offset base .ctrlTrig v, d.portRead_offset base .transCount⟩

/-- Settles O29: a count of 0 passes the range check and ends the command. -/
theorem startOfNothing : Obligations.StartOfNothing := by
  intro s b hp
  have hn : ¬ (0 : BitVec 16).toNat > s.params.bufWords := Nat.not_lt_zero _
  simp only [exec, execStart, hp, if_neg hn, if_true, State.endCommand]

/-- Settles O30: one clause per command, each at the phase that ends it. -/
theorem busyWaitPushNop : Obligations.BusyWaitPushNop := by
  intro s
  refine ⟨fun hp => ?busy, fun hp hc => ?wait, fun c hp hc hq => ?push, fun hp => ?nop⟩
  case busy => exact exec_busy_of_one hp
  case wait => exact exec_wait_of_idle hp hc
  case push => exact exec_push_of_canPush hp ⟨hc, hq⟩ c
  case nop => exact exec_nop_of_one hp

/-! ### The steps of the channel and of the output -/

/-- DMA takes no step with the count 0 or OUTQ full (R221). -/
theorem State.dmaTurn_of_disabled (h : s.dma.count = 0 ∨ s.params.outFifoDepth ≤ s.outq.length) : s.dmaTurn = s := by
  have hdis : ¬ (s.dma.count ≠ 0 ∧ s.OutqRoom) := fun ⟨hc, hq⟩ => h.elim hc (Nat.not_le.2 hq)
  simp only [State.dmaTurn, if_neg hdis]

/-- Settles O31: enabled, the channel fetches the buffer's word; with no word left or no room it takes no step. -/
theorem channelMovesOneWord : Obligations.ChannelMovesOneWord := by
  intro s
  refine ⟨fun b k ha hv hb hk hr hc hq => ?moves, State.dmaTurn_of_disabled⟩
  case moves => exact State.dmaTurn_of_fetch hc hq (State.dmaFetch_bufWord ha ⟨hv, hb⟩ hk hr)

/-- Settles O33: the head of an active channel's queue, and the two ways of having no step. -/
theorem outputTakesTheHead : Obligations.OutputTakesTheHead := by
  intro s
  refine ⟨fun w rest ha hq => ?head, fun h => ?none⟩
  case head => simp only [State.outTurn, ha, hq]
  case none =>
    unfold State.outTurn
    split
    · next w rest ha hq =>
      obtain h | h := h
      · exact absurd (ha.symm.trans h) (by decide)
      · exact absurd (hq.symm.trans h) (List.cons_ne_nil w rest)
    · rfl

/-! ### The writers of OUTQ -/

/-- A command's step leaves OUTQ, or pushes one code with its hold over: the channel idle and OUTQ with room (R110,
R224). -/
theorem exec_outq_cases {i : Instr} (h : exec i s = .next t) :
    t.outq = s.outq ∨ s.CanPush ∧ ∃ c : Code, t.outq = s.outq ++ [c.setWidth 32] := by
  by_cases hq : t.outq = s.outq
  · exact .inl hq
  obtain ⟨c, rfl⟩ | rfl | rfl := (exec_effect h).writer_of_outq hq
  · obtain ⟨-, rfl⟩ | ⟨-, -, rfl⟩ | ⟨-, hc, rfl⟩ := execPush_cases h
    · exact .inl rfl
    · exact .inl rfl
    · exact .inr ⟨hc, c, rfl⟩
  · obtain ⟨-, rfl⟩ | ⟨-, -, rfl⟩ | ⟨-, hc, rfl⟩ := execTick_cases h
    · exact .inl rfl
    · exact .inl rfl
    · exact .inr ⟨hc, _, rfl⟩
  · obtain ⟨-, -, rfl⟩ | ⟨-, -, -, rfl⟩ | ⟨-, -, -, rfl⟩ | ⟨-, -, rfl⟩ | ⟨-, -, rfl⟩ | ⟨-, -, rfl⟩ | ⟨-, -, -, rfl⟩ |
      ⟨-, -, -, rfl⟩ | ⟨-, -, rfl⟩ | ⟨-, hc, rfl⟩ := execSstep_cases h
    on_goal 10 => exact .inr ⟨hc, idleCode, rfl⟩
    all_goals exact .inl (by simp)

theorem seqTurn_outq_cases (h : seqTurn s = .next t) :
    t.outq = s.outq ∨ s.CanPush ∧ ∃ c : Code, t.outq = s.outq ++ [c.setWidth 32] := by
  obtain ⟨-, rfl⟩ | ⟨-, i, -, he⟩ | ⟨-, -, rfl⟩ := seqTurn_cases h
  · exact .inl rfl
  · exact exec_outq_cases he
  · exact .inl rfl

/-- HOST has no access that reaches OUTQ (R273). -/
@[simp] theorem State.hostTurn_outq (s : State) : s.hostTurn.outq = s.outq := by
  obtain ⟨_, _, e⟩ | ⟨-, _, _, e⟩ | ⟨-, _, e⟩ | ⟨_, _, -, e⟩ | ⟨-, _, _, e⟩ | ⟨-, _, _, _, _, e⟩ := s.hostTurn_cases <;>
    rw [e] <;> rfl

/-- Settles O35: HOST and a reset leave OUTQ, and each other agent changes it in its own way or leaves it. -/
theorem singleWriterOfTheQueue : Obligations.SingleWriterOfTheQueue := by
  intro s t h hne
  obtain ⟨-, ⟨-, rfl⟩ | ⟨ha, h⟩ | ⟨ha, rfl⟩ | ⟨ha, rfl⟩ | ⟨-, rfl⟩⟩ := step_cases h
  · exact absurd s.takeTurn.hostTurn_outq hne
  · obtain e | ⟨⟨hc, -⟩, hpush⟩ := seqTurn_outq_cases h
    · exact absurd e hne
    · exact .inl ⟨ha, hc, hpush⟩
  · obtain e | ⟨hc, -, w, -, e⟩ := s.takeTurn.dmaTurn_cases
    · exact absurd (congrArg State.outq e) hne
    · exact .inr (.inl ⟨ha, hc, w, congrArg State.outq e⟩)
  · obtain e | ⟨w, rest, hq, e⟩ := s.takeTurn.outTurn_cases
    · exact absurd (congrArg State.outq e) hne
    · exact .inr (.inr ⟨ha, w, by rw [e]; exact hq⟩)
  · exact absurd rfl hne

end Sys2Proof.Machine

/-! # Proofs of the exception statements (spec/60_exceptions.md) -/

namespace Sys2Proof

/-! ### The parameters of an admitted launch -/

/-- A one-bit field is 1 exactly when its bit is set. -/
theorem extractLsb'_eq_one_iff (w : Word) (k : Nat) : w.extractLsb' k 1 = 1 ↔ w.getLsbD k = true := by
  rw [BitVec.getLsbD_eq_extractLsb']
  exact beq_iff_eq.symm

/-- A one-bit field is 0 exactly when its bit is clear. -/
theorem extractLsb'_eq_zero_iff (w : Word) (k : Nat) : w.extractLsb' k 1 = 0 ↔ w.getLsbD k = false := by
  rw [← Bool.not_eq_true, ← extractLsb'_eq_one_iff]
  obtain h | h := BufId.eq_zero_or_one (w.extractLsb' k 1) <;> rw [h] <;> decide

/-- An admitted control word, field by field (R211). -/
theorem Params.ctrlAdmitted_iff (p : Params) : p.ctrlAdmitted = true ↔
    p.dmaCtrlWord.getLsbD 0 = true ∧ p.dmaCtrlWord.getLsbD 1 = true ∧ p.dmaCtrlWord.extractLsb' 2 2 = 2 ∧
    p.dmaCtrlWord.getLsbD 4 = true ∧ p.dmaCtrlWord.getLsbD 5 = false ∧ p.dmaCtrlWord.extractLsb' 6 4 = 0 ∧
    p.dmaCtrlWord.getLsbD 10 = false ∧ p.dmaCtrlWord.extractLsb' 11 4 = p.dmaChannel ∧
    p.dmaCtrlWord.extractLsb' 15 6 = p.outDreq ∧ p.dmaCtrlWord.getLsbD 21 = true ∧
    p.dmaCtrlWord.extractLsb' 22 10 = 0 := by
  simp only [Params.ctrlAdmitted, Bool.and_eq_true, beq_iff_eq, extractLsb'_eq_one_iff, extractLsb'_eq_zero_iff, and_assoc]

/-- The word-aligned addresses and the control word of an admitted launch (R9, R211). -/
theorem Params.admitted_channel {p : Params} (h : p.admitted = true) :
    p.dmaChBase.toNat % 4 = 0 ∧ p.outTxfAddr.toNat % 4 = 0 ∧ p.ctrlAdmitted = true := by
  simp only [Params.admitted, Bool.and_eq_true, decide_eq_true_eq, beq_iff_eq] at h
  obtain ⟨⟨⟨-, hch⟩, htxf⟩, hctrl⟩ := h
  exact ⟨extractLsb'_zero_eq_zero hch, extractLsb'_zero_eq_zero htxf, hctrl⟩

end Sys2Proof

namespace Sys2Proof.Machine

variable {s t : State}

theorem step_of_not_admitted (h : ¬ s.params.admitted = true) : step s = .refused .launchNotAdmitted := if_neg h

/-- Settles O9: each condition contradicts a range or a field that an admitted launch keeps. -/
theorem badLaunchIsRefused : Obligations.BadLaunchIsRefused := by
  intro s h
  refine step_of_not_admitted fun ha => ?_
  obtain ⟨hpos, hle, hdepth, hbase⟩ := Params.admitted_ranges ha
  obtain ⟨hch, htxf, hctrl⟩ := Params.admitted_channel ha
  obtain ⟨hen, hprio, hsize, hread, hwrite, hring, hsel, hchain, htreq, hquiet, hhigh⟩ :=
    (Params.ctrlAdmitted_iff _).1 hctrl
  simp only [hbase, hch, htxf, hen, hprio, hsize, hread, hwrite, hring, hsel, hchain, htreq, hquiet, hhigh, ne_eq,
    not_true, reduceCtorEq, or_false] at h
  omega

/-! ### The errors of START, SETNV, FILL and SSTEP -/

theorem exec_start_of_gt (hp : s.seqPhase = .one) (b : BufId) {n : BitVec 16} (h : n.toNat > s.params.bufWords) :
    exec (.start b n) s = .next (s.raise .arg) := by
  simp only [exec, execStart, hp, if_pos h]

theorem exec_setnv_of_gt (hp : s.seqPhase = .one) {nv : BitVec 4} (h : nv.toNat > maxVoices) :
    exec (.setnv nv) s = .next (s.raise .arg) := by
  simp only [exec, execSetnv, hp, if_pos h]

theorem exec_fill_of_chunkTooLong (hp : s.seqPhase = .one) (b : BufId) (h : s.ChunkTooLong) :
    exec (.fill b) s = .next (s.raise .arg) := by
  simp only [exec, execFill, hp, if_pos h]

theorem exec_sstep_of_not_active (hp : s.seqPhase = .one) (h : s.status.streamState ≠ .active) :
    exec .sstep s = .next (s.raise .seq) := by
  simp only [exec, execSstep, hp, if_pos h]

theorem exec_sstep_of_chunkTooLong (hp : s.seqPhase = .one) (ha : s.status.streamState = .active)
    (h : s.ChunkTooLong) : exec .sstep s = .next (s.raise .arg) := by
  simp only [exec, execSstep, hp, if_neg (not_not_intro ha), if_pos h]

/-- Settles O11: each failed check is a raise, which changes the bit, CMD_BUSY and SEQ_PHASE alone. -/
theorem argumentAndSequenceErrors : Obligations.ArgumentAndSequenceErrors := fun _ hp =>
  ⟨fun b _ hn => exec_start_of_gt hp b hn, fun _ hn => exec_setnv_of_gt hp hn,
    fun b hc => exec_fill_of_chunkTooLong hp b hc, exec_sstep_of_not_active hp, exec_sstep_of_chunkTooLong hp⟩

/-! ### The error bits -/

/-- An error bit, by its name. -/
def Status.error (st : Status) : ErrorBit → Bool
  | .illegal => st.errIllegal
  | .arg => st.errArg
  | .seq => st.errSeq
  | .overrun => st.errOverrun

/-- An error's bit stands in STATUS at its code (R240). -/
theorem Status.toWord_getLsbD_code (st : Status) (b : ErrorBit) : st.toWord.getLsbD b.code = st.error b := by
  rw [Status.toWord_getLsbD]
  cases b <;> rfl

/-- Bits 8 to 11 of STATUS are the four errors' (R240). -/
theorem exists_code_eq {i : Nat} (h8 : 8 ≤ i) (h12 : i < 12) : ∃ b : ErrorBit, b.code = i := by
  obtain rfl | rfl | rfl | rfl : i = 8 ∨ i = 9 ∨ i = 10 ∨ i = 11 := by omega
  · exact ⟨.illegal, rfl⟩
  · exact ⟨.arg, rfl⟩
  · exact ⟨.seq, rfl⟩
  · exact ⟨.overrun, rfl⟩

/-- The other fields of STATUS are kept apart from the error bits. -/
@[simp] theorem Status.error_update (st : Status) (busy valid : Bool) (stream : StreamState) (cur drain : BufId)
    (b : ErrorBit) : Status.error { st with
      cmdBusy := busy, streamState := stream, curBuf := cur, drainValid := valid, drainBuf := drain } b = st.error b := by
  cases b <;> rfl

@[simp] theorem Status.error_setError (st : Status) (e b : ErrorBit) :
    (st.setError e).error b = (decide (e = b) || st.error b) := by
  cases e <;> cases b <;> rfl

@[simp] theorem Status.error_clearErrors (st : Status) (w : Word) (b : ErrorBit) :
    (st.clearErrors w).error b = (st.error b && !w.getLsbD b.code) := by
  cases b <;> rfl

/-- No command clears an error bit (R244): a raise sets one, and no other update writes any. -/
theorem ExecEffect.keeps_error {i : Instr} (e : ExecEffect s i t) {b : ErrorBit} (h : s.status.error b = true) :
    t.status.error b = true := by
  cases e with
  | raise r => simp [h]
  | _ => simpa using h

theorem seqTurn_keeps_error {b : ErrorBit} (he : seqTurn s = .next t) (h : s.status.error b = true) :
    t.status.error b = true := by
  obtain ⟨-, rfl⟩ | ⟨-, i, -, he⟩ | ⟨-, -, rfl⟩ := seqTurn_cases he
  · exact h
  · exact (exec_effect he).keeps_error h
  · simp [h]

/-- HOST clears an error bit only by a write of STATUS with that bit set (R244). -/
theorem State.hostTurn_keeps_error {b : ErrorBit} (h : s.status.error b = true) :
    s.hostTurn.status.error b = true ∨
      ∃ w rest, s.hostScript = .write 0x004 .word w :: rest ∧ w.getLsbD b.code = true := by
  obtain ⟨_, _, e⟩ | ⟨-, _, _, e⟩ | ⟨-, _, e⟩ | ⟨w, rest, hs, e⟩ | ⟨-, _, _, e⟩ | ⟨-, _, _, _, _, e⟩ := s.hostTurn_cases
  on_goal 4 =>
    cases hw : w.getLsbD b.code with
    | true => exact .inr ⟨w, rest, hs, hw⟩
    | false => exact .inl (by rw [e]; simp [h, hw])
  all_goals exact .inl (by rw [e]; simp [h])

@[simp] theorem State.dmaTurn_status (s : State) : s.dmaTurn.status = s.status := by
  obtain e | ⟨-, -, _, -, e⟩ := s.dmaTurn_cases <;> rw [e]

@[simp] theorem State.outTurn_status (s : State) : s.outTurn.status = s.status := by
  obtain e | ⟨_, _, -, e⟩ := s.outTurn_cases <;> rw [e]

/-- An error bit that is set stays set, but for a reset and a STATUS write that names it. -/
theorem step_keeps_error {b : ErrorBit} (hs : step s = .next t) (h : s.status.error b = true) :
    t.status.error b = true ∨ s.nextAgent = .platform ∨
      (s.nextAgent = .host ∧
        ∃ w rest, s.hostScript = .write 0x004 .word w :: rest ∧ w.getLsbD b.code = true) := by
  obtain ⟨-, ⟨hn, rfl⟩ | ⟨-, he⟩ | ⟨-, rfl⟩ | ⟨-, rfl⟩ | ⟨hn, -⟩⟩ := step_cases hs
  · obtain hk | hw := State.hostTurn_keeps_error (s := s.takeTurn) h
    · exact .inl hk
    · exact .inr (.inr ⟨hn, hw⟩)
  · exact .inl (seqTurn_keeps_error he h)
  · exact .inl (by simpa using h)
  · exact .inl (by simpa using h)
  · exact .inr (.inl hn)

/-- Settles O40: bits 8 to 11 are the errors', and a step keeps a set one but in the two named ways. -/
theorem errorBitsAreSticky : Obligations.ErrorBitsAreSticky := by
  intro s t hs i h8 h12 hset hclear
  obtain ⟨b, rfl⟩ := exists_code_eq h8 h12
  rw [Status.toWord_getLsbD_code] at hset hclear
  exact (step_keeps_error hs hset).resolve_left (by simp [hclear])

end Sys2Proof.Machine

/-! # Proofs of the reset and hazard statements (spec/70_reset_and_hazards.md) -/

namespace Sys2Proof.Machine

variable {s : State} {keys : BitVec 8} {v : Fin 8}

/-! ### A tick with no active voice (R276) -/

/-- An inactive voice's phase stays (R152). -/
theorem State.tickPhase_of_inactive (h : ¬ s.VoiceActive keys v) : s.tickPhase keys v = s.phase[v] := if_neg h

/-- An inactive voice adds nothing to the sum (R156). -/
theorem State.voiceLevel_of_inactive (h : ¬ s.VoiceActive keys v) : s.voiceLevel keys v = 0 := if_neg h

theorem State.mixCode_of_silent (h : ∀ v, ¬ s.VoiceActive keys v) : s.mixCode keys = 0 := by
  have hsum : s.mixSum keys = 0 := by
    rw [State.mixSum_eq_sum]
    exact Finset.sum_eq_zero fun v _ => State.voiceLevel_of_inactive (h v)
  rw [State.mixCode, hsum]
  rfl

theorem State.tick_phase_of_silent (h : ∀ v, ¬ s.VoiceActive keys v) : (s.tick keys).phase = s.phase := by
  apply Vector.ext
  intro i hi
  exact (s.tick_phase_getElem keys ⟨i, hi⟩).trans (State.tickPhase_of_inactive (h ⟨i, hi⟩))

/-- Settles O18: with no voice active every summand of the mix is 0 and every phase stays. -/
theorem silentTickPushesZero : Obligations.SilentTickPushesZero := by
  intro s hp hc hq hkeys
  have silent : ∀ v, ¬ s.VoiceActive s.keyDraw v := fun v ⟨hv, hk⟩ =>
    Bool.false_ne_true ((hkeys v hv).symm.trans hk)
  have hmix := State.mixCode_of_silent silent
  refine ⟨s.tick s.keyDraw, exec_tick_of_canPush hp ⟨hc, hq⟩, ?_, hmix, ?_, State.tick_phase_of_silent silent⟩
  · rw [State.tick_outq, hmix]; rfl
  · rw [State.tick_result, hmix]; rfl

/-! ### Reset and launch (R260, R261, R264) -/

/-- Settles O48: the platform's step is `engineReset`, which gives each register its value of R53. -/
theorem resetSetsTheEngine : Obligations.ResetSetsTheEngine := by
  intro s ha hn
  refine ⟨s.takeTurn.engineReset, step_platform ha hn, ?status, rfl, rfl, rfl, rfl, rfl, fun v => ?voice, rfl, rfl⟩
  case status => rw [State.engineReset_status]; decide
  case voice => simp

/-- Settles O49: the platform's step is `engineReset`, which is no update of the external agents' fields. -/
theorem resetSparesTheExternalAgents : Obligations.ResetSparesTheExternalAgents := by
  intro s ha hn
  exact ⟨s.takeTurn.engineReset, step_platform ha hn, rfl, rfl, rfl, rfl, rfl, rfl⟩

theorem State.launch_clean {p : Params} (h : p.admitted = true) : (State.launch p).CleanLaunch :=
  ⟨rfl, rfl, rfl, rfl, rfl, rfl, rfl, rfl, rfl, rfl, rfl, rfl, rfl, h⟩

/-- Settles O50: the reference launch is the launch of admitted parameters. -/
theorem launchesAreClean : Obligations.LaunchesAreClean :=
  ⟨fun _ => State.launch_clean, State.launch_clean (by decide)⟩

end Sys2Proof.Machine

/-! # Proof of the progress statement (R278): every hold is released on a weakly fair run -/

namespace Sys2Proof.Machine

variable {s t : State}

/-! ### The output channel stays active, and what OUT and DMA do to OUTQ and `D_COUNT` -/

@[simp] theorem State.hostTurn_outActive (s : State) : s.hostTurn.outActive = s.outActive := by
  obtain ⟨_, _, e⟩ | ⟨-, _, _, e⟩ | ⟨-, _, e⟩ | ⟨_, _, -, e⟩ | ⟨-, _, _, e⟩ | ⟨-, _, _, _, _, e⟩ := s.hostTurn_cases <;>
    rw [e] <;> rfl

@[simp] theorem State.hostTurn_dma (s : State) : s.hostTurn.dma = s.dma := by
  obtain ⟨_, _, e⟩ | ⟨-, _, _, e⟩ | ⟨-, _, e⟩ | ⟨_, _, -, e⟩ | ⟨-, _, _, e⟩ | ⟨-, _, _, _, _, e⟩ := s.hostTurn_cases <;>
    rw [e] <;> rfl

@[simp] theorem State.dmaTurn_outActive (s : State) : s.dmaTurn.outActive = s.outActive := by
  obtain e | ⟨-, -, _, -, e⟩ := s.dmaTurn_cases <;> rw [e]

@[simp] theorem State.dmaTurn_turns (s : State) : s.dmaTurn.turns = s.turns := by
  obtain e | ⟨-, -, _, -, e⟩ := s.dmaTurn_cases <;> rw [e]

@[simp] theorem State.outTurn_outActive (s : State) : s.outTurn.outActive = s.outActive := by
  obtain e | ⟨_, _, -, e⟩ := s.outTurn_cases <;> rw [e]

@[simp] theorem State.outTurn_turns (s : State) : s.outTurn.turns = s.turns := by
  obtain e | ⟨_, _, -, e⟩ := s.outTurn_cases <;> rw [e]

@[simp] theorem State.outTurn_dma (s : State) : s.outTurn.dma = s.dma := by
  obtain e | ⟨_, _, -, e⟩ := s.outTurn_cases <;> rw [e]

theorem State.outTurn_outq_length_le (s : State) : s.outTurn.outq.length ≤ s.outq.length := by
  obtain e | ⟨_, _, hq, e⟩ := s.outTurn_cases <;> rw [e]
  simp [hq]

theorem seqTurn_outActive (h : seqTurn s = .next t) : t.outActive = s.outActive := by
  obtain ⟨-, rfl⟩ | ⟨-, i, -, he⟩ | ⟨-, -, rfl⟩ := seqTurn_cases h
  · rfl
  · obtain ⟨-, -, -, hact, -⟩ := (exec_effect he).frame
    exact hact
  · rfl

theorem step_outActive (h : step s = .next t) : t.outActive = s.outActive := by
  obtain ⟨-, ⟨-, rfl⟩ | ⟨-, he⟩ | ⟨-, rfl⟩ | ⟨-, rfl⟩ | ⟨-, rfl⟩⟩ := step_cases h
  · simp
  · exact seqTurn_outActive (s := s.takeTurn) he
  · simp
  · simp
  · rfl

/-! ### The states of an admitted launch whose output channel is active -/

/-- What R278 supposes of the launch, in the form that every step keeps. -/
structure State.Live (s : State) : Prop where
  inv : s.Inv
  admitted : s.params.admitted = true
  outActive : s.outActive = true

theorem State.Live.depth_pos (h : s.Live) : 0 < s.params.outFifoDepth :=
  (Params.admitted_ranges h.admitted).2.2.1

theorem State.Live.step (h : s.Live) (hs : Machine.step s = .next t) : t.Live where
  inv := invariantKept s t h.inv hs
  admitted := (parametersAreConstant s t hs).symm ▸ h.admitted
  outActive := (step_outActive hs).trans h.outActive

theorem State.Live.nth (h : s.Live) (n : Nat) : (s.nth n).Live := by
  induction n with
  | zero => exact h
  | succ n ih =>
    obtain ⟨t, ht⟩ := stepsNeverStop _ ih.inv ih.admitted
    exact State.nth_succ ht ▸ ih.step ht

theorem State.Live.step_nth (h : s.Live) (n : Nat) : Machine.step (s.nth n) = .next (s.nth (n + 1)) := by
  obtain ⟨t, ht⟩ := stepsNeverStop _ (h.nth n).inv (h.nth n).admitted
  rw [State.nth_succ ht, ht]

/-- OUT's step leaves room in OUTQ: it takes a word, or there was none (R223). -/
theorem State.Live.outqRoom_of_out (h : s.Live) (hn : s.nextAgent = .out) (hs : Machine.step s = .next t) :
    t.OutqRoom := by
  have hpos := h.depth_pos
  have hle := h.inv.queueBound
  cases (step_out h.admitted hn).symm.trans hs
  simp only [State.OutqRoom, State.outTurn_params, State.takeTurn_params]
  cases hq : s.outq with
  | nil => exact lt_of_le_of_lt s.takeTurn.outTurn_outq_length_le (by simpa [hq] using hpos)
  | cons w rest =>
    obtain ⟨head, -⟩ := outputTakesTheHead s.takeTurn
    rw [head w rest h.outActive hq]
    rw [hq, List.length_cons] at hle
    exact hle

/-- With a word left and room in OUTQ, DMA's step moves one word (R220). -/
theorem State.Live.count_of_dma (h : s.Live) (hn : s.nextAgent = .dma) (hc : s.dma.count ≠ 0) (hq : s.OutqRoom)
    (hs : Machine.step s = .next t) : t.dma.count = s.dma.count - 1 := by
  cases (step_dma h.admitted hn).symm.trans hs
  obtain ⟨w, hw⟩ := State.dmaFetch_isSome (s := s.takeTurn) h.admitted (h.inv.drain hc).1
  rw [State.dmaTurn_of_fetch (s := s.takeTurn) hc hq hw]
  rfl

theorem toNat_sub_one_lt {w : Word} (h : w ≠ 0) : (w - 1).toNat < w.toNat := by bv_omega

/-! ### Alternate turns of OUT and DMA -/

/-- One turn of OUT and one of DMA move one word, whatever OUTQ held (R278). -/
theorem State.Live.out_dma_moves {l : List Agent} (h : s.Live) (hc : s.dma.count ≠ 0) (ht : s.turns = .out :: .dma :: l) :
    ∃ t u, Machine.step s = .next t ∧ Machine.step t = .next u ∧ u.Live ∧ u.dma.count = s.dma.count - 1 ∧ u.turns = l := by
  have hn : s.nextAgent = .out := by simp only [State.nextAgent, ht]
  have h1 := step_out h.admitted hn
  have hroom := h.outqRoom_of_out hn h1
  have hlive := h.step h1
  have hturns : s.takeTurn.outTurn.turns = .dma :: l := by simp [ht]
  have hn' : s.takeTurn.outTurn.nextAgent = .dma := by simp only [State.nextAgent, hturns]
  have h2 := step_dma hlive.admitted hn'
  refine ⟨_, _, h1, h2, hlive.step h2, ?count, ?turns⟩
  case count => simpa using hlive.count_of_dma hn' (by simpa using hc) hroom h2
  case turns => simp [ht]

/-- One pair of turns for each word left drains the transfer. -/
theorem State.Live.alternation_drains {n : Nat} {rest : List Agent} (h : s.Live) (hc : s.dma.count.toNat = n)
    (ht : s.turns = (List.replicate n [Agent.out, Agent.dma]).flatten ++ rest) :
    ∃ t : State, Host.Core.run Sys2Proof.core (2 * n) s = .next t ∧ t.dma.count = 0 := by
  induction n generalizing s with
  | zero => exact ⟨s, rfl, BitVec.eq_of_toNat_eq hc⟩
  | succ n ih =>
    have hne : s.dma.count ≠ 0 := fun h0 => by simp [h0] at hc
    obtain ⟨t, u, h1, h2, hu, hcount, hturns⟩ := h.out_dma_moves hne (by simpa [List.replicate_succ] using ht)
    obtain ⟨x, hrun, hx⟩ := ih hu (by bv_omega) hturns
    exact ⟨x, by rw [Nat.mul_succ, run_succ_of_step h1, run_succ_of_step h2, hrun], hx⟩

/-! ### Rules for runs -/

/-- On the run from `s`, whenever `P` holds, `Q` holds then or later. -/
def State.LeadsTo (s : State) (P Q : State → Prop) : Prop :=
  ∀ n, P (s.nth n) → ∃ m, n ≤ m ∧ Q (s.nth m)

/-- A step from a state with `P` and not `Q` keeps `P` or reaches `Q`. -/
def KeptUntil (P Q : State → Prop) : Prop :=
  ∀ t u : State, t.Live → P t → ¬ Q t → step t = .next u → P u ∨ Q u

variable {P Q R : State → Prop}

theorem State.LeadsTo.trans (h1 : s.LeadsTo P Q) (h2 : s.LeadsTo Q R) : s.LeadsTo P R := by
  intro n hn
  obtain ⟨m, hm, hq⟩ := h1 n hn
  obtain ⟨k, hk, hr⟩ := h2 m hq
  exact ⟨k, hm.trans hk, hr⟩

/-- What is kept until `Q` stands at every later step at which there has been no `Q`. -/
theorem KeptUntil.nth (hk : KeptUntil P Q) (h : s.Live) {n : Nat} (hn : P (s.nth n)) :
    ∀ m, n ≤ m → P (s.nth m) ∨ ∃ k, n ≤ k ∧ Q (s.nth k) := by
  intro m hm
  induction m, hm using Nat.le_induction with
  | base => exact .inl hn
  | succ m hm ih =>
    obtain hp | hq := ih
    · by_cases hq : Q (s.nth m)
      · exact .inr ⟨m, hm, hq⟩
      · exact (hk _ _ (h.nth m) hp hq (h.step_nth m)).imp_right fun hq => ⟨m + 1, Nat.le_succ_of_le hm, hq⟩
    · exact .inr hq

/-- What is kept until `Q` still stands, without `Q`, when `R` comes. -/
theorem KeptUntil.leadsTo_and (hk : KeptUntil P Q) (h : s.Live) (hr : s.LeadsTo P R) :
    s.LeadsTo P fun t => Q t ∨ (P t ∧ R t) := by
  intro n hn
  obtain ⟨m, hm, hr⟩ := hr n hn
  obtain hp | ⟨k, hk, hq⟩ := hk.nth h hn m hm
  · exact ⟨m, hm, .inr ⟨hp, hr⟩⟩
  · exact ⟨k, hk, .inl hq⟩

/-- The use of weak fairness: an agent that `P` enables, and whose step from `P` reaches `Q`, leads from `P` to `Q`. -/
theorem KeptUntil.leadsTo_of_fair {a : Agent} {enabled : State → Prop} (hk : KeptUntil P Q) (h : s.Live)
    (hf : s.FairTo a enabled) (he : ∀ t, t.Live → P t → ¬ Q t → enabled t)
    (hm : ∀ t u, t.Live → P t → ¬ Q t → t.nextAgent = a → step t = .next u → Q u) : s.LeadsTo P Q := by
  intro n hn
  by_contra hno
  have never : ∀ k, n ≤ k → ¬ Q (s.nth k) := fun k hk hq => hno ⟨k, hk, hq⟩
  have always : ∀ m, n ≤ m → P (s.nth m) := fun m hm => (hk.nth h hn m hm).resolve_right hno
  obtain ⟨m, hle, hmove⟩ := hf n fun m hle => he _ (h.nth m) (always m hle) (never m hle)
  exact never (m + 1) (Nat.le_succ_of_le hle) (hm _ _ (h.nth m) (always m hle) (never m hle) hmove (h.step_nth m))

/-- A measure that falls again and again until `Q` gets to `Q`. -/
theorem State.leadsTo_of_falling (μ : State → Nat)
    (h : ∀ k, s.LeadsTo (fun t => μ t = k) fun t => Q t ∨ μ t < k) : s.LeadsTo (fun _ => True) Q := by
  intro n _
  induction hk : μ (s.nth n) using Nat.strong_induction_on generalizing n with
  | _ k ih =>
    obtain ⟨m, hm, hq | hlt⟩ := h k n hk
    · exact ⟨m, hm, hq⟩
    · obtain ⟨j, hj, hq⟩ := ih _ hlt m rfl
      exact ⟨j, hm.trans hj, hq⟩

/-! ### A transfer drains -/

/-- While the channel is busy, only DMA's own step with room in OUTQ changes it or makes OUTQ longer (R225, R261). -/
theorem step_of_busy_channel (h : step s = .next t) (hc : s.dma.count ≠ 0) :
    (s.nextAgent = .dma ∧ s.OutqRoom) ∨ (t.dma = s.dma ∧ t.outq.length ≤ s.outq.length) := by
  obtain ⟨-, ⟨-, rfl⟩ | ⟨-, he⟩ | ⟨hn, rfl⟩ | ⟨-, rfl⟩ | ⟨-, rfl⟩⟩ := step_cases h
  · exact .inr ⟨by simp, by simp⟩
  · obtain ⟨hd, hq⟩ := seqTurn_busy he hc
    exact .inr ⟨hd, (congrArg List.length hq).le⟩
  · obtain e | ⟨-, hq, -⟩ := s.takeTurn.dmaTurn_cases
    · exact .inr ⟨by rw [e]; rfl, by rw [e]; rfl⟩
    · exact .inl ⟨hn, hq⟩
  · exact .inr ⟨by simp, s.takeTurn.outTurn_outq_length_le⟩
  · exact .inr ⟨rfl, le_refl _⟩

/-- A full OUTQ gets room while the count stays: OUT is enabled, and DMA is not. -/
theorem State.WeaklyFair.room_of_busy (hf : s.WeaklyFair) (h : s.Live) {c : Word} (hc : c ≠ 0) :
    s.LeadsTo (fun t => t.dma.count = c) fun t => t.dma.count = c ∧ t.OutqRoom := by
  refine KeptUntil.leadsTo_of_fair (fun t u hl hp hq hs => ?kept) h hf.out (fun t hl hp hq => ?enabled)
    fun t u hl hp _ hn hs => ?moves
  case kept =>
    obtain ⟨-, hroom⟩ | ⟨hd, -⟩ := step_of_busy_channel hs (hp ▸ hc)
    · exact absurd ⟨hp, hroom⟩ hq
    · exact .inl (by rw [hd, hp])
  case enabled =>
    refine ⟨hl.outActive, fun hnil => hq ⟨hp, ?_⟩⟩
    simpa [State.OutqRoom, hnil] using hl.depth_pos
  case moves =>
    refine ⟨?_, hl.outqRoom_of_out hn hs⟩
    obtain ⟨hn', -⟩ | ⟨hd, -⟩ := step_of_busy_channel hs (hp ▸ hc)
    · exact absurd (hn.symm.trans hn') (by decide)
    · rw [hd, hp]

/-- With room in OUTQ the count falls: DMA is enabled. -/
theorem State.WeaklyFair.falls_of_room (hf : s.WeaklyFair) (h : s.Live) {c : Word} (hc : c ≠ 0) :
    s.LeadsTo (fun t => t.dma.count = c ∧ t.OutqRoom) fun t => t.dma.count.toNat < c.toNat := by
  have moves (t u : State) (hl : t.Live) (hp : t.dma.count = c ∧ t.OutqRoom) (hn : t.nextAgent = .dma)
      (hs : step t = .next u) : u.dma.count.toNat < c.toNat := by
    rw [hl.count_of_dma hn (hp.1 ▸ hc) hp.2 hs, hp.1]
    exact toNat_sub_one_lt hc
  refine KeptUntil.leadsTo_of_fair (fun t u hl hp _ hs => ?kept) h hf.dma (fun t _ hp _ => ⟨hp.1 ▸ hc, hp.2⟩)
    fun t u hl hp _ => moves t u hl hp
  obtain ⟨hn, -⟩ | ⟨hd, hle⟩ := step_of_busy_channel hs (hp.1 ▸ hc)
  · exact .inr (moves t u hl hp hn hs)
  · refine .inl ⟨by rw [hd, hp.1], lt_of_le_of_lt hle ?_⟩
    rw [parametersAreConstant t u hs]
    exact hp.2

/-- Again and again the channel is idle (R278, R268). -/
theorem State.WeaklyFair.drains (hf : s.WeaklyFair) (h : s.Live) : s.LeadsTo (fun _ => True) State.ChannelIdle := by
  refine State.leadsTo_of_falling (fun t => t.dma.count.toNat) fun k n hn => ?_
  by_cases hc : (s.nth n).dma.count = 0
  · exact ⟨n, le_refl n, .inl hc⟩
  · obtain ⟨m, hm, hlt⟩ := ((hf.room_of_busy h hc).trans (hf.falls_of_room h hc)) n rfl
    exact ⟨m, hm, .inr (hn ▸ hlt)⟩

/-! ### Every hold is released -/

/-- Phase `p` of the command word `w` is to run next. -/
def State.At (s : State) (p : SeqPhase) (w : Word) : Prop := s.seqPhase = p ∧ s.seqCmd = w

/-- The hold at phase `p` of `w` is over, or the platform resets. -/
def State.Released (s : State) (p : SeqPhase) (w : Word) : Prop :=
  s.nextAgent = .platform ∨ (s.HoldOver ∧ s.At p w)

theorem State.Inv.cmdBusy_of_held (h : s.Inv) (hh : ¬ s.HoldOver) : s.status.cmdBusy = true :=
  h.busy.2 fun hp => hh (State.holdOver_of_idle hp)

/-- At a hold, a step that is no reset leaves the command where it is and an idle channel idle. -/
theorem step_of_held (h : s.Inv) (hh : ¬ s.HoldOver) (hn : s.nextAgent ≠ .platform) (hs : step s = .next t) :
    t.seqPhase = s.seqPhase ∧ t.seqCmd = s.seqCmd ∧ (s.ChannelIdle → t.ChannelIdle) := by
  by_cases hseq : s.nextAgent = .seq
  · have hturn := (step_seq (step_cases hs).1 hseq).symm.trans hs
    obtain ⟨-, rfl⟩ | ⟨ho, -⟩ := seqTurn_hold hturn fun hp => hh (State.holdOver_of_idle hp)
    · exact ⟨rfl, rfl, id⟩
    · exact absurd ho hh
  · obtain ⟨hp, hw, -, -, -, -, ⟨-, hc⟩ | ⟨hd, -⟩⟩ := step_beside hs (h.cmdBusy_of_held hh) hseq hn
    · exact ⟨hp, hw, fun hi => absurd hi hc⟩
    · exact ⟨hp, hw, fun hi => by rw [State.ChannelIdle, hd]; exact hi⟩

variable {p : SeqPhase} {w : Word}

/-- What is not released is held. -/
theorem State.At.held (h : s.At p w) (hr : ¬ s.Released p w) : s.nextAgent ≠ .platform ∧ ¬ s.HoldOver :=
  ⟨fun hn => hr (.inl hn), fun hh => hr (.inr ⟨hh, h⟩)⟩

/-- A command stays at its hold until the hold is over or a reset comes. -/
theorem at_keptUntil_released (p : SeqPhase) (w : Word) : KeptUntil (·.At p w) (·.Released p w) := by
  rintro t u hl hat hr hs
  obtain ⟨hn, hh⟩ := hat.held hr
  obtain ⟨hp, hw, -⟩ := step_of_held hl.inv hh hn hs
  exact .inl ⟨hp.trans hat.1, hw.trans hat.2⟩

/-- With the channel idle only a full OUTQ holds, and OUT makes room in it. -/
theorem State.WeaklyFair.released_of_idle (hf : s.WeaklyFair) (h : s.Live) (p : SeqPhase) (w : Word) :
    s.LeadsTo (fun t => t.At p w ∧ t.ChannelIdle) (·.Released p w) := by
  have kept (t u : State) (hl : t.Live) (ht : t.At p w ∧ t.ChannelIdle) (hr : ¬ t.Released p w)
      (hs : step t = .next u) : u.At p w ∧ u.ChannelIdle := by
    obtain ⟨hn, hh⟩ := ht.1.held hr
    obtain ⟨hp, hw, hi⟩ := step_of_held hl.inv hh hn hs
    exact ⟨⟨hp.trans ht.1.1, hw.trans ht.1.2⟩, hi ht.2⟩
  refine KeptUntil.leadsTo_of_fair (fun t u hl ht hr hs => .inl (kept t u hl ht hr hs)) h hf.out
    (fun t hl ht hr => ⟨hl.outActive, fun hnil => ?enabled⟩) fun t u hl ht hr hn hs => ?moves
  case enabled =>
    refine (ht.1.held hr).2 (State.holdOver_of_canPush ⟨ht.2, ?_⟩)
    simpa [State.OutqRoom, hnil] using hl.depth_pos
  case moves =>
    obtain ⟨hat, hi⟩ := kept t u hl ht hr hs
    exact .inr ⟨State.holdOver_of_canPush ⟨hi, hl.outqRoom_of_out hn hs⟩, hat⟩

/-- Every hold is released in its phase, or a reset comes (R278). -/
theorem State.WeaklyFair.released (hf : s.WeaklyFair) (h : s.Live) (p : SeqPhase) (w : Word) :
    s.LeadsTo (·.At p w) (·.Released p w) := by
  have hidle : s.LeadsTo (·.At p w) State.ChannelIdle := fun n _ => hf.drains h n trivial
  refine ((at_keptUntil_released p w).leadsTo_and h hidle).trans fun n hn => ?_
  obtain hr | hi := hn
  · exact ⟨n, le_refl n, hr⟩
  · exact hf.released_of_idle h p w n hi

/-! ### Every command ends -/

/-- No agent beside SEQ takes an ended hold back. -/
theorem State.HoldOver.beside (hh : s.HoldOver) (hb : s.status.cmdBusy = true) (h1 : s.nextAgent ≠ .seq)
    (h2 : s.nextAgent ≠ .platform) (hs : step s = .next t) : t.HoldOver := by
  obtain ⟨hp, hw, hn, hv, hd, hu, hc⟩ := step_beside hs hb h1 h2
  have kept (hi : s.ChannelIdle) : t.dma = s.dma ∧ t.outq.length ≤ s.outq.length :=
    hc.resolve_left fun hdma => hdma.2 hi
  have idle (hi : s.ChannelIdle) : t.ChannelIdle := by rw [State.ChannelIdle, (kept hi).1]; exact hi
  refine hh.mono hp hw hn hv hd hu idle fun ⟨hi, hq⟩ => ⟨idle hi, lt_of_le_of_lt (kept hi).2 ?_⟩
  rw [parametersAreConstant s t hs]
  exact hq

/-- The command has ended, or is past phase `p`. -/
def State.PastPhase (s : State) (p : SeqPhase) : Prop := s.seqPhase = .idle ∨ p.num < s.seqPhase.num

theorem step_platform_idle (hn : s.nextAgent = .platform) (hs : step s = .next t) : t.seqPhase = .idle := by
  cases (step_platform (step_cases hs).1 hn).symm.trans hs
  rfl

/-- With its hold over SEQ is enabled, and its step ends the phase (R12, R278). -/
theorem State.WeaklyFair.pastPhase_of_holdOver (hf : s.WeaklyFair) (h : s.Live) (p : SeqPhase) (w : Word)
    (h0 : p ≠ .idle) : s.LeadsTo (fun t => t.HoldOver ∧ t.At p w) (·.PastPhase p) := by
  have moves (t u : State) (ht : t.HoldOver ∧ t.At p w) (hn : t.nextAgent = .seq) (hs : step t = .next u) :
      u.PastPhase p := by
    obtain ⟨hh, rfl, -⟩ := ht
    have hturn := (step_seq (step_cases hs).1 hn).symm.trans hs
    obtain ⟨hheld, -⟩ | ⟨-, -, hpast⟩ := seqTurn_hold hturn h0
    · exact absurd hh hheld
    · exact hpast
  refine KeptUntil.leadsTo_of_fair (fun t u hl ht _ hs => ?kept) h hf.seq (fun t _ ht _ => ⟨ht.2.1 ▸ h0, ht.1⟩)
    fun t u _ ht _ => moves t u ht
  by_cases hseq : t.nextAgent = .seq
  · exact .inr (moves t u ht hseq hs)
  by_cases hreset : t.nextAgent = .platform
  · exact .inr (.inl (step_platform_idle hreset hs))
  obtain ⟨hh, hp, hw⟩ := ht
  have hb : t.status.cmdBusy = true := hl.inv.busy.2 (hp ▸ h0)
  obtain ⟨hp', hw', -⟩ := step_beside hs hb hseq hreset
  exact .inl ⟨hh.beside hb hseq hreset hs, hp'.trans hp, hw'.trans hw⟩

/-- A phase that runs is passed at some later step: its hold is released and SEQ moves, or a reset ends the command. -/
theorem State.WeaklyFair.pastPhase (hf : s.WeaklyFair) (h : s.Live) (p : SeqPhase) (w : Word) (h0 : p ≠ .idle) :
    s.LeadsTo (·.At p w) (·.PastPhase p) := by
  refine (hf.released h p w).trans fun n hn => ?_
  obtain hreset | hover := hn
  · exact ⟨n + 1, Nat.le_succ n, .inl (step_platform_idle hreset (h.step_nth n))⟩
  · exact hf.pastPhase_of_holdOver h p w h0 n hover

/-- How many of the four phases come after `p`: it falls with each phase passed. -/
def SeqPhase.left (p : SeqPhase) : Nat := 4 - p.num

theorem SeqPhase.left_lt {p q : SeqPhase} (h : p.num < q.num) : q.left < p.left := by
  have hq : q.num ≤ 4 := by cases q <;> decide
  unfold SeqPhase.left
  omega

/-- Every command ends: each of its phases is passed (R110, R278). -/
theorem State.WeaklyFair.commandEnds (hf : s.WeaklyFair) (h : s.Live) :
    s.LeadsTo (fun _ => True) (·.seqPhase = .idle) := by
  refine State.leadsTo_of_falling (·.seqPhase.left) fun k n hn => ?_
  by_cases h0 : (s.nth n).seqPhase = .idle
  · exact ⟨n, le_refl n, .inl h0⟩
  · obtain ⟨m, hm, hpast⟩ := hf.pastPhase h _ (s.nth n).seqCmd h0 n ⟨rfl, rfl⟩
    exact ⟨m, hm, hpast.imp_right fun hlt => hn ▸ SeqPhase.left_lt hlt⟩

/-- Settles O34: the alternation by induction on the words left, and the three promises of a weakly fair run. -/
theorem fairTurnsReleaseEveryHold : Obligations.FairTurnsReleaseEveryHold := by
  intro s hinv ha hact
  have h : s.Live := ⟨hinv, ha, hact⟩
  refine ⟨fun rest ht => h.alternation_drains rfl ht, fun hf n => ⟨?drains, ?released, ?ends⟩⟩
  case drains => exact hf.drains h n trivial
  case released => exact hf.released h _ _ n ⟨rfl, rfl⟩
  case ends => exact hf.commandEnds h n trivial

end Sys2Proof.Machine

/-! # Proof of the listed words (table E of spec/95_test_vectors.md) -/

namespace Sys2Proof

/-- A command's word decodes to the command (R101, R102). -/
theorem decodeWord_of_encode_eq {i : Instr} {w : Word} (h : encode i = w) : decodeWord w = .ok i := h ▸ decodeOfEncode i

/-- Settles O4: each legal word is its command's word, and the illegal one is a word of PUSH's row with bit 26 set. -/
theorem listedWordsDecode : Obligations.ListedWordsDecode := by
  refine ⟨?codec, ?fill, ?start, ?push, ?setinc, ?setnv, ?sstep, ?illegal⟩
  case illegal => exact decodeWord_of_fixedBits (i := .push 0) (by decide) (by decide)
  all_goals exact decodeWord_of_encode_eq (by decide)

end Sys2Proof
